-- ==== Sys2Proof/Word.lean ====
section
/-! DEFINITION. The word types of the machine (spec/00_scope.md R8, R14, R15): 8-bit bytes, 64-bit register values and
addresses, 32-bit instruction words, 5-bit register numbers, and the fixed 32-byte strings that leaves, hashes and
preimage keys are. -/

namespace Sys2Proof

/-- One byte of memory (R50). -/
abbrev Byte := BitVec 8

/-- A register value or an address: an unsigned integer in `[0, 2^64)` (R15, R50). -/
abbrev Word := BitVec 64

/-- An instruction word (R90). -/
abbrev IWord := BitVec 32

/-- The number of a general register, `x0` to `x31` (R20). -/
abbrev Reg := BitVec 5

/-- A string of exactly 32 bytes, byte 0 first: a leaf value, a hash, a preimage key (R11, R28, R52). -/
abbrev Bytes32 := Vector Byte 32

/-- The hash function as a value: any function from byte strings to 32-byte strings (R11). -/
abbrev HashFn := List Byte → Bytes32

end Sys2Proof
end

