-- ==== Sys2Proof/Machine/Flags.lean ====
section
/-! DEFINITION. The machine has no flags: "There are no condition codes, no carry or overflow flags and no predicate
registers" (spec/10_state.md R26). What an instruction set with flags would keep there is here either a value 0 or 1 in a
general register (spec/40_arith_unit.md R134) or the condition of a branch, both computed from two operands. -/

namespace Sys2Proof.Machine

/-- The `W`-bit value 1 for true and 0 for false (R134). -/
def truth {W : Nat} (b : Bool) : BitVec W := if b then 1 else 0

/-- R134 -/
def auLt {W : Nat} (a b : BitVec W) : BitVec W := truth (decide (a.toNat < b.toNat))

/-- R134 -/
def auGt {W : Nat} (a b : BitVec W) : BitVec W := truth (decide (b.toNat < a.toNat))

/-- R134 -/
def auSlt {W : Nat} (a b : BitVec W) : BitVec W := truth (decide (a.toInt < b.toInt))

/-- R134 -/
def auSgt {W : Nat} (a b : BitVec W) : BitVec W := truth (decide (b.toInt < a.toInt))

/-- R134 -/
def auEq {W : Nat} (a b : BitVec W) : BitVec W := truth (decide (a = b))

/-- R134 -/
def auIszero {W : Nat} (a : BitVec W) : BitVec W := truth (decide (a = 0))

/-! ## Branch conditions (spec/43_branches.md R202 to R207) -/

def condEq (a b : Word) : Bool := decide (a = b)

def condNe (a b : Word) : Bool := !condEq a b

def condLt (a b : Word) : Bool := decide (a.toInt < b.toInt)

def condGe (a b : Word) : Bool := !condLt a b

def condLtu (a b : Word) : Bool := decide (a.toNat < b.toNat)

def condGeu (a b : Word) : Bool := !condLtu a b

end Sys2Proof.Machine
end

