-- ==== Sys2Proof/Machine/Arith.lean ====
section
/-! DEFINITION. The arithmetic unit AU (spec/40_arith_unit.md R120 to R137): total functions on `W`-bit values, used at
`W = 64` by the instructions, at `W = 32` by the W divides and at `W = 256` by the high-half multiplies. None sets a flag
and none faults (R120). -/

namespace Sys2Proof.Machine

/-- `ONES_W` (R120). -/
def ones (W : Nat) : BitVec W := BitVec.allOnes W

/-- `MIN_W` (R120). -/
def minSigned (W : Nat) : BitVec W := BitVec.intMin W

/-- R121 -/
def auAdd {W : Nat} (a b : BitVec W) : BitVec W := a + b

/-- R122 -/
def auSub {W : Nat} (a b : BitVec W) : BitVec W := a - b

/-- R123 -/
def auMul {W : Nat} (a b : BitVec W) : BitVec W := a * b

/-- R124: 0 for a zero divisor. -/
def auDiv {W : Nat} (a b : BitVec W) : BitVec W := if b = 0 then 0 else a / b

/-- R125: 0 for a zero divisor, otherwise rounded toward zero; `MIN_W / -1` wraps to `MIN_W`. -/
def auSdiv {W : Nat} (a b : BitVec W) : BitVec W := if b = 0 then 0 else BitVec.ofInt W (a.toInt.tdiv b.toInt)

/-- R126: 0 for a zero divisor. -/
def auMod {W : Nat} (a b : BitVec W) : BitVec W := if b = 0 then 0 else a % b

/-- R127: 0 for a zero divisor, otherwise the sign of the dividend. -/
def auSmod {W : Nat} (a b : BitVec W) : BitVec W := if b = 0 then 0 else BitVec.ofInt W (a.toInt.tmod b.toInt)

/-- R128: the amount first; 0 when it is `W` or more. -/
def auShl {W : Nat} (n v : BitVec W) : BitVec W := if W ≤ n.toNat then 0 else v <<< n.toNat

/-- R129 -/
def auShr {W : Nat} (n v : BitVec W) : BitVec W := if W ≤ n.toNat then 0 else v >>> n.toNat

/-- R130: the vacated bits are copies of the sign bit, whatever the amount. -/
def auSar {W : Nat} (n v : BitVec W) : BitVec W :=
  if W ≤ n.toNat then (if v.msb then ones W else 0) else v.sshiftRight n.toNat

/-- R131: extend the sign of the low `8(b+1)` bits. -/
def auSignextend {W : Nat} (b v : BitVec W) : BitVec W :=
  if W / 8 - 1 ≤ b.toNat then v else (v.setWidth (8 * b.toNat + 8)).signExtend W

/-- R133 -/
def auAnd {W : Nat} (a b : BitVec W) : BitVec W := a &&& b

/-- R133 -/
def auOr {W : Nat} (a b : BitVec W) : BitVec W := a ||| b

/-- R133 -/
def auXor {W : Nat} (a b : BitVec W) : BitVec W := a ^^^ b

/-- R133 -/
def auNot {W : Nat} (v : BitVec W) : BitVec W := ones W - v

/-! ## Width conversion (R132) -/

def zext256 (v : Word) : BitVec 256 := v.setWidth 256

def sext256 (v : Word) : BitVec 256 := v.signExtend 256

def trunc64 (u : BitVec 256) : Word := u.setWidth 64

/-- The 256-bit value of a 32-byte string, byte 0 the most significant (R132). -/
def value256 (b : Bytes32) : BitVec 256 := b.toList.foldl (fun u x => u <<< 8 ||| x.setWidth 256) 0

/-- The 32-byte string of a 256-bit value, byte 0 the most significant (R132). -/
def string256 (u : BitVec 256) : Bytes32 := Vector.ofFn fun k : Fin 32 => (u >>> (8 * (31 - k.val))).setWidth 8

/-- `sext_N(v)` of a 64-bit value (spec/00_scope.md R15). -/
def sextN (N : Nat) (v : Word) : Word := (v.setWidth N).signExtend 64

/-- `zext_N(v)` (R15). -/
def zextN (N : Nat) (v : Word) : Word := (v.setWidth N).setWidth 64

/-! ## The high half of a product (spec/46_muldiv.md R271 to R273; R136) -/

/-- `(p mod 2^128)[127:64]` of an exact integer product. -/
def highHalf (p : Int) : Word := (BitVec.ofInt 128 p).extractLsb' 64 64

end Sys2Proof.Machine
end

