-- ==== Sys2Proof/Config.lean ====
section
/-! DEFINITION. What an implementation of the block fixes and the spec leaves open with no value (spec/00_scope.md R10,
R11, R12): the hash function, the page size and the preimage oracle. Each is an opaque constant: no proof can see which
one it is, so a claim about the model holds for all of them. The OPEN parameters for which the spec takes a default
stand in Machine/Params.lean. -/

namespace Sys2Proof

/-- Why a preimage could not be delivered. The first three are the provider's failures (spec/48_system.md R324: "preimage
fetch failure, timeout, or provider-process exit"); the last is the block's own check (R311: "offset beyond value"). -/
inductive OracleFailure where
  | fetchFailed
  | timeout
  | providerExit
  | offsetBeyondValue
  deriving DecidableEq, Repr, Inhabited

/-- `ORACLE(key) = Some bytes | Fail reason` (R12). -/
inductive OracleAnswer where
  | preimage (bytes : List Byte)
  | fail (reason : OracleFailure)
  deriving DecidableEq, Repr, Inhabited

/-- The preimage provider as a value: a function of the key alone (R12, R322). -/
abbrev OracleFn := Bytes32 → OracleAnswer

namespace Config

/-- `HASH` (R11): named in log entry 5. -/
opaque hash : HashFn

/-- `ORACLE` (R12): named in log entry 6. -/
opaque oracle : OracleFn

/-- The value of the length prefix of a preimage too long for one, 2^64 bytes or more, for which the spec states none
(spec/00_scope.md R19, spec/48_system.md R311): a free value, log entry 17. -/
opaque longPrefix : Nat → Word

/-- `PAGE_BITS - 5`, so that `5 <= PAGE_BITS <= 64` holds by its type (R10): named in log entry 7. -/
opaque pageBitsAboveFive : Fin 60

/-- `PAGE_BITS`: a page holds `2^PAGE_BITS` bytes (R10, R53). -/
def pageBits : Nat := 5 + pageBitsAboveFive.val

/-- `TREE_DEPTH`, the number of branch levels between the root and a leaf (R9). -/
def treeDepth : Nat := 59

/-- `STATE_BYTES`, the length of the state encoding (R8). -/
def stateBytes : Nat := 362

/-- `BRK_VALUE`, the fixed 1 GiB program-break constant (R8). -/
def brkValue : Word := 0x40000000

end Config

end Sys2Proof
end

