-- ==== Sys2Proof/Machine/Params.lean ====
section
/-! DEFINITION. The OPEN parameters of the block for which the spec takes a default (spec/00_scope.md R13;
spec/92_eei_decisions.md D12, D14, D18, D19, D21), each at that default: log entries 8 to 12. -/

namespace Sys2Proof.Machine

/-- `ENTRY_PC`, default 0 (R44, D14): log entry 12. -/
def entryPc : Word := 0

/-- `HEAP_START`, default 0 (R44, D14): log entry 12. -/
def heapStart : Word := 0

/-- `NOOP_SYSCALLS`, default `sched_yield`, `rt_sigprocmask`, `madvise` (spec/48_system.md R315, D21): log entry 8. -/
def noopSyscalls : List Word := [124, 135, 233]

/-- `MMAP_ROUND`, default the identity (R308, D18): log entry 9. -/
def mmapRound (len : Word) : Word := len

/-- `MMAP_RETURNS_NEW`, default true (R308, D18): log entry 9. -/
def mmapReturnsNew : Bool := true

/-- `ERR_BADF`, default 0x4D (R309, D19): log entry 10. -/
def errBadf : Word := 0x4d

/-- `PROOF_LEAF_INCLUDED`, default false (spec/41_engine_commands.md R166, D12): log entry 11. -/
def proofLeafIncluded : Bool := false

/-- The parameters of the syscall table (R308, R309, R315), an argument of `syscall`: "a model takes the set as an argument"
(R315). The numbers 63, 64, 93, 94, 214, 222 are dispatched before the set is looked at, so that a set is disjoint from them
need not be asked of it. -/
structure SyscallParams where
  /-- `NOOP_SYSCALLS`, a finite set of syscall numbers -/
  noop : List Word
  /-- `MMAP_ROUND` -/
  round : Word → Word
  /-- `MMAP_RETURNS_NEW` -/
  returnsNew : Bool
  /-- `ERR_BADF` -/
  badf : Word

/-- The parameters the machine passes: each at the spec's default. -/
def syscallDefaults : SyscallParams := ⟨noopSyscalls, mmapRound, mmapReturnsNew, errBadf⟩

end Sys2Proof.Machine
end

