-- ==== Sys2Proof/Syntax.lean ====
section
/-! DEFINITION. The instructions and commands, one constructor for each row of spec/opcode_table.json: 67 rows that are
instruction words (spec/30_encoding.md R92, R99, R100; the A-extension slot among them) and the ten commands of the
command port (R107). Operands are the raw fields; immediates are held at their encoded width, already assembled from
their pieces (R93 to R97), and are sign-extended where they are used. -/

namespace Sys2Proof

/-- What the host presents at the command port (R107): the 4-bit command code and the port's operand lines. A command
ignores the lines it has no argument on. The spec gives operands no encoding (log entry 2). -/
structure PortRequest where
  /-- the command code, 0x0 to 0x9; 0xA to 0xF name no command -/
  code : BitVec 4
  /-- the address operand of `READ`, `WRITE`, `PROOF` -/
  addr : Word
  /-- the length operand of `READ` -/
  len : Nat
  /-- the byte-string operand of `WRITE`, `DESERIALIZE`, `DECODE_STATE` -/
  bytes : List Byte
  /-- the operand bit of `STEP` -/
  proofMode : Bool
  deriving DecidableEq, Repr

/-- The instructions (operand order as in R105) and the commands. -/
inductive Instr where
  -- loads (spec/42_loads_stores.md R182 to R188)
  | lb (rd rs1 : Reg) (imm : BitVec 12)
  | lh (rd rs1 : Reg) (imm : BitVec 12)
  | lw (rd rs1 : Reg) (imm : BitVec 12)
  | ld (rd rs1 : Reg) (imm : BitVec 12)
  | lbu (rd rs1 : Reg) (imm : BitVec 12)
  | lhu (rd rs1 : Reg) (imm : BitVec 12)
  | lwu (rd rs1 : Reg) (imm : BitVec 12)
  -- stores (R189 to R192)
  | sb (rs2 rs1 : Reg) (imm : BitVec 12)
  | sh (rs2 rs1 : Reg) (imm : BitVec 12)
  | sw (rs2 rs1 : Reg) (imm : BitVec 12)
  | sd (rs2 rs1 : Reg) (imm : BitVec 12)
  -- conditional branches (spec/43_branches.md R202 to R207); the offset is a multiple of 2
  | beq (rs1 rs2 : Reg) (offset : BitVec 13)
  | bne (rs1 rs2 : Reg) (offset : BitVec 13)
  | blt (rs1 rs2 : Reg) (offset : BitVec 13)
  | bge (rs1 rs2 : Reg) (offset : BitVec 13)
  | bltu (rs1 rs2 : Reg) (offset : BitVec 13)
  | bgeu (rs1 rs2 : Reg) (offset : BitVec 13)
  -- immediate ALU operations (spec/44_alu.md R211 to R219)
  | addi (rd rs1 : Reg) (imm : BitVec 12)
  | slti (rd rs1 : Reg) (imm : BitVec 12)
  | sltiu (rd rs1 : Reg) (imm : BitVec 12)
  | xori (rd rs1 : Reg) (imm : BitVec 12)
  | ori (rd rs1 : Reg) (imm : BitVec 12)
  | andi (rd rs1 : Reg) (imm : BitVec 12)
  | slli (rd rs1 : Reg) (shamt : BitVec 6)
  | srli (rd rs1 : Reg) (shamt : BitVec 6)
  | srai (rd rs1 : Reg) (shamt : BitVec 6)
  -- register ALU operations (R220 to R229)
  | add (rd rs1 rs2 : Reg)
  | sub (rd rs1 rs2 : Reg)
  | sll (rd rs1 rs2 : Reg)
  | slt (rd rs1 rs2 : Reg)
  | sltu (rd rs1 rs2 : Reg)
  | srl (rd rs1 rs2 : Reg)
  | sra (rd rs1 rs2 : Reg)
  | xor (rd rs1 rs2 : Reg)
  | or (rd rs1 rs2 : Reg)
  | and (rd rs1 rs2 : Reg)
  -- 32-bit operations (R230 to R238)
  | addiw (rd rs1 : Reg) (imm : BitVec 12)
  | slliw (rd rs1 : Reg) (shamt : BitVec 5)
  | srliw (rd rs1 : Reg) (shamt : BitVec 5)
  | sraiw (rd rs1 : Reg) (shamt : BitVec 5)
  | addw (rd rs1 rs2 : Reg)
  | subw (rd rs1 rs2 : Reg)
  | sllw (rd rs1 rs2 : Reg)
  | srlw (rd rs1 rs2 : Reg)
  | sraw (rd rs1 rs2 : Reg)
  -- upper immediates (R239, R240)
  | lui (rd : Reg) (imm : BitVec 20)
  | auipc (rd : Reg) (imm : BitVec 20)
  -- jumps (spec/45_jumps.md R261, R263); the offset of JAL is a multiple of 2
  | jal (rd : Reg) (offset : BitVec 21)
  | jalr (rd rs1 : Reg) (imm : BitVec 12)
  -- multiply and divide (spec/46_muldiv.md R270 to R282)
  | mul (rd rs1 rs2 : Reg)
  | mulh (rd rs1 rs2 : Reg)
  | mulhsu (rd rs1 rs2 : Reg)
  | mulhu (rd rs1 rs2 : Reg)
  | div (rd rs1 rs2 : Reg)
  | divu (rd rs1 rs2 : Reg)
  | rem (rd rs1 rs2 : Reg)
  | remu (rd rs1 rs2 : Reg)
  | mulw (rd rs1 rs2 : Reg)
  | divw (rd rs1 rs2 : Reg)
  | divuw (rd rs1 rs2 : Reg)
  | remw (rd rs1 rs2 : Reg)
  | remuw (rd rs1 rs2 : Reg)
  -- system (spec/48_system.md R300, R317 to R319)
  | ecall
  | ebreak
  | fence (fm pred succ : BitVec 4) (rs1 rd : Reg)
  | fenceI (imm : BitVec 12) (rs1 rd : Reg)
  -- the A-extension opcode slot (spec/47_atomics.md R290)
  | aSlot (funct5 : BitVec 5) (aq rl : BitVec 1) (rs2 rs1 : Reg) (funct3 : BitVec 3) (rd : Reg)
  -- the command port (R107; spec/41_engine_commands.md, spec/49_step_codec_witness.md)
  | cmdRead (addr : Word) (len : Nat)
  | cmdWrite (addr : Word) (bytes : List Byte)
  | cmdRoot
  | cmdProof (addr : Word)
  | cmdSerialize
  | cmdDeserialize (bytes : List Byte)
  | cmdEncodeState
  | cmdDecodeState (bytes : List Byte)
  | cmdStateHash
  | cmdStep (proofMode : Bool)
  deriving DecidableEq, Repr

/-- The commands of the port, as opposed to the instructions a `STEP` fetches from memory (R107). -/
def Instr.isCommand : Instr → Bool
  | .cmdRead _ _ | .cmdWrite _ _ | .cmdRoot | .cmdProof _ | .cmdSerialize | .cmdDeserialize _
  | .cmdEncodeState | .cmdDecodeState _ | .cmdStateHash | .cmdStep _ => true
  | _ => false

end Sys2Proof
end

