-- ==== Sys2Proof/Machine/State.lean ====
section
/-! DEFINITION. The machine state (spec/10_state.md R20 to R44) as plain data, the faults (spec/60_exceptions.md R400),
the refusals, and the state after reset. -/

namespace Sys2Proof.Machine

/-! ## Faults -/

/-- Which check of `DECODE_STATE` failed (spec/49_step_codec_witness.md R351), or that a witness's preimage key has a
type the verifier call does not take (R362). -/
inductive CodecCheck where
  | length
  | exitedFlag
  | exitCodeWithoutExited
  | x0NotZero
  | pcMisaligned
  | memoryRootMismatch
  | unsupportedKeyType
  deriving DecidableEq, Repr

/-- Which check of `DESERIALIZE` failed (spec/41_engine_commands.md R170, spec/60_exceptions.md R411). -/
inductive SerializationCheck where
  | tooShort
  | wrongLength
  | pageOutOfRange
  | notAscending
  deriving DecidableEq, Repr

/-- The faults, one constructor for each name of R400. A fault ends the command and leaves the state as it was (R420), so
each is safe: the model stops exactly where the block reports an error. -/
inductive Fault where
  /-- raised by `STEP` when the fetched word matches no row (R401); safe -/
  | decodeError (w : IWord)
  /-- raised by `STEP` on a word of the A slot (R407); safe -/
  | unimplementedAtomic (w : IWord)
  /-- raised by ECALL when `x[17]` is not recognised (R403); safe -/
  | unsupportedSyscall (n : Word)
  /-- raised by the preimage read of ECALL (R404); safe -/
  | oracleError (key : Bytes32) (offset : Word) (reason : OracleFailure)
  /-- raised by the replay driver only, which is outside the block (R405): nothing in the model raises it; safe.
  DESIGN CHOICE: the spec gives "the mismatching node key" no width and no format (spec/91_not_in_source.md N26); the model
  makes it a 32-byte string (log entry 25) -/
  | proofReplayError (node : Bytes32)
  /-- raised by the node-addressed interface on a gindex that names no node (R409); no command reaches it; safe -/
  | gindexTooDeep (g : Nat)
  /-- raised by `DECODE_STATE` and by the verifier-call encoding (R406); safe -/
  | codecError (check : CodecCheck)
  /-- raised by a taken branch, JAL or JALR whose target is not 4-byte aligned (R408); safe -/
  | misalignedTarget (target : Word)
  /-- raised by `STEP` when `pc` is not 4-byte aligned (R408); safe -/
  | misalignedFetch (pc : Word)
  /-- raised by a load, a store, a console or hint write, `READ`, `WRITE` that runs past the last address (R410); safe -/
  | addressRange (addr : Word) (n : Nat)
  /-- raised by `READ` and `WRITE` of more than 32 bytes (R410); safe -/
  | engineArg (n : Nat)
  /-- raised by `DESERIALIZE` on a malformed string (R411); safe -/
  | serializationError (check : SerializationCheck)
  /-- raised by the command port on a code 0xA to 0xF (R412); safe -/
  | badCommand (code : BitVec 4)
  deriving DecidableEq, Repr

/-- What the model does not run. Both are safe: no claim about a next state can follow from a refusal. -/
inductive Refusal where
  /-- an arm of `exec` that has no meaning yet; safe -/
  | notModelled (mnemonic : String)
  /-- raised by the stepper if a fetched word decoded to a command, which none does
  (Laws/Stepper.lean, `decodeWord_not_command`); safe -/
  | commandInsideStep
  deriving DecidableEq, Repr

/-! ## Memory -/

/-- The memory (R37). `cells` is the content: the bytes that are not 0, by strictly rising address; every address not
listed reads 0 (spec/20_memory.md R51). `touched` is the set of leaves some write has touched, strictly rising; the
allocated page set is its image under `>> (PAGE_BITS - 5)` (R53; log entry 7). -/
structure Memory where
  cells : List Host.Cell
  touched : List Nat
  deriving DecidableEq, Repr

/-- The canonical form: addresses strictly rising, below `2^64` and with no listed byte 0; touched leaves strictly rising
and below `2^59`; every listed byte in a touched leaf. -/
abbrev Memory.wf (m : Memory) : Prop :=
  m.cells.Pairwise (fun c d => c.1 < d.1) ∧
  (∀ c ∈ m.cells, c.2 ≠ 0 ∧ c.1 < 2 ^ 64 ∧ c.1 / 32 ∈ m.touched) ∧
  m.touched.Pairwise (fun l k => l < k) ∧
  ∀ l ∈ m.touched, l < 2 ^ 59

/-- The memory no write has reached (R44). -/
def Memory.empty : Memory := ⟨[], []⟩

/-! ## What the block hands to the host -/

/-- `Out(fd, bytes)`, an event on the block's output port (spec/48_system.md R314). -/
structure OutEvent where
  fd : Word
  bytes : List Byte
  deriving DecidableEq, Repr

/-- The preimage part of a witness (spec/49_step_codec_witness.md R360, R362). -/
structure PreimagePart where
  key : Bytes32
  /-- the value with its 8-byte big-endian length prefix -/
  value : List Byte
  offset : Word
  deriving DecidableEq, Repr

/-- `StepWitness` (R360). -/
structure StepWitness where
  stateData : List Byte
  proof : List Byte
  preimage : Option PreimagePart
  deriving DecidableEq, Repr

/-- The result of the last command (the result column of spec/30_encoding.md R107). -/
inductive Reply where
  /-- no command has been served since reset -/
  | idle
  /-- `WRITE`, `DESERIALIZE`, `DECODE_STATE`, `STEP` with `proofMode = 0` -/
  | ok
  /-- `READ`, `ROOT`, `PROOF`, `SERIALIZE`, `ENCODE_STATE`, `STATE_HASH` -/
  | bytes (b : List Byte)
  /-- `STEP` with `proofMode = 1` -/
  | witness (w : StepWitness)
  /-- the command failed: its result is the fault (R107 "or fault", spec/60_exceptions.md R420) -/
  | fault (f : Fault)
  deriving DecidableEq, Repr

/-! ## The state -/

/-- The whole machine. The fields down to `mem` are `MachineState` (R20 to R37); the last three are the model's own: the
command port's input and outputs (log entries 1 and 14). -/
structure State where
  /-- `x0` to `x31`; slot 0 is never written and never read (R20, R21) -/
  regs : Vector Word 32
  /-- R23 -/
  pc : Word
  /-- R28 -/
  preimageKey : Bytes32
  /-- R29 -/
  preimageOffset : Word
  /-- R30 -/
  exitCode : Byte
  /-- R31 -/
  exited : Bool
  /-- the spec's `step` (R32) -/
  stepCount : Word
  /-- R33 -/
  heap : Word
  /-- R34 -/
  loadReservation : Word
  /-- R36, R37 -/
  mem : Memory
  /-- the commands the host has still to present, oldest first; when there is none the driver presents `STEP(0)` -/
  requests : List PortRequest
  /-- the result of the last command taken from the port -/
  reply : Reply
  /-- the `Out` events emitted so far, oldest first -/
  output : List OutEvent
  deriving DecidableEq, Repr

/-- What a command or an instruction ends in. -/
abbrev Result := Host.Outcome State Fault Refusal

/-- The machine right after reset (R44, spec/70_reset_and_hazards.md R430). -/
def State.reset : State where
  regs := Vector.replicate 32 0
  pc := entryPc
  preimageKey := Vector.replicate 32 0
  preimageOffset := 0
  exitCode := 0
  exited := false
  stepCount := 0
  heap := heapStart
  loadReservation := 0
  mem := Memory.empty
  requests := []
  reply := .idle
  output := []

end Sys2Proof.Machine
end

