-- ==== Sys2Proof/Machine/Ops.lean ====
section
/-! DEFINITION. The named operations over registers, memory and the program counter, the byte orders, and the one way a
fault is taken. -/

namespace Sys2Proof.Machine

/-! ## Taking a fault

The machine has no trap entry and no return from one (spec/60_exceptions.md R415, R416): a fault saves nothing and goes
nowhere, "The state after a raised fault is exactly the state before the step" (spec/00_scope.md R18). -/

/-- `raise <Fault>(info)` (R18): the command ends with the fault, and the state is the one before it. -/
def raise (f : Fault) : Result := .fault f

/-- Complete with the value of a checked operation, or raise its fault. -/
def orRaise {α : Type} (r : Except Fault α) (k : α → Result) : Result :=
  match r with
  | .ok a => k a
  | .error f => raise f

/-! ## Registers and the program counter (R16) -/

/-- `x[i]`: register 0 reads 0 (spec/10_state.md R21). -/
def State.readReg (s : State) (r : Reg) : Word := if r = 0 then 0 else s.regs[r.toNat]'(r.isLt)

/-- `x[i] <- v`: a write to register 0 is discarded (R21). -/
def State.writeReg (s : State) (r : Reg) (v : Word) : State :=
  if r = 0 then s else { s with regs := s.regs.set r.toNat v r.isLt }

/-- `pc <- t`. -/
def State.setPc (s : State) (t : Word) : State := { s with pc := t }

/-- `pc <- (pc + 4) mod 2^64` (R25). -/
def State.advance (s : State) : State := s.setPc (s.pc + 4)

/-- The end of an instruction that writes one register and goes on: `x[rd] <- v; pc <- pc + 4`. -/
def retire (s : State) (rd : Reg) (v : Word) : Result := .next (s.writeReg rd v).advance

/-- `a[1:0] = 0` (R24). -/
def aligned4 (a : Word) : Bool := a.toNat % 4 == 0

/-- A control transfer to `t`, after linking: `MisalignedTarget` before anything is written
(spec/43_branches.md R201, spec/45_jumps.md R262). -/
def transfer (s : State) (t : Word) : Result :=
  if aligned4 t then .next (s.setPc t) else raise (.misalignedTarget t)

/-! ## Byte orders -/

/-- The integer whose little-endian bytes are `b` (spec/20_memory.md R64). -/
def leNat : List Byte → Nat
  | [] => 0
  | b :: bs => b.toNat + 256 * leNat bs

/-- The low `8n` bits of `v`, least significant byte first (R64). -/
def leBytes : Nat → Word → List Byte
  | 0, _ => []
  | n + 1, v => v.setWidth 8 :: leBytes n (v >>> 8)

/-- The integer whose big-endian bytes are `b`. -/
def beNat (b : List Byte) : Nat := leNat b.reverse

/-- `be64(v)` (spec/00_scope.md R19). -/
def be64 (v : Word) : List Byte := (leBytes 8 v).reverse

/-- The 64-bit value of 8 big-endian bytes. -/
def beWord (b : List Byte) : Word := BitVec.ofNat 64 (beNat b)

/-- The 32-byte string of the first 32 bytes of `b`. -/
def bytes32 (b : List Byte) : Bytes32 := Vector.ofFn fun k : Fin 32 => b.getD k.val 0

/-! ## Memory content (R50, R51) -/

/-- The byte a list of cells gives an address: 0 where it lists none. -/
def cellsGet (a : Nat) : List Host.Cell → Byte
  | [] => 0
  | c :: cs => if a = c.1 then c.2 else cellsGet a cs

/-- Set one byte, keeping the canonical form: a byte 0 is not listed. -/
def cellsSet (a : Nat) (b : Byte) : List Host.Cell → List Host.Cell
  | [] => if b = 0 then [] else [(a, b)]
  | c :: cs =>
    if a < c.1 then (if b = 0 then c :: cs else (a, b) :: c :: cs)
    else if a = c.1 then (if b = 0 then cs else (a, b) :: cs)
    else c :: cellsSet a b cs

/-- Add a number to a strictly rising list. -/
def insertRising (l : Nat) : List Nat → List Nat
  | [] => [l]
  | k :: ks => if l < k then l :: k :: ks else if l = k then k :: ks else k :: insertRising l ks

/-- `byte(a)` (R83). -/
def Memory.byte (m : Memory) (a : Nat) : Byte := cellsGet a m.cells

/-- `byte(a) <- b`, and the page of `a` becomes allocated (R84). -/
def Memory.setByte (m : Memory) (a : Nat) (b : Byte) : Memory :=
  ⟨cellsSet a b m.cells, insertRising (a / 32) m.touched⟩

/-- `byte(a), .., byte(a + n - 1)`. -/
def Memory.bytesAt (m : Memory) (a : Nat) : Nat → List Byte
  | 0 => []
  | n + 1 => m.byte a :: m.bytesAt (a + 1) n

/-- `byte(a + k) <- b[k]` for each `k`. -/
def Memory.setBytesAt (m : Memory) (a : Nat) : List Byte → Memory
  | [] => m
  | b :: bs => (m.setByte a b).setBytesAt (a + 1) bs

/-- The allocated page set, ascending, for pages of `2^pageBits` bytes (R37 (b), R53). -/
def Memory.pages (pageBits : Nat) (m : Memory) : List Nat :=
  m.touched.foldl (fun ps l => insertRising (l / 2 ^ (pageBits - 5)) ps) []

/-! ## The memory primitives (R71, R83 to R85) -/

/-- An access of `n` bytes at `a` is in range: it is empty or ends at or below the last address (R71). -/
def inRange (a : Word) (n : Nat) : Bool := n == 0 || decide (a.toNat + n ≤ 2 ^ 64)

/-- `MemBytes(addr, n)` (R85). -/
def memBytes (m : Memory) (a : Word) (n : Nat) : Except Fault (List Byte) :=
  if inRange a n then .ok (m.bytesAt a.toNat n) else .error (.addressRange a n)

/-- `MemSetBytes(addr, b)` (R85). -/
def memSetBytes (m : Memory) (a : Word) (b : List Byte) : Except Fault Memory :=
  if inRange a b.length then .ok (m.setBytesAt a.toNat b) else .error (.addressRange a b.length)

/-- `MemRead(addr, n)` (R83). -/
def memRead (m : Memory) (a : Word) (n : Nat) : Except Fault Word :=
  match memBytes m a n with
  | .ok b => .ok (BitVec.ofNat 64 (leNat b))
  | .error f => .error f

/-- `MemWrite(addr, n, v)` (R84). -/
def memWrite (m : Memory) (a : Word) (n : Nat) (v : Word) : Except Fault Memory := memSetBytes m a (leBytes n v)

/-! ## Fetch and the port -/

/-- The word at `pc`, little-endian (R65). -/
def fetch (s : State) : Except Fault IWord :=
  match memRead s.mem s.pc 4 with
  | .ok v => .ok (v.setWidth 32)
  | .error f => .error f

/-- The driver's command: `STEP` with `proofMode = 0`. -/
def driverStep : PortRequest := ⟨0x9, 0, 0, [], false⟩

/-- What stands at the command port: the host's next command, or the driver's `STEP(0)` (log entry 1). -/
def State.pendingRequest (s : State) : PortRequest :=
  match s.requests with
  | [] => driverStep
  | r :: _ => r

/-- The host's commands with a `STEP(0)` before them; the driver presents it where there are none. -/
def State.stepFirst (s : State) : List PortRequest :=
  match s.requests with
  | [] => []
  | rs => driverStep :: rs

/-- The block takes the command that stands at the port. -/
def State.accept (s : State) : State := { s with requests := s.requests.tail }

/-- A command ends with a result for the host. -/
def State.answer (s : State) (r : Reply) : State := { s with reply := r }

/-- What a command's outcome is at the port of `s`. A command that failed has changed nothing; its fault is its result, it is
taken off the port, and "the block accepts further commands normally" (spec/60_exceptions.md R420). The driver's own `STEP`,
which no host command stands behind, is not on the port: its fault is the outcome of the step itself, "a result value, not a
transition" (R420; log entry 4). -/
def State.report (s : State) : Result → Result
  | .next t => .next t
  | .fault f => if s.requests = [] then raise f else .next (s.accept.answer (.fault f))
  | .refused r => .refused r

/-- The word `w` stored in memory order at `pc`, as a `WRITE` would store it (spec/41_engine_commands.md R162). -/
def State.placeWord (s : State) (w : Nat) : State :=
  { s with mem := s.mem.setBytesAt s.pc.toNat (leBytes 4 (BitVec.ofNat 64 w)) }

end Sys2Proof.Machine
end

