-- ==== Sys2Proof/Machine/Operands.lean ====
section
/-! DEFINITION. The operand forms: sign-extended immediates (spec/30_encoding.md R93 to R97), the one addressing mode
(spec/42_loads_stores.md R180), shift amounts (R98), branch and jump targets. -/

namespace Sys2Proof.Machine

/-- `immI` (R93) and `immS` (R94): a 12-bit immediate, sign-extended. -/
def immIS (imm : BitVec 12) : Word := imm.signExtend 64

/-- `immB` (R95). -/
def immB (offset : BitVec 13) : Word := offset.signExtend 64

/-- `immU = sext_32(imm20 * 4096)` (R96). -/
def immU (imm : BitVec 20) : Word := (BitVec.ofNat 32 (imm.toNat * 4096)).signExtend 64

/-- `immJ` (R97). -/
def immJ (offset : BitVec 21) : Word := offset.signExtend 64

/-- The effective address `(x[rs1] + imm) mod 2^64` (R180). -/
def effAddr (s : State) (rs1 : Reg) (imm : BitVec 12) : Word := s.readReg rs1 + immIS imm

/-- An immediate shift amount as a 64-bit operand of the arithmetic unit (R98). -/
def immAmount {k : Nat} (shamt : BitVec k) : Word := shamt.setWidth 64

/-- `x[rs2][5:0]`, the amount of a 64-bit register shift (R98). -/
def amount6 (v : Word) : Word := zextN 6 v

/-- `x[rs2][4:0]`, the amount of a 32-bit register shift (R98). -/
def amount5 (v : Word) : Word := zextN 5 v

/-- The target of a taken branch (spec/43_branches.md R200). -/
def branchTarget (s : State) (offset : BitVec 13) : Word := s.pc + immB offset

/-- The target of JAL (spec/45_jumps.md R261). -/
def jalTarget (s : State) (offset : BitVec 21) : Word := s.pc + immJ offset

/-- The target of JALR: bit 0 of the sum is cleared (R263). -/
def jalrTarget (s : State) (rs1 : Reg) (imm : BitVec 12) : Word := (s.readReg rs1 + immIS imm) &&& ~~~1#64

end Sys2Proof.Machine
end

