-- ==== Sys2Proof/Machine/Alu.lean ====
section
/-! DEFINITION. The integer ALU instructions (spec/44_alu.md R210 to R240): each computes one 64-bit value from its
sources, writes it to `x[rd]` and advances `pc` (R210). -/

namespace Sys2Proof.Machine

/-! ## Immediate operations (OP-IMM) -/

/-- R211 -/
def execAddi (rd rs1 : Reg) (imm : BitVec 12) (s : State) : Result :=
  retire s rd (auAdd (s.readReg rs1) (immIS imm))

/-- R212 -/
def execSlti (rd rs1 : Reg) (imm : BitVec 12) (s : State) : Result :=
  retire s rd (auSlt (s.readReg rs1) (immIS imm))

/-- R213: the sign-extended immediate is compared as unsigned -/
def execSltiu (rd rs1 : Reg) (imm : BitVec 12) (s : State) : Result :=
  retire s rd (auLt (s.readReg rs1) (immIS imm))

/-- R214 -/
def execXori (rd rs1 : Reg) (imm : BitVec 12) (s : State) : Result :=
  retire s rd (auXor (s.readReg rs1) (immIS imm))

/-- R215 -/
def execOri (rd rs1 : Reg) (imm : BitVec 12) (s : State) : Result :=
  retire s rd (auOr (s.readReg rs1) (immIS imm))

/-- R216 -/
def execAndi (rd rs1 : Reg) (imm : BitVec 12) (s : State) : Result :=
  retire s rd (auAnd (s.readReg rs1) (immIS imm))

/-- R217 -/
def execSlli (rd rs1 : Reg) (shamt : BitVec 6) (s : State) : Result :=
  retire s rd (auShl (immAmount shamt) (s.readReg rs1))

/-- R218 -/
def execSrli (rd rs1 : Reg) (shamt : BitVec 6) (s : State) : Result :=
  retire s rd (auShr (immAmount shamt) (s.readReg rs1))

/-- R219 -/
def execSrai (rd rs1 : Reg) (shamt : BitVec 6) (s : State) : Result :=
  retire s rd (auSar (immAmount shamt) (s.readReg rs1))

/-! ## Register operations (OP) -/

/-- R220 -/
def execAdd (rd rs1 rs2 : Reg) (s : State) : Result :=
  retire s rd (auAdd (s.readReg rs1) (s.readReg rs2))

/-- R221 -/
def execSub (rd rs1 rs2 : Reg) (s : State) : Result :=
  retire s rd (auSub (s.readReg rs1) (s.readReg rs2))

/-- R222 -/
def execSll (rd rs1 rs2 : Reg) (s : State) : Result :=
  retire s rd (auShl (amount6 (s.readReg rs2)) (s.readReg rs1))

/-- R223 -/
def execSlt (rd rs1 rs2 : Reg) (s : State) : Result :=
  retire s rd (auSlt (s.readReg rs1) (s.readReg rs2))

/-- R224 -/
def execSltu (rd rs1 rs2 : Reg) (s : State) : Result :=
  retire s rd (auLt (s.readReg rs1) (s.readReg rs2))

/-- R225 -/
def execSrl (rd rs1 rs2 : Reg) (s : State) : Result :=
  retire s rd (auShr (amount6 (s.readReg rs2)) (s.readReg rs1))

/-- R226 -/
def execSra (rd rs1 rs2 : Reg) (s : State) : Result :=
  retire s rd (auSar (amount6 (s.readReg rs2)) (s.readReg rs1))

/-- R227 -/
def execXor (rd rs1 rs2 : Reg) (s : State) : Result :=
  retire s rd (auXor (s.readReg rs1) (s.readReg rs2))

/-- R228 -/
def execOr (rd rs1 rs2 : Reg) (s : State) : Result :=
  retire s rd (auOr (s.readReg rs1) (s.readReg rs2))

/-- R229 -/
def execAnd (rd rs1 rs2 : Reg) (s : State) : Result :=
  retire s rd (auAnd (s.readReg rs1) (s.readReg rs2))

/-! ## 32-bit immediate operations (OP-IMM-32) -/

/-- R230 -/
def execAddiw (rd rs1 : Reg) (imm : BitVec 12) (s : State) : Result :=
  retire s rd (sextN 32 (auAdd (s.readReg rs1) (immIS imm)))

/-- R231 -/
def execSlliw (rd rs1 : Reg) (shamt : BitVec 5) (s : State) : Result :=
  retire s rd (sextN 32 (auShl (immAmount shamt) (s.readReg rs1)))

/-- R232 -/
def execSrliw (rd rs1 : Reg) (shamt : BitVec 5) (s : State) : Result :=
  retire s rd (sextN 32 (auShr (immAmount shamt) (zextN 32 (s.readReg rs1))))

/-- R233 -/
def execSraiw (rd rs1 : Reg) (shamt : BitVec 5) (s : State) : Result :=
  retire s rd (auSar (immAmount shamt) (sextN 32 (s.readReg rs1)))

/-! ## 32-bit register operations (OP-32) -/

/-- R234 -/
def execAddw (rd rs1 rs2 : Reg) (s : State) : Result :=
  retire s rd (sextN 32 (auAdd (s.readReg rs1) (s.readReg rs2)))

/-- R235 -/
def execSubw (rd rs1 rs2 : Reg) (s : State) : Result :=
  retire s rd (sextN 32 (auSub (s.readReg rs1) (s.readReg rs2)))

/-- R236 -/
def execSllw (rd rs1 rs2 : Reg) (s : State) : Result :=
  retire s rd (sextN 32 (auShl (amount5 (s.readReg rs2)) (s.readReg rs1)))

/-- R237 -/
def execSrlw (rd rs1 rs2 : Reg) (s : State) : Result :=
  retire s rd (sextN 32 (auShr (amount5 (s.readReg rs2)) (zextN 32 (s.readReg rs1))))

/-- R238 -/
def execSraw (rd rs1 rs2 : Reg) (s : State) : Result :=
  retire s rd (auSar (amount5 (s.readReg rs2)) (sextN 32 (s.readReg rs1)))

/-! ## Upper immediates -/

/-- R239 -/
def execLui (rd : Reg) (imm : BitVec 20) (s : State) : Result := retire s rd (immU imm)

/-- R240: `pc` is the address of the AUIPC itself -/
def execAuipc (rd : Reg) (imm : BitVec 20) (s : State) : Result := retire s rd (auAdd s.pc (immU imm))

end Sys2Proof.Machine
end

