-- ==== Sys2Proof/Machine/Branches.lean ====
section
/-! DEFINITION. The conditional branches (spec/43_branches.md R200 to R207) and the jumps (spec/45_jumps.md R260 to
R263). -/

namespace Sys2Proof.Machine

/-- A branch on a condition of its two registers: the target is examined only when it is taken (R200, R201). -/
def branchOp (cond : Word → Word → Bool) (rs1 rs2 : Reg) (offset : BitVec 13) (s : State) : Result :=
  if cond (s.readReg rs1) (s.readReg rs2) then transfer s (branchTarget s offset) else .next s.advance

/-- A jump to `t` that links in `rd`: the alignment is tested before anything is written, and the target was computed from
the state before the link (R260, R262). -/
def jumpOp (rd : Reg) (t : Word) (s : State) : Result :=
  if aligned4 t then .next ((s.writeReg rd (s.pc + 4)).setPc t) else raise (.misalignedTarget t)

/-- R202 -/
def execBeq (rs1 rs2 : Reg) (offset : BitVec 13) (s : State) : Result := branchOp condEq rs1 rs2 offset s

/-- R203 -/
def execBne (rs1 rs2 : Reg) (offset : BitVec 13) (s : State) : Result := branchOp condNe rs1 rs2 offset s

/-- R204 -/
def execBlt (rs1 rs2 : Reg) (offset : BitVec 13) (s : State) : Result := branchOp condLt rs1 rs2 offset s

/-- R205 -/
def execBge (rs1 rs2 : Reg) (offset : BitVec 13) (s : State) : Result := branchOp condGe rs1 rs2 offset s

/-- R206 -/
def execBltu (rs1 rs2 : Reg) (offset : BitVec 13) (s : State) : Result := branchOp condLtu rs1 rs2 offset s

/-- R207 -/
def execBgeu (rs1 rs2 : Reg) (offset : BitVec 13) (s : State) : Result := branchOp condGeu rs1 rs2 offset s

/-- R261 -/
def execJal (rd : Reg) (offset : BitVec 21) (s : State) : Result := jumpOp rd (jalTarget s offset) s

/-- R263 -/
def execJalr (rd rs1 : Reg) (imm : BitVec 12) (s : State) : Result := jumpOp rd (jalrTarget s rs1 imm) s

end Sys2Proof.Machine
end

