-- ==== Sys2Proof/Machine/Loads.lean ====
section
/-! DEFINITION. The loads (spec/42_loads_stores.md R180 to R188). -/

namespace Sys2Proof.Machine

/-- A load of `n` bytes at the effective address, extended by `ext`; a load to `x0` still reads (R181). -/
def loadOp (n : Nat) (ext : Word → Word) (rd rs1 : Reg) (imm : BitVec 12) (s : State) : Result :=
  orRaise (memRead s.mem (effAddr s rs1 imm) n) fun v => retire s rd (ext v)

/-- R182 -/
def execLb (rd rs1 : Reg) (imm : BitVec 12) (s : State) : Result := loadOp 1 (sextN 8) rd rs1 imm s

/-- R183 -/
def execLh (rd rs1 : Reg) (imm : BitVec 12) (s : State) : Result := loadOp 2 (sextN 16) rd rs1 imm s

/-- R184 -/
def execLw (rd rs1 : Reg) (imm : BitVec 12) (s : State) : Result := loadOp 4 (sextN 32) rd rs1 imm s

/-- R185 -/
def execLd (rd rs1 : Reg) (imm : BitVec 12) (s : State) : Result := loadOp 8 id rd rs1 imm s

/-- R186 -/
def execLbu (rd rs1 : Reg) (imm : BitVec 12) (s : State) : Result := loadOp 1 (zextN 8) rd rs1 imm s

/-- R187 -/
def execLhu (rd rs1 : Reg) (imm : BitVec 12) (s : State) : Result := loadOp 2 (zextN 16) rd rs1 imm s

/-- R188 -/
def execLwu (rd rs1 : Reg) (imm : BitVec 12) (s : State) : Result := loadOp 4 (zextN 32) rd rs1 imm s

end Sys2Proof.Machine
end

