-- ==== Sys2Proof/Machine/MulDiv.lean ====
section
/-! DEFINITION. Multiply and divide (spec/46_muldiv.md R270 to R284). A divide or remainder tests its divisor, and the
overflow pair, before it uses the arithmetic unit (spec/40_arith_unit.md R137); none faults (R284). -/

namespace Sys2Proof.Machine

/-! ## The quotient and remainder an instruction delivers, at `W` bits -/

/-- Signed quotient: all ones for a zero divisor, `MIN` for the overflow pair (R274, R279). -/
def quotSigned {W : Nat} (a b : BitVec W) : BitVec W :=
  if b = 0 then ones W else if a = minSigned W ∧ b = ones W then minSigned W else auSdiv a b

/-- Unsigned quotient: all ones for a zero divisor (R275, R280). -/
def quotUnsigned {W : Nat} (a b : BitVec W) : BitVec W := if b = 0 then ones W else auDiv a b

/-- Signed remainder: the dividend for a zero divisor, 0 for the overflow pair (R276, R281). -/
def remSigned {W : Nat} (a b : BitVec W) : BitVec W :=
  if b = 0 then a else if a = minSigned W ∧ b = ones W then 0 else auSmod a b

/-- Unsigned remainder: the dividend for a zero divisor (R277, R282). -/
def remUnsigned {W : Nat} (a b : BitVec W) : BitVec W := if b = 0 then a else auMod a b

/-- `v[31:0]`, the operand of a 32-bit variant (R284). -/
def low32 (v : Word) : BitVec 32 := v.setWidth 32

/-- `sext_32` of a 32-bit result (R284). -/
def sext32 (v : BitVec 32) : Word := v.signExtend 64

/-! ## Multiplies -/

/-- R270 -/
def execMul (rd rs1 rs2 : Reg) (s : State) : Result :=
  retire s rd (auMul (s.readReg rs1) (s.readReg rs2))

/-- R271 -/
def execMulh (rd rs1 rs2 : Reg) (s : State) : Result :=
  retire s rd (highHalf ((s.readReg rs1).toInt * (s.readReg rs2).toInt))

/-- R272 -/
def execMulhsu (rd rs1 rs2 : Reg) (s : State) : Result :=
  retire s rd (highHalf ((s.readReg rs1).toInt * (s.readReg rs2).toNat))

/-- R273 -/
def execMulhu (rd rs1 rs2 : Reg) (s : State) : Result :=
  retire s rd (highHalf ((s.readReg rs1).toNat * (s.readReg rs2).toNat))

/-! ## Divides and remainders -/

/-- R274 -/
def execDiv (rd rs1 rs2 : Reg) (s : State) : Result :=
  retire s rd (quotSigned (s.readReg rs1) (s.readReg rs2))

/-- R275 -/
def execDivu (rd rs1 rs2 : Reg) (s : State) : Result :=
  retire s rd (quotUnsigned (s.readReg rs1) (s.readReg rs2))

/-- R276 -/
def execRem (rd rs1 rs2 : Reg) (s : State) : Result :=
  retire s rd (remSigned (s.readReg rs1) (s.readReg rs2))

/-- R277 -/
def execRemu (rd rs1 rs2 : Reg) (s : State) : Result :=
  retire s rd (remUnsigned (s.readReg rs1) (s.readReg rs2))

/-! ## 32-bit variants (OP-32) -/

/-- R278 -/
def execMulw (rd rs1 rs2 : Reg) (s : State) : Result :=
  retire s rd (sextN 32 (auMul (s.readReg rs1) (s.readReg rs2)))

/-- R279 -/
def execDivw (rd rs1 rs2 : Reg) (s : State) : Result :=
  retire s rd (sext32 (quotSigned (low32 (s.readReg rs1)) (low32 (s.readReg rs2))))

/-- R280 -/
def execDivuw (rd rs1 rs2 : Reg) (s : State) : Result :=
  retire s rd (sext32 (quotUnsigned (low32 (s.readReg rs1)) (low32 (s.readReg rs2))))

/-- R281 -/
def execRemw (rd rs1 rs2 : Reg) (s : State) : Result :=
  retire s rd (sext32 (remSigned (low32 (s.readReg rs1)) (low32 (s.readReg rs2))))

/-- R282 -/
def execRemuw (rd rs1 rs2 : Reg) (s : State) : Result :=
  retire s rd (sext32 (remUnsigned (low32 (s.readReg rs1)) (low32 (s.readReg rs2))))

end Sys2Proof.Machine
end

