-- ==== Sys2Proof/Machine/Stores.lean ====
section
/-! DEFINITION. The stores (spec/42_loads_stores.md R180, R181, R189 to R192). -/

namespace Sys2Proof.Machine

/-- A store of the low `n` bytes of `x[rs2]` at the effective address: all of them or, out of range, none (R181). -/
def storeOp (n : Nat) (rs2 rs1 : Reg) (imm : BitVec 12) (s : State) : Result :=
  orRaise (memWrite s.mem (effAddr s rs1 imm) n (s.readReg rs2)) fun m => .next { s with mem := m }.advance

/-- R189 -/
def execSb (rs2 rs1 : Reg) (imm : BitVec 12) (s : State) : Result := storeOp 1 rs2 rs1 imm s

/-- R190 -/
def execSh (rs2 rs1 : Reg) (imm : BitVec 12) (s : State) : Result := storeOp 2 rs2 rs1 imm s

/-- R191 -/
def execSw (rs2 rs1 : Reg) (imm : BitVec 12) (s : State) : Result := storeOp 4 rs2 rs1 imm s

/-- R192 -/
def execSd (rs2 rs1 : Reg) (imm : BitVec 12) (s : State) : Result := storeOp 8 rs2 rs1 imm s

end Sys2Proof.Machine
end

