-- ==== Sys2Proof/WellFormed.lean ====
section
/-! DEFINITION. Which terms of `Instr` have an encoding. Every field but two is as wide as the bits it is encoded in; a
branch offset and a JAL offset are encoded without their bit 0, so they must be multiples of 2 (spec/30_encoding.md R95,
R97: "bit 0 is 0"). -/

namespace Sys2Proof

/-- The branch offset is a multiple of 2 (R95). -/
def evenBranch (offset : BitVec 13) : Bool := offset.toNat % 2 == 0

/-- The JAL offset is a multiple of 2 (R97). -/
def evenJump (offset : BitVec 21) : Bool := offset.toNat % 2 == 0

/-- The instruction has an encoding. -/
def Instr.wellFormed : Instr → Bool
  | .beq _ _ o | .bne _ _ o | .blt _ _ o | .bge _ _ o | .bltu _ _ o | .bgeu _ _ o => evenBranch o
  | .jal _ o => evenJump o
  | _ => true

end Sys2Proof
end

