-- ==== Sys2Proof/Decode.lean ====
section
/-! DEFINITION. The instruction field decoder IDEC (spec/30_encoding.md R90 to R104), the command decoder (R107), and
after them the encoder written from the same tables. Decoding is total: what names no instruction is rejected by name. -/

namespace Sys2Proof

/-- Why something does not decode. -/
inductive DecodeReject where
  /-- no row of the opcode table matches the word (R101, R102) -/
  | unrecognized (w : IWord)
  /-- the code 0xA to 0xF names no command (R107) -/
  | badCommand (code : BitVec 4)
  /-- fewer than four bytes were given to read an instruction from -/
  | tooShort
  deriving DecidableEq, Repr

/-! ## Fields (R14, R91) -/

/-- `w[hi:lo]`, read as an unsigned integer (R14). -/
def bits (w : IWord) (hi lo : Nat) : Nat := w.toNat / 2 ^ lo % 2 ^ (hi - lo + 1)

def rdOf (w : IWord) : Reg := BitVec.ofNat 5 (bits w 11 7)
def rs1Of (w : IWord) : Reg := BitVec.ofNat 5 (bits w 19 15)
def rs2Of (w : IWord) : Reg := BitVec.ofNat 5 (bits w 24 20)

/-- The raw I-type immediate `w[31:20]` (R93). -/
def imm12Of (w : IWord) : BitVec 12 := BitVec.ofNat 12 (bits w 31 20)

/-- The S-type immediate before sign extension (R94). -/
def immSOf (w : IWord) : BitVec 12 := BitVec.ofNat 12 (bits w 31 25 * 32 + bits w 11 7)

/-- The B-type immediate before sign extension (R95). -/
def immBOf (w : IWord) : BitVec 13 :=
  BitVec.ofNat 13 (bits w 31 31 * 4096 + bits w 7 7 * 2048 + bits w 30 25 * 32 + bits w 11 8 * 2)

/-- The 20-bit field of the U-type immediate (R96). -/
def immUOf (w : IWord) : BitVec 20 := BitVec.ofNat 20 (bits w 31 12)

/-- The J-type immediate before sign extension (R97). -/
def immJOf (w : IWord) : BitVec 21 :=
  BitVec.ofNat 21 (bits w 31 31 * 1048576 + bits w 19 12 * 4096 + bits w 20 20 * 2048 + bits w 30 21 * 2)

/-- `shamt6` (R91, R98). -/
def shamt6Of (w : IWord) : BitVec 6 := BitVec.ofNat 6 (bits w 25 20)

/-- `shamt5` (R91, R98). -/
def shamt5Of (w : IWord) : BitVec 5 := BitVec.ofNat 5 (bits w 24 20)

/-! ## Minor codes (R100), one function for each major opcode -/

def decodeLoad (w : IWord) : Option Instr :=
  match bits w 14 12 with
  | 0 => some (.lb (rdOf w) (rs1Of w) (imm12Of w))
  | 1 => some (.lh (rdOf w) (rs1Of w) (imm12Of w))
  | 2 => some (.lw (rdOf w) (rs1Of w) (imm12Of w))
  | 3 => some (.ld (rdOf w) (rs1Of w) (imm12Of w))
  | 4 => some (.lbu (rdOf w) (rs1Of w) (imm12Of w))
  | 5 => some (.lhu (rdOf w) (rs1Of w) (imm12Of w))
  | 6 => some (.lwu (rdOf w) (rs1Of w) (imm12Of w))
  | _ => none

def decodeStore (w : IWord) : Option Instr :=
  match bits w 14 12 with
  | 0 => some (.sb (rs2Of w) (rs1Of w) (immSOf w))
  | 1 => some (.sh (rs2Of w) (rs1Of w) (immSOf w))
  | 2 => some (.sw (rs2Of w) (rs1Of w) (immSOf w))
  | 3 => some (.sd (rs2Of w) (rs1Of w) (immSOf w))
  | _ => none

def decodeBranch (w : IWord) : Option Instr :=
  match bits w 14 12 with
  | 0 => some (.beq (rs1Of w) (rs2Of w) (immBOf w))
  | 1 => some (.bne (rs1Of w) (rs2Of w) (immBOf w))
  | 4 => some (.blt (rs1Of w) (rs2Of w) (immBOf w))
  | 5 => some (.bge (rs1Of w) (rs2Of w) (immBOf w))
  | 6 => some (.bltu (rs1Of w) (rs2Of w) (immBOf w))
  | 7 => some (.bgeu (rs1Of w) (rs2Of w) (immBOf w))
  | _ => none

def decodeOpImm (w : IWord) : Option Instr :=
  match bits w 14 12 with
  | 0 => some (.addi (rdOf w) (rs1Of w) (imm12Of w))
  | 2 => some (.slti (rdOf w) (rs1Of w) (imm12Of w))
  | 3 => some (.sltiu (rdOf w) (rs1Of w) (imm12Of w))
  | 4 => some (.xori (rdOf w) (rs1Of w) (imm12Of w))
  | 6 => some (.ori (rdOf w) (rs1Of w) (imm12Of w))
  | 7 => some (.andi (rdOf w) (rs1Of w) (imm12Of w))
  | 1 =>
    match bits w 31 26 with
    | 0x00 => some (.slli (rdOf w) (rs1Of w) (shamt6Of w))
    | _ => none
  | 5 =>
    match bits w 31 26 with
    | 0x00 => some (.srli (rdOf w) (rs1Of w) (shamt6Of w))
    | 0x10 => some (.srai (rdOf w) (rs1Of w) (shamt6Of w))
    | _ => none
  | _ => none

def decodeOpImm32 (w : IWord) : Option Instr :=
  match bits w 14 12 with
  | 0 => some (.addiw (rdOf w) (rs1Of w) (imm12Of w))
  | 1 =>
    match bits w 31 25 with
    | 0x00 => some (.slliw (rdOf w) (rs1Of w) (shamt5Of w))
    | _ => none
  | 5 =>
    match bits w 31 25 with
    | 0x00 => some (.srliw (rdOf w) (rs1Of w) (shamt5Of w))
    | 0x20 => some (.sraiw (rdOf w) (rs1Of w) (shamt5Of w))
    | _ => none
  | _ => none

def decodeOp (w : IWord) : Option Instr :=
  match bits w 31 25 with
  | 0x00 =>
    match bits w 14 12 with
    | 0 => some (.add (rdOf w) (rs1Of w) (rs2Of w))
    | 1 => some (.sll (rdOf w) (rs1Of w) (rs2Of w))
    | 2 => some (.slt (rdOf w) (rs1Of w) (rs2Of w))
    | 3 => some (.sltu (rdOf w) (rs1Of w) (rs2Of w))
    | 4 => some (.xor (rdOf w) (rs1Of w) (rs2Of w))
    | 5 => some (.srl (rdOf w) (rs1Of w) (rs2Of w))
    | 6 => some (.or (rdOf w) (rs1Of w) (rs2Of w))
    | 7 => some (.and (rdOf w) (rs1Of w) (rs2Of w))
    | _ => none
  | 0x20 =>
    match bits w 14 12 with
    | 0 => some (.sub (rdOf w) (rs1Of w) (rs2Of w))
    | 5 => some (.sra (rdOf w) (rs1Of w) (rs2Of w))
    | _ => none
  | 0x01 =>
    match bits w 14 12 with
    | 0 => some (.mul (rdOf w) (rs1Of w) (rs2Of w))
    | 1 => some (.mulh (rdOf w) (rs1Of w) (rs2Of w))
    | 2 => some (.mulhsu (rdOf w) (rs1Of w) (rs2Of w))
    | 3 => some (.mulhu (rdOf w) (rs1Of w) (rs2Of w))
    | 4 => some (.div (rdOf w) (rs1Of w) (rs2Of w))
    | 5 => some (.divu (rdOf w) (rs1Of w) (rs2Of w))
    | 6 => some (.rem (rdOf w) (rs1Of w) (rs2Of w))
    | 7 => some (.remu (rdOf w) (rs1Of w) (rs2Of w))
    | _ => none
  | _ => none

def decodeOp32 (w : IWord) : Option Instr :=
  match bits w 31 25 with
  | 0x00 =>
    match bits w 14 12 with
    | 0 => some (.addw (rdOf w) (rs1Of w) (rs2Of w))
    | 1 => some (.sllw (rdOf w) (rs1Of w) (rs2Of w))
    | 5 => some (.srlw (rdOf w) (rs1Of w) (rs2Of w))
    | _ => none
  | 0x20 =>
    match bits w 14 12 with
    | 0 => some (.subw (rdOf w) (rs1Of w) (rs2Of w))
    | 5 => some (.sraw (rdOf w) (rs1Of w) (rs2Of w))
    | _ => none
  | 0x01 =>
    match bits w 14 12 with
    | 0 => some (.mulw (rdOf w) (rs1Of w) (rs2Of w))
    | 4 => some (.divw (rdOf w) (rs1Of w) (rs2Of w))
    | 5 => some (.divuw (rdOf w) (rs1Of w) (rs2Of w))
    | 6 => some (.remw (rdOf w) (rs1Of w) (rs2Of w))
    | 7 => some (.remuw (rdOf w) (rs1Of w) (rs2Of w))
    | _ => none
  | _ => none

def decodeJalr (w : IWord) : Option Instr :=
  match bits w 14 12 with
  | 0 => some (.jalr (rdOf w) (rs1Of w) (imm12Of w))
  | _ => none

/-- FENCE and FENCE.I keep the fields the machine ignores (R103). -/
def decodeMiscMem (w : IWord) : Option Instr :=
  match bits w 14 12 with
  | 0 => some (.fence (BitVec.ofNat 4 (bits w 31 28)) (BitVec.ofNat 4 (bits w 27 24))
           (BitVec.ofNat 4 (bits w 23 20)) (rs1Of w) (rdOf w))
  | 1 => some (.fenceI (imm12Of w) (rs1Of w) (rdOf w))
  | _ => none

/-- SYSTEM: two whole words (R100, R102 (f)). -/
def decodeSystem (w : IWord) : Option Instr :=
  if w = 0x00000073 then some .ecall else if w = 0x00100073 then some .ebreak else none

/-- Every word with the AMO opcode is the A slot (spec/47_atomics.md R290). -/
def decodeASlot (w : IWord) : Option Instr :=
  some (.aSlot (BitVec.ofNat 5 (bits w 31 27)) (BitVec.ofNat 1 (bits w 26 26)) (BitVec.ofNat 1 (bits w 25 25))
    (rs2Of w) (rs1Of w) (BitVec.ofNat 3 (bits w 14 12)) (rdOf w))

/-- The major opcodes (R99). -/
def decodeFields (w : IWord) : Option Instr :=
  match bits w 6 0 with
  | 0x03 => decodeLoad w
  | 0x0f => decodeMiscMem w
  | 0x13 => decodeOpImm w
  | 0x17 => some (.auipc (rdOf w) (immUOf w))
  | 0x1b => decodeOpImm32 w
  | 0x23 => decodeStore w
  | 0x2f => decodeASlot w
  | 0x33 => decodeOp w
  | 0x37 => some (.lui (rdOf w) (immUOf w))
  | 0x3b => decodeOp32 w
  | 0x63 => decodeBranch w
  | 0x67 => decodeJalr w
  | 0x6f => some (.jal (rdOf w) (immJOf w))
  | 0x73 => decodeSystem w
  | _ => none

/-- The decoder of instruction words (R101). -/
def decodeWord (w : IWord) : Except DecodeReject Instr :=
  match decodeFields w with
  | some i => .ok i
  | none => .error (.unrecognized w)

/-- An instruction word from its four bytes, lowest address first (R65: little-endian). -/
def wordOfBytes (b0 b1 b2 b3 : Byte) : IWord :=
  BitVec.ofNat 32 (b0.toNat + b1.toNat * 2 ^ 8 + b2.toNat * 2 ^ 16 + b3.toNat * 2 ^ 24)

/-- Decode the instruction at the head of a byte stream and give the rest of the stream. -/
def decodeBytes : List Byte → Except DecodeReject (Instr × List Byte)
  | b0 :: b1 :: b2 :: b3 :: rest =>
    match decodeWord (wordOfBytes b0 b1 b2 b3) with
    | .ok i => .ok (i, rest)
    | .error e => .error e
  | _ => .error .tooShort

/-! ## Commands (R107) -/

/-- The decoder of the command port: the code selects the command, the operand lines give its arguments. -/
def decodeRequest (r : PortRequest) : Except DecodeReject Instr :=
  match r.code.toNat with
  | 0x0 => .ok (.cmdRead r.addr r.len)
  | 0x1 => .ok (.cmdWrite r.addr r.bytes)
  | 0x2 => .ok .cmdRoot
  | 0x3 => .ok (.cmdProof r.addr)
  | 0x4 => .ok .cmdSerialize
  | 0x5 => .ok (.cmdDeserialize r.bytes)
  | 0x6 => .ok .cmdEncodeState
  | 0x7 => .ok (.cmdDecodeState r.bytes)
  | 0x8 => .ok .cmdStateHash
  | 0x9 => .ok (.cmdStep r.proofMode)
  | _ => .error (.badCommand r.code)

/-- The request with the given code and every operand line 0. -/
def bareRequest (code : BitVec 4) : PortRequest := ⟨code, 0, 0, [], false⟩

/-! ## The encoder -/

/-- What an instruction is encoded as: a word in memory, or a request at the port. -/
inductive Encoded where
  | word (w : IWord)
  | request (r : PortRequest)
  deriving DecidableEq, Repr

/-- Decode either form. -/
def decode : Encoded → Except DecodeReject Instr
  | .word w => decodeWord w
  | .request r => decodeRequest r

/-- R-type (R92). -/
def encR (funct7 : Nat) (rs2 rs1 : Reg) (funct3 : Nat) (rd : Reg) (opcode : Nat) : IWord :=
  BitVec.ofNat 32 (funct7 * 2 ^ 25 + rs2.toNat * 2 ^ 20 + rs1.toNat * 2 ^ 15 + funct3 * 2 ^ 12 + rd.toNat * 2 ^ 7
    + opcode)

/-- I-type (R92, R93). -/
def encI (imm : BitVec 12) (rs1 : Reg) (funct3 : Nat) (rd : Reg) (opcode : Nat) : IWord :=
  BitVec.ofNat 32 (imm.toNat * 2 ^ 20 + rs1.toNat * 2 ^ 15 + funct3 * 2 ^ 12 + rd.toNat * 2 ^ 7 + opcode)

/-- The 64-bit immediate shifts: `funct6` and `shamt6` in place of the immediate (R92). -/
def encShift6 (funct6 : Nat) (shamt : BitVec 6) (rs1 : Reg) (funct3 : Nat) (rd : Reg) (opcode : Nat) : IWord :=
  BitVec.ofNat 32 (funct6 * 2 ^ 26 + shamt.toNat * 2 ^ 20 + rs1.toNat * 2 ^ 15 + funct3 * 2 ^ 12 + rd.toNat * 2 ^ 7
    + opcode)

/-- S-type: `imm[11:5]` in 31:25, `imm[4:0]` in 11:7 (R92, R94). -/
def encS (imm : BitVec 12) (rs2 rs1 : Reg) (funct3 : Nat) (opcode : Nat) : IWord :=
  BitVec.ofNat 32 (imm.toNat / 32 * 2 ^ 25 + rs2.toNat * 2 ^ 20 + rs1.toNat * 2 ^ 15 + funct3 * 2 ^ 12
    + imm.toNat % 32 * 2 ^ 7 + opcode)

/-- B-type: `imm[12]`, `imm[10:5]` in 31:25, `imm[4:1]`, `imm[11]` in 11:7 (R92, R95). -/
def encB (imm : BitVec 13) (rs2 rs1 : Reg) (funct3 : Nat) (opcode : Nat) : IWord :=
  BitVec.ofNat 32 (imm.toNat / 4096 * 2 ^ 31 + imm.toNat / 32 % 64 * 2 ^ 25 + rs2.toNat * 2 ^ 20 + rs1.toNat * 2 ^ 15
    + funct3 * 2 ^ 12 + imm.toNat / 2 % 16 * 2 ^ 8 + imm.toNat / 2048 % 2 * 2 ^ 7 + opcode)

/-- U-type (R92, R96). -/
def encU (imm : BitVec 20) (rd : Reg) (opcode : Nat) : IWord :=
  BitVec.ofNat 32 (imm.toNat * 2 ^ 12 + rd.toNat * 2 ^ 7 + opcode)

/-- J-type: `imm[20]`, `imm[10:1]`, `imm[11]`, `imm[19:12]` from bit 31 down to bit 12 (R92, R97). -/
def encJ (imm : BitVec 21) (rd : Reg) (opcode : Nat) : IWord :=
  BitVec.ofNat 32 (imm.toNat / 1048576 * 2 ^ 31 + imm.toNat / 2 % 1024 * 2 ^ 21 + imm.toNat / 2048 % 2 * 2 ^ 20
    + imm.toNat / 4096 % 256 * 2 ^ 12 + rd.toNat * 2 ^ 7 + opcode)

/-- FENCE: `fm`, `pred`, `succ` in the immediate's place (spec/48_system.md R317). -/
def encFence (fm pred succ : BitVec 4) (rs1 rd : Reg) : IWord :=
  BitVec.ofNat 32 (fm.toNat * 2 ^ 28 + pred.toNat * 2 ^ 24 + succ.toNat * 2 ^ 20 + rs1.toNat * 2 ^ 15 + 0 * 2 ^ 12
    + rd.toNat * 2 ^ 7 + 0x0f)

/-- A word of the A slot from its fields (spec/opcode_table.json, row A-SLOT). -/
def encASlot (funct5 : BitVec 5) (aq rl : BitVec 1) (rs2 rs1 : Reg) (funct3 : BitVec 3) (rd : Reg) : IWord :=
  BitVec.ofNat 32 (funct5.toNat * 2 ^ 27 + aq.toNat * 2 ^ 26 + rl.toNat * 2 ^ 25 + rs2.toNat * 2 ^ 20
    + rs1.toNat * 2 ^ 15 + funct3.toNat * 2 ^ 12 + rd.toNat * 2 ^ 7 + 0x2f)

/-- The encoding of an instruction (R99, R100) or a command (R107). -/
def encode : Instr → Encoded
  | .lb rd rs1 imm => .word (encI imm rs1 0 rd 0x03)
  | .lh rd rs1 imm => .word (encI imm rs1 1 rd 0x03)
  | .lw rd rs1 imm => .word (encI imm rs1 2 rd 0x03)
  | .ld rd rs1 imm => .word (encI imm rs1 3 rd 0x03)
  | .lbu rd rs1 imm => .word (encI imm rs1 4 rd 0x03)
  | .lhu rd rs1 imm => .word (encI imm rs1 5 rd 0x03)
  | .lwu rd rs1 imm => .word (encI imm rs1 6 rd 0x03)
  | .sb rs2 rs1 imm => .word (encS imm rs2 rs1 0 0x23)
  | .sh rs2 rs1 imm => .word (encS imm rs2 rs1 1 0x23)
  | .sw rs2 rs1 imm => .word (encS imm rs2 rs1 2 0x23)
  | .sd rs2 rs1 imm => .word (encS imm rs2 rs1 3 0x23)
  | .beq rs1 rs2 o => .word (encB o rs2 rs1 0 0x63)
  | .bne rs1 rs2 o => .word (encB o rs2 rs1 1 0x63)
  | .blt rs1 rs2 o => .word (encB o rs2 rs1 4 0x63)
  | .bge rs1 rs2 o => .word (encB o rs2 rs1 5 0x63)
  | .bltu rs1 rs2 o => .word (encB o rs2 rs1 6 0x63)
  | .bgeu rs1 rs2 o => .word (encB o rs2 rs1 7 0x63)
  | .addi rd rs1 imm => .word (encI imm rs1 0 rd 0x13)
  | .slti rd rs1 imm => .word (encI imm rs1 2 rd 0x13)
  | .sltiu rd rs1 imm => .word (encI imm rs1 3 rd 0x13)
  | .xori rd rs1 imm => .word (encI imm rs1 4 rd 0x13)
  | .ori rd rs1 imm => .word (encI imm rs1 6 rd 0x13)
  | .andi rd rs1 imm => .word (encI imm rs1 7 rd 0x13)
  | .slli rd rs1 sh => .word (encShift6 0x00 sh rs1 1 rd 0x13)
  | .srli rd rs1 sh => .word (encShift6 0x00 sh rs1 5 rd 0x13)
  | .srai rd rs1 sh => .word (encShift6 0x10 sh rs1 5 rd 0x13)
  | .add rd rs1 rs2 => .word (encR 0x00 rs2 rs1 0 rd 0x33)
  | .sub rd rs1 rs2 => .word (encR 0x20 rs2 rs1 0 rd 0x33)
  | .sll rd rs1 rs2 => .word (encR 0x00 rs2 rs1 1 rd 0x33)
  | .slt rd rs1 rs2 => .word (encR 0x00 rs2 rs1 2 rd 0x33)
  | .sltu rd rs1 rs2 => .word (encR 0x00 rs2 rs1 3 rd 0x33)
  | .srl rd rs1 rs2 => .word (encR 0x00 rs2 rs1 5 rd 0x33)
  | .sra rd rs1 rs2 => .word (encR 0x20 rs2 rs1 5 rd 0x33)
  | .xor rd rs1 rs2 => .word (encR 0x00 rs2 rs1 4 rd 0x33)
  | .or rd rs1 rs2 => .word (encR 0x00 rs2 rs1 6 rd 0x33)
  | .and rd rs1 rs2 => .word (encR 0x00 rs2 rs1 7 rd 0x33)
  | .addiw rd rs1 imm => .word (encI imm rs1 0 rd 0x1b)
  | .slliw rd rs1 sh => .word (encR 0x00 sh rs1 1 rd 0x1b)
  | .srliw rd rs1 sh => .word (encR 0x00 sh rs1 5 rd 0x1b)
  | .sraiw rd rs1 sh => .word (encR 0x20 sh rs1 5 rd 0x1b)
  | .addw rd rs1 rs2 => .word (encR 0x00 rs2 rs1 0 rd 0x3b)
  | .subw rd rs1 rs2 => .word (encR 0x20 rs2 rs1 0 rd 0x3b)
  | .sllw rd rs1 rs2 => .word (encR 0x00 rs2 rs1 1 rd 0x3b)
  | .srlw rd rs1 rs2 => .word (encR 0x00 rs2 rs1 5 rd 0x3b)
  | .sraw rd rs1 rs2 => .word (encR 0x20 rs2 rs1 5 rd 0x3b)
  | .lui rd imm => .word (encU imm rd 0x37)
  | .auipc rd imm => .word (encU imm rd 0x17)
  | .jal rd o => .word (encJ o rd 0x6f)
  | .jalr rd rs1 imm => .word (encI imm rs1 0 rd 0x67)
  | .mul rd rs1 rs2 => .word (encR 0x01 rs2 rs1 0 rd 0x33)
  | .mulh rd rs1 rs2 => .word (encR 0x01 rs2 rs1 1 rd 0x33)
  | .mulhsu rd rs1 rs2 => .word (encR 0x01 rs2 rs1 2 rd 0x33)
  | .mulhu rd rs1 rs2 => .word (encR 0x01 rs2 rs1 3 rd 0x33)
  | .div rd rs1 rs2 => .word (encR 0x01 rs2 rs1 4 rd 0x33)
  | .divu rd rs1 rs2 => .word (encR 0x01 rs2 rs1 5 rd 0x33)
  | .rem rd rs1 rs2 => .word (encR 0x01 rs2 rs1 6 rd 0x33)
  | .remu rd rs1 rs2 => .word (encR 0x01 rs2 rs1 7 rd 0x33)
  | .mulw rd rs1 rs2 => .word (encR 0x01 rs2 rs1 0 rd 0x3b)
  | .divw rd rs1 rs2 => .word (encR 0x01 rs2 rs1 4 rd 0x3b)
  | .divuw rd rs1 rs2 => .word (encR 0x01 rs2 rs1 5 rd 0x3b)
  | .remw rd rs1 rs2 => .word (encR 0x01 rs2 rs1 6 rd 0x3b)
  | .remuw rd rs1 rs2 => .word (encR 0x01 rs2 rs1 7 rd 0x3b)
  | .ecall => .word 0x00000073
  | .ebreak => .word 0x00100073
  | .fence fm pred succ rs1 rd => .word (encFence fm pred succ rs1 rd)
  | .fenceI imm rs1 rd => .word (encI imm rs1 1 rd 0x0f)
  | .aSlot f5 aq rl rs2 rs1 f3 rd => .word (encASlot f5 aq rl rs2 rs1 f3 rd)
  | .cmdRead addr len => .request ⟨0x0, addr, len, [], false⟩
  | .cmdWrite addr bytes => .request ⟨0x1, addr, 0, bytes, false⟩
  | .cmdRoot => .request (bareRequest 0x2)
  | .cmdProof addr => .request ⟨0x3, addr, 0, [], false⟩
  | .cmdSerialize => .request (bareRequest 0x4)
  | .cmdDeserialize bytes => .request ⟨0x5, 0, 0, bytes, false⟩
  | .cmdEncodeState => .request (bareRequest 0x6)
  | .cmdDecodeState bytes => .request ⟨0x7, 0, 0, bytes, false⟩
  | .cmdStateHash => .request (bareRequest 0x8)
  | .cmdStep proofMode => .request ⟨0x9, 0, 0, [], proofMode⟩

/-! ## The opcode table (R101)

The decoder above is a decision tree; the table below is the form in which R101 states it. -/

/-- A row of spec/opcode_table.json: a word `w` is the row's when `w and mask = match`. -/
structure Row where
  mnemonic : String
  pattern : IWord
  mask : IWord
  deriving DecidableEq, Repr

/-- The row matches the word (R101). -/
def Row.matchesWord (r : Row) (w : IWord) : Bool := w &&& r.mask == r.pattern

def rowsLoads : List Row :=
  [⟨"LB", 0x00000003, 0x0000707f⟩,
   ⟨"LH", 0x00001003, 0x0000707f⟩,
   ⟨"LW", 0x00002003, 0x0000707f⟩,
   ⟨"LD", 0x00003003, 0x0000707f⟩,
   ⟨"LBU", 0x00004003, 0x0000707f⟩,
   ⟨"LHU", 0x00005003, 0x0000707f⟩,
   ⟨"LWU", 0x00006003, 0x0000707f⟩]

def rowsStores : List Row :=
  [⟨"SB", 0x00000023, 0x0000707f⟩,
   ⟨"SH", 0x00001023, 0x0000707f⟩,
   ⟨"SW", 0x00002023, 0x0000707f⟩,
   ⟨"SD", 0x00003023, 0x0000707f⟩]

def rowsBranches : List Row :=
  [⟨"BEQ", 0x00000063, 0x0000707f⟩,
   ⟨"BNE", 0x00001063, 0x0000707f⟩,
   ⟨"BLT", 0x00004063, 0x0000707f⟩,
   ⟨"BGE", 0x00005063, 0x0000707f⟩,
   ⟨"BLTU", 0x00006063, 0x0000707f⟩,
   ⟨"BGEU", 0x00007063, 0x0000707f⟩]

def rowsOpImm : List Row :=
  [⟨"ADDI", 0x00000013, 0x0000707f⟩,
   ⟨"SLTI", 0x00002013, 0x0000707f⟩,
   ⟨"SLTIU", 0x00003013, 0x0000707f⟩,
   ⟨"XORI", 0x00004013, 0x0000707f⟩,
   ⟨"ORI", 0x00006013, 0x0000707f⟩,
   ⟨"ANDI", 0x00007013, 0x0000707f⟩,
   ⟨"SLLI", 0x00001013, 0xfc00707f⟩,
   ⟨"SRLI", 0x00005013, 0xfc00707f⟩,
   ⟨"SRAI", 0x40005013, 0xfc00707f⟩]

def rowsOp : List Row :=
  [⟨"ADD", 0x00000033, 0xfe00707f⟩,
   ⟨"SUB", 0x40000033, 0xfe00707f⟩,
   ⟨"SLL", 0x00001033, 0xfe00707f⟩,
   ⟨"SLT", 0x00002033, 0xfe00707f⟩,
   ⟨"SLTU", 0x00003033, 0xfe00707f⟩,
   ⟨"SRL", 0x00005033, 0xfe00707f⟩,
   ⟨"SRA", 0x40005033, 0xfe00707f⟩,
   ⟨"XOR", 0x00004033, 0xfe00707f⟩,
   ⟨"OR", 0x00006033, 0xfe00707f⟩,
   ⟨"AND", 0x00007033, 0xfe00707f⟩]

def rowsOp32 : List Row :=
  [⟨"ADDIW", 0x0000001b, 0x0000707f⟩,
   ⟨"SLLIW", 0x0000101b, 0xfe00707f⟩,
   ⟨"SRLIW", 0x0000501b, 0xfe00707f⟩,
   ⟨"SRAIW", 0x4000501b, 0xfe00707f⟩,
   ⟨"ADDW", 0x0000003b, 0xfe00707f⟩,
   ⟨"SUBW", 0x4000003b, 0xfe00707f⟩,
   ⟨"SLLW", 0x0000103b, 0xfe00707f⟩,
   ⟨"SRLW", 0x0000503b, 0xfe00707f⟩,
   ⟨"SRAW", 0x4000503b, 0xfe00707f⟩]

def rowsJumps : List Row :=
  [⟨"LUI", 0x00000037, 0x0000007f⟩,
   ⟨"AUIPC", 0x00000017, 0x0000007f⟩,
   ⟨"JAL", 0x0000006f, 0x0000007f⟩,
   ⟨"JALR", 0x00000067, 0x0000707f⟩]

def rowsMulDiv : List Row :=
  [⟨"MUL", 0x02000033, 0xfe00707f⟩,
   ⟨"MULH", 0x02001033, 0xfe00707f⟩,
   ⟨"MULHSU", 0x02002033, 0xfe00707f⟩,
   ⟨"MULHU", 0x02003033, 0xfe00707f⟩,
   ⟨"DIV", 0x02004033, 0xfe00707f⟩,
   ⟨"DIVU", 0x02005033, 0xfe00707f⟩,
   ⟨"REM", 0x02006033, 0xfe00707f⟩,
   ⟨"REMU", 0x02007033, 0xfe00707f⟩]

def rowsMulDivW : List Row :=
  [⟨"MULW", 0x0200003b, 0xfe00707f⟩,
   ⟨"DIVW", 0x0200403b, 0xfe00707f⟩,
   ⟨"DIVUW", 0x0200503b, 0xfe00707f⟩,
   ⟨"REMW", 0x0200603b, 0xfe00707f⟩,
   ⟨"REMUW", 0x0200703b, 0xfe00707f⟩]

def rowsSystem : List Row :=
  [⟨"ECALL", 0x00000073, 0xffffffff⟩,
   ⟨"EBREAK", 0x00100073, 0xffffffff⟩,
   ⟨"FENCE", 0x0000000f, 0x0000707f⟩,
   ⟨"FENCE.I", 0x0000100f, 0x0000707f⟩,
   ⟨"A-SLOT", 0x0000002f, 0x0000007f⟩]

/-- The instruction rows of spec/opcode_table.json (R101), family by family. -/
def rows : List Row :=
  rowsLoads ++ rowsStores ++ rowsBranches ++ rowsOpImm ++ rowsOp ++ rowsOp32 ++ rowsJumps ++ rowsMulDiv ++ rowsMulDivW ++ rowsSystem

/-- Two rows claim no word in common: some bit both masks test is required to differ. -/
def Row.disjoint (r t : Row) : Bool := (r.pattern ^^^ t.pattern) &&& (r.mask &&& t.mask) != 0

/-- The mnemonic of an instruction or command in spec/opcode_table.json. -/
def mnemonicOf : Instr → String
  | .lb _ _ _ => "LB"
  | .lh _ _ _ => "LH"
  | .lw _ _ _ => "LW"
  | .ld _ _ _ => "LD"
  | .lbu _ _ _ => "LBU"
  | .lhu _ _ _ => "LHU"
  | .lwu _ _ _ => "LWU"
  | .sb _ _ _ => "SB"
  | .sh _ _ _ => "SH"
  | .sw _ _ _ => "SW"
  | .sd _ _ _ => "SD"
  | .beq _ _ _ => "BEQ"
  | .bne _ _ _ => "BNE"
  | .blt _ _ _ => "BLT"
  | .bge _ _ _ => "BGE"
  | .bltu _ _ _ => "BLTU"
  | .bgeu _ _ _ => "BGEU"
  | .addi _ _ _ => "ADDI"
  | .slti _ _ _ => "SLTI"
  | .sltiu _ _ _ => "SLTIU"
  | .xori _ _ _ => "XORI"
  | .ori _ _ _ => "ORI"
  | .andi _ _ _ => "ANDI"
  | .slli _ _ _ => "SLLI"
  | .srli _ _ _ => "SRLI"
  | .srai _ _ _ => "SRAI"
  | .add _ _ _ => "ADD"
  | .sub _ _ _ => "SUB"
  | .sll _ _ _ => "SLL"
  | .slt _ _ _ => "SLT"
  | .sltu _ _ _ => "SLTU"
  | .srl _ _ _ => "SRL"
  | .sra _ _ _ => "SRA"
  | .xor _ _ _ => "XOR"
  | .or _ _ _ => "OR"
  | .and _ _ _ => "AND"
  | .addiw _ _ _ => "ADDIW"
  | .slliw _ _ _ => "SLLIW"
  | .srliw _ _ _ => "SRLIW"
  | .sraiw _ _ _ => "SRAIW"
  | .addw _ _ _ => "ADDW"
  | .subw _ _ _ => "SUBW"
  | .sllw _ _ _ => "SLLW"
  | .srlw _ _ _ => "SRLW"
  | .sraw _ _ _ => "SRAW"
  | .lui _ _ => "LUI"
  | .auipc _ _ => "AUIPC"
  | .jal _ _ => "JAL"
  | .jalr _ _ _ => "JALR"
  | .mul _ _ _ => "MUL"
  | .mulh _ _ _ => "MULH"
  | .mulhsu _ _ _ => "MULHSU"
  | .mulhu _ _ _ => "MULHU"
  | .div _ _ _ => "DIV"
  | .divu _ _ _ => "DIVU"
  | .rem _ _ _ => "REM"
  | .remu _ _ _ => "REMU"
  | .mulw _ _ _ => "MULW"
  | .divw _ _ _ => "DIVW"
  | .divuw _ _ _ => "DIVUW"
  | .remw _ _ _ => "REMW"
  | .remuw _ _ _ => "REMUW"
  | .ecall => "ECALL"
  | .ebreak => "EBREAK"
  | .fence _ _ _ _ _ => "FENCE"
  | .fenceI _ _ _ => "FENCE.I"
  | .aSlot _ _ _ _ _ _ _ => "A-SLOT"
  | .cmdRead _ _ => "READ"
  | .cmdWrite _ _ => "WRITE"
  | .cmdRoot => "ROOT"
  | .cmdProof _ => "PROOF"
  | .cmdSerialize => "SERIALIZE"
  | .cmdDeserialize _ => "DESERIALIZE"
  | .cmdEncodeState => "ENCODE_STATE"
  | .cmdDecodeState _ => "DECODE_STATE"
  | .cmdStateHash => "STATE_HASH"
  | .cmdStep _ => "STEP"

/-! ## The host's view of the opcode table -/

/-- Byte `k` of a table word, bit 0 the least significant bit of the first byte. -/
def tableByte (w k : Nat) : Byte := BitVec.ofNat 8 (w / 2 ^ (8 * k))

/-- A table word of at most 16 bits is a row of the command port: its low four bits are the command code, and the operand
lines, to which the table gives no bits, are 0. -/
def tableRequest (w : Nat) : PortRequest := bareRequest (BitVec.ofNat 4 w)

/-- The instruction the decoder reads from a table word of `nbits` bits: a command code of the port (R107), or the four
bytes of an instruction word in memory order (R65). -/
def decodeTableWord (nbits w : Nat) : Option Instr :=
  if nbits ≤ 16 then
    match decodeRequest (tableRequest w) with
    | .ok i => some i
    | .error _ => none
  else
    match decodeBytes [tableByte w 0, tableByte w 1, tableByte w 2, tableByte w 3] with
    | .ok (i, _) => some i
    | .error _ => none

end Sys2Proof
end

