-- ==== Sys2Proof/Machine/Syscalls.lean ====
section
/-! DEFINITION. The syscall table that ECALL dispatches to (spec/48_system.md R300 to R316). The parameters of the
table (R308, R309, R315) and the oracle (spec/00_scope.md R12) are arguments; the machine passes `syscallDefaults` and
`Config.oracle`. All of a7, a0, a1, a2 are read before anything is written (R301). -/

namespace Sys2Proof.Machine

/-! ## The register convention (R300; numbering of spec/10_state.md R22) -/

def a0 : Reg := 10
def a1 : Reg := 11
def a2 : Reg := 12
def a7 : Reg := 17

/-- A syscall that returns: `a0` the result, `a1` the error code, 0 for none, and `pc + 4` (R300). -/
def sysReturn (s : State) (value err : Word) : Result := .next ((s.writeReg a0 value).writeReg a1 err).advance

/-- `-1` and `ERR_BADF` for a descriptor that is not legal for the call (R309). -/
def sysBadDescriptor (params : SyscallParams) (s : State) : Result := sysReturn s (ones 64) params.badf

/-! ## exit, brk, mmap -/

/-- `exit` and `exit_group` (R305): the code is the low byte of `a0`; no general register is written. -/
def sysExit (s : State) : Result :=
  .next { s with exitCode := (s.readReg a0).setWidth 8, exited := true }.advance

/-- `brk` (R307). -/
def sysBrk (s : State) : Result := sysReturn s Config.brkValue 0

/-- `mmap` (R308): with no hint the heap pointer is bumped, otherwise the hint is honoured verbatim. -/
def sysMmap (params : SyscallParams) (s : State) : Result :=
  if s.readReg a0 = 0 then
    let heap := s.heap + params.round (s.readReg a1)
    sysReturn { s with heap := heap } (if params.returnsNew then heap else s.heap) 0
  else sysReturn s (s.readReg a0) 0

/-! ## read and write -/

/-- How many of `count` bytes fit between `addr` and the end of its 32-byte leaf (R311, R313). -/
def leafClamp (addr count : Word) : Nat := min count.toNat (32 - addr.toNat % 32)

/-- The value of the length prefix: the length, where 64 bits hold it (R311; log entry 17). -/
def lengthWord (n : Nat) : Word := if n < 2 ^ 64 then BitVec.ofNat 64 n else Config.longPrefix n

/-- A preimage with its 8-byte big-endian length prefix (R311). -/
def prefixed (p : List Byte) : List Byte := be64 (lengthWord p.length) ++ p

/-- How many bytes a preimage read of `V` delivers (R311). -/
def preimageCount (s : State) (v : List Byte) : Nat :=
  min (leafClamp (s.readReg a1) (s.readReg a2)) (v.length - s.preimageOffset.toNat)

/-- `read` on preimage-read (R311): the oracle's failure is tested before the offset. -/
def sysPreimageRead (oracle : OracleFn) (s : State) : Result :=
  match oracle s.preimageKey with
  | .fail r => raise (.oracleError s.preimageKey s.preimageOffset r)
  | .preimage p =>
    if (prefixed p).length < s.preimageOffset.toNat then
      raise (.oracleError s.preimageKey s.preimageOffset .offsetBeyondValue)
    else
      let n := preimageCount s (prefixed p)
      orRaise (memSetBytes s.mem (s.readReg a1) (((prefixed p).drop s.preimageOffset.toNat).take n)) fun m =>
        sysReturn { s with mem := m, preimageOffset := s.preimageOffset + BitVec.ofNat 64 n } (BitVec.ofNat 64 n) 0

/-- `write` on preimage-write (R313): the key is a 32-byte shift register. -/
def sysKeyWrite (s : State) : Result :=
  let n := leafClamp (s.readReg a1) (s.readReg a2)
  orRaise (memBytes s.mem (s.readReg a1) n) fun d =>
    sysReturn { s with preimageKey := bytes32 ((s.preimageKey.toList ++ d).drop n), preimageOffset := 0 }
      (BitVec.ofNat 64 n) 0

/-- `write` on stdout, stderr or hint-write (R314): all the bytes are emitted, or none. -/
def sysEmit (s : State) : Result :=
  orRaise (memBytes s.mem (s.readReg a1) (s.readReg a2).toNat) fun d =>
    sysReturn { s with output := s.output ++ [⟨s.readReg a0, d⟩] } (s.readReg a2) 0

/-- `read` (R310, R312): stdin is at end of file, hint-read acknowledges the whole count. -/
def sysRead (params : SyscallParams) (oracle : OracleFn) (s : State) : Result :=
  if s.readReg a0 = 0 then sysReturn s 0 0
  else if s.readReg a0 = 3 then sysReturn s (s.readReg a2) 0
  else if s.readReg a0 = 5 then sysPreimageRead oracle s
  else sysBadDescriptor params s

/-- `write` (R314). -/
def sysWrite (params : SyscallParams) (s : State) : Result :=
  if s.readReg a0 = 1 ∨ s.readReg a0 = 2 ∨ s.readReg a0 = 4 then sysEmit s
  else if s.readReg a0 = 6 then sysKeyWrite s
  else sysBadDescriptor params s

/-! ## Dispatch (R301) -/

/-- The service ECALL performs: the whole of `a7` is compared; an unrecognised number is fatal (R316). -/
def syscall (params : SyscallParams) (oracle : OracleFn) (s : State) : Result :=
  if s.readReg a7 = 93 ∨ s.readReg a7 = 94 then sysExit s
  else if s.readReg a7 = 214 then sysBrk s
  else if s.readReg a7 = 222 then sysMmap params s
  else if s.readReg a7 = 63 then sysRead params oracle s
  else if s.readReg a7 = 64 then sysWrite params s
  else if s.readReg a7 ∈ params.noop then sysReturn s 0 0
  else raise (.unsupportedSyscall (s.readReg a7))

end Sys2Proof.Machine
end

