-- ==== Sys2Proof/Machine/System.lean ====
section
/-! DEFINITION. ECALL, EBREAK, FENCE, FENCE.I (spec/48_system.md R300, R317 to R319) and the A-extension slot
(spec/47_atomics.md R290). -/

namespace Sys2Proof.Machine

/-- R300, R301: the hardware performs the service itself. -/
def execEcall (s : State) : Result := syscall syscallDefaults Config.oracle s

/-- R319: a no-op. -/
def execEbreak (s : State) : Result := .next s.advance

/-- R317: a no-op whatever its fields. -/
def execFence (_fm _pred _succ : BitVec 4) (_rs1 _rd : Reg) (s : State) : Result := .next s.advance

/-- R318: a no-op whatever its fields. -/
def execFenceI (_imm : BitVec 12) (_rs1 _rd : Reg) (s : State) : Result := .next s.advance

/-- R290: always `UnimplementedAtomic(w)`; no field is examined. -/
def execASlot (funct5 : BitVec 5) (aq rl : BitVec 1) (rs2 rs1 : Reg) (funct3 : BitVec 3) (rd : Reg) (_s : State) :
    Result :=
  raise (.unimplementedAtomic (encASlot funct5 aq rl rs2 rs1 funct3 rd))

end Sys2Proof.Machine
end

