-- ==== Sys2Proof/Machine/Merkle.lean ====
section
/-! DEFINITION. The commitment tree (spec/20_memory.md R52 to R61): leaves, zero hashes, node values by gindex, the root,
proofs and the fold a verifier performs. The hash function is an argument throughout (R11); the machine passes
`Config.hash`.

A subtree with no listed byte is answered by its zero hash and not walked ("absent pages never need to be materialized",
R57), which makes the value computable; that it is the value R55 defines is stated in Certificates/Slice0/Obligations.lean
(log entry 16). -/

namespace Sys2Proof.Machine

/-- `leaf(i)`: byte `k` is the byte at address `32 * i + k` (R52). -/
def leafValue (m : Memory) (i : Nat) : Bytes32 := Vector.ofFn fun k : Fin 32 => m.byte (32 * i + k.val)

/-- The branch value of two children, the left one hashed first (R55). -/
def branch (H : HashFn) (l r : Bytes32) : Bytes32 := H (l.toList ++ r.toList)

/-- `zeroHashes[h]`, indexed by the height above the leaves (R57). -/
def zeroHash (H : HashFn) : Nat → Bytes32
  | 0 => Vector.replicate 32 0
  | h + 1 => let z := zeroHash H h; branch H z z

/-- Some byte that is not 0 lies under node number `i` of height `h`. -/
def hasData (m : Memory) (h i : Nat) : Bool := m.cells.any fun c => c.1 / (32 * 2 ^ h) == i

/-- The value of node number `i` at height `h` above the leaves. -/
def subtree (H : HashFn) (m : Memory) : Nat → Nat → Bytes32
  | 0, i => leafValue m i
  | h + 1, i =>
    if hasData m (h + 1) i then branch H (subtree H m h (2 * i)) (subtree H m h (2 * i + 1))
    else zeroHash H (h + 1)

/-- `node(g)`: depth `d` is the position of the top bit of `g`, the height is `59 - d` (R54). -/
def node (H : HashFn) (m : Memory) (g : Nat) : Bytes32 :=
  subtree H m (Config.treeDepth - g.log2) (g - 2 ^ g.log2)

/-- The node-addressed interface: a gindex 0 or of `2^60` and above names no node (R54, spec/60_exceptions.md R409). No
command of the port takes a gindex (spec/41_engine_commands.md R172). -/
def nodeAt (H : HashFn) (m : Memory) (g : Nat) : Except Fault Bytes32 :=
  if g = 0 ∨ 2 ^ 60 ≤ g then .error (.gindexTooDeep g) else .ok (node H m g)

/-- `ROOT(mem) = node(1)` (R58). -/
def root (H : HashFn) (m : Memory) : Bytes32 := node H m 1

/-- The gindex of the leaf of an address (R54, R60). -/
def leafGindex (a : Word) : Nat := 2 ^ 59 + a.toNat / 32

/-- `proof(a)[j]`, the sibling at height `j` on the path of `a` (R60). -/
def proofSibling (H : HashFn) (m : Memory) (a : Word) (j : Nat) : Bytes32 :=
  node H m (leafGindex a / 2 ^ j ^^^ 1)

/-- `proof(a)`: 59 siblings, leaf end first (R60). -/
def proofOf (H : HashFn) (m : Memory) (a : Word) : List Bytes32 :=
  (List.range Config.treeDepth).map (proofSibling H m a)

/-- The output of `PROOF`: the siblings in order, after the leaf itself where the parameter asks for it
(spec/41_engine_commands.md R166). -/
def proofBytes (H : HashFn) (m : Memory) (a : Word) : List Byte :=
  (if proofLeafIncluded then (leafValue m (a.toNat / 32)).toList else []) ++
    (proofOf H m a).flatMap fun d => d.toList

/-- The verifier's fold over the siblings from height `j` up: bit `j` of the leaf number selects the side (R61). -/
def foldFrom (H : HashFn) (leaf : Nat) : Nat → Bytes32 → List Bytes32 → Bytes32
  | _, acc, [] => acc
  | j, acc, p :: ps =>
    foldFrom H leaf (j + 1) (if leaf.testBit j then branch H p acc else branch H acc p) ps

/-- `fold(a, leafValue, p)` (R61). -/
def foldProof (H : HashFn) (a : Word) (leaf : Bytes32) (p : List Bytes32) : Bytes32 :=
  foldFrom H (a.toNat / 32) 0 leaf p

end Sys2Proof.Machine
end

