-- ==== Sys2Proof/Machine/Codec.lean ====
section
/-! DEFINITION. The state codec (spec/49_step_codec_witness.md R350 to R353), the derived `status` (spec/10_state.md R35)
and the serialization of the memory (spec/41_engine_commands.md R168, R170). -/

namespace Sys2Proof.Machine

/-! ## The state encoding -/

/-- `ENCODE_STATE()`: 362 bytes, big-endian fields in fixed order (R350). -/
def encodeState (H : HashFn) (s : State) : List Byte :=
  (root H s.mem).toList ++ s.preimageKey.toList ++ be64 s.preimageOffset ++ be64 s.pc ++ [s.exitCode] ++
    [if s.exited then 1 else 0] ++ be64 s.stepCount ++ be64 s.heap ++ be64 s.loadReservation ++
    (List.range 32).flatMap fun i => be64 (s.readReg (BitVec.ofNat 5 i))

/-- `STATE_HASH()` (R353). -/
def stateHash (H : HashFn) (s : State) : Bytes32 := H (encodeState H s)

/-- `n` bytes of `b` from index `at`. -/
def slice (b : List Byte) (start n : Nat) : List Byte := (b.drop start).take n

/-- The registers of an encoding; register 0 is hard-wired (R350). -/
def decodeRegs (b : List Byte) : Vector Word 32 :=
  Vector.ofFn fun i : Fin 32 => if i.val = 0 then 0 else beWord (slice b (106 + 8 * i.val) 8)

/-- `DECODE_STATE(b)`: the checks in the order of R351, then every field but the memory. -/
def decodeState (H : HashFn) (b : List Byte) (s : State) : Except Fault State :=
  if b.length ≠ Config.stateBytes then .error (.codecError .length)
  else if b.getD 81 0 ≠ 0 ∧ b.getD 81 0 ≠ 1 then .error (.codecError .exitedFlag)
  else if b.getD 81 0 = 0 ∧ b.getD 80 0 ≠ 0 then .error (.codecError .exitCodeWithoutExited)
  else if slice b 106 8 ≠ List.replicate 8 0 then .error (.codecError .x0NotZero)
  else if (b.getD 79 0).toNat % 4 ≠ 0 then .error (.codecError .pcMisaligned)
  else if slice b 0 32 ≠ (root H s.mem).toList then .error (.codecError .memoryRootMismatch)
  else .ok { s with
    preimageKey := bytes32 (slice b 32 32)
    preimageOffset := beWord (slice b 64 8)
    pc := beWord (slice b 72 8)
    exitCode := b.getD 80 0
    exited := b.getD 81 0 == 1
    stepCount := beWord (slice b 82 8)
    heap := beWord (slice b 90 8)
    loadReservation := beWord (slice b 98 8)
    regs := decodeRegs b }

/-- The derived status of a state (spec/10_state.md R35). -/
inductive Status where
  | unfinished
  | success
  | failure (code : Byte)
  deriving DecidableEq, Repr

/-- `status(s)` (R35). -/
def statusOf (s : State) : Status :=
  if s.exited then (if s.exitCode = 0 then .success else .failure s.exitCode) else .unfinished

/-! ## The memory image -/

/-- `SERIALIZE()` for pages of `2^pageBits` bytes (R168). -/
def serialize (pageBits : Nat) (m : Memory) : List Byte :=
  be64 (BitVec.ofNat 64 (m.pages pageBits).length) ++
    (m.pages pageBits).flatMap fun p =>
      be64 (BitVec.ofNat 64 p) ++ m.bytesAt (p * 2 ^ pageBits) (2 ^ pageBits)

/-- A page index does not rise above the one before it. -/
def notAbove (p : Nat) : Option Nat → Bool
  | none => false
  | some q => decide (p ≤ q)

/-- Read `n` page records of the image: each index in range and above the one before it (R170). -/
def readPages (pageBits : Nat) : Nat → Option Nat → List Byte →
    Except SerializationCheck (List (Nat × List Byte))
  | 0, _, _ => .ok []
  | n + 1, prev, b =>
    let p := beNat (b.take 8)
    if 2 ^ (64 - pageBits) ≤ p then .error .pageOutOfRange
    else if notAbove p prev then .error .notAscending
    else
      match readPages pageBits n (some p) (b.drop (8 + 2 ^ pageBits)) with
      | .ok ps => .ok ((p, (b.drop 8).take (2 ^ pageBits)) :: ps)
      | .error e => .error e

/-- `DESERIALIZE(bytes)`: the memory the image describes (R170). -/
def deserialize (pageBits : Nat) (b : List Byte) : Except Fault Memory :=
  if b.length < 8 then .error (.serializationError .tooShort)
  else if b.length ≠ 8 + beNat (b.take 8) * (8 + 2 ^ pageBits) then .error (.serializationError .wrongLength)
  else
    match readPages pageBits (beNat (b.take 8)) none (b.drop 8) with
    | .ok ps => .ok (ps.foldl (fun m p => m.setBytesAt (p.1 * 2 ^ pageBits) p.2) Memory.empty)
    | .error e => .error (.serializationError e)

end Sys2Proof.Machine
end

