-- ==== Sys2Proof/Machine/Witness.lean ====
section
/-! DEFINITION. The witness of a step (spec/49_step_codec_witness.md R342, R360 to R362) and the verifier call a witness is
turned into (R362, R365). -/

namespace Sys2Proof.Machine

/-! ## The leaves a step touches (R342), as the addresses it proves, in the order of R361 -/

/-- The addresses proven for an access of `n` bytes at `a`: its first byte, and its last where that is in the next leaf. -/
def accessAddrs (a : Word) (n : Nat) : List Word :=
  a :: if 32 < a.toNat % 32 + n then [a + BitVec.ofNat 64 (n - 1)] else []

/-- The step is a `read` on preimage-read (R311). -/
def readsPreimage (s : State) : Bool := s.readReg a7 == 63 && s.readReg a0 == 5

/-- The step is a `write` on preimage-write (R313). -/
def writesKey (s : State) : Bool := s.readReg a7 == 64 && s.readReg a0 == 6

/-- How many memory bytes the selected syscall moves through the one leaf of `a1`. -/
def syscallCount (oracle : OracleFn) (s : State) : Nat :=
  if readsPreimage s then
    match oracle s.preimageKey with
    | .preimage p => preimageCount s (prefixed p)
    | .fail _ => 0
  else if writesKey s then leafClamp (s.readReg a1) (s.readReg a2)
  else 0

/-- ECALL touches the leaf of `a1` when it moves bytes through it (R342). -/
def syscallAddrs (oracle : OracleFn) (s : State) : List Word :=
  if syscallCount oracle s = 0 then [] else [s.readReg a1]

/-- The data addresses an instruction proves, ascending (R361). -/
def dataAddrs (oracle : OracleFn) (s : State) : Instr → List Word
  | .lb _ rs1 imm | .lbu _ rs1 imm | .sb _ rs1 imm => accessAddrs (effAddr s rs1 imm) 1
  | .lh _ rs1 imm | .lhu _ rs1 imm | .sh _ rs1 imm => accessAddrs (effAddr s rs1 imm) 2
  | .lw _ rs1 imm | .lwu _ rs1 imm | .sw _ rs1 imm => accessAddrs (effAddr s rs1 imm) 4
  | .ld _ rs1 imm | .sd _ rs1 imm => accessAddrs (effAddr s rs1 imm) 8
  | .ecall => syscallAddrs oracle s
  | .beq _ _ _ | .bne _ _ _ | .blt _ _ _ | .bge _ _ _ | .bltu _ _ _ | .bgeu _ _ _ => []
  | .addi _ _ _ | .slti _ _ _ | .sltiu _ _ _ | .xori _ _ _ | .ori _ _ _ | .andi _ _ _ => []
  | .slli _ _ _ | .srli _ _ _ | .srai _ _ _ => []
  | .add _ _ _ | .sub _ _ _ | .sll _ _ _ | .slt _ _ _ | .sltu _ _ _ => []
  | .srl _ _ _ | .sra _ _ _ | .xor _ _ _ | .or _ _ _ | .and _ _ _ => []
  | .addiw _ _ _ | .slliw _ _ _ | .srliw _ _ _ | .sraiw _ _ _ => []
  | .addw _ _ _ | .subw _ _ _ | .sllw _ _ _ | .srlw _ _ _ | .sraw _ _ _ => []
  | .lui _ _ | .auipc _ _ | .jal _ _ | .jalr _ _ _ => []
  | .mul _ _ _ | .mulh _ _ _ | .mulhsu _ _ _ | .mulhu _ _ _ => []
  | .div _ _ _ | .divu _ _ _ | .rem _ _ _ | .remu _ _ _ => []
  | .mulw _ _ _ | .divw _ _ _ | .divuw _ _ _ | .remw _ _ _ | .remuw _ _ _ => []
  | .ebreak | .fence _ _ _ _ _ | .fenceI _ _ _ | .aSlot _ _ _ _ _ _ _ => []
  | .cmdRead _ _ | .cmdWrite _ _ | .cmdRoot | .cmdProof _ | .cmdSerialize | .cmdDeserialize _ => []
  | .cmdEncodeState | .cmdDecodeState _ | .cmdStateHash | .cmdStep _ => []

/-! ## The witness -/

/-- The preimage part, present exactly when the step executed a `read` on fd 5: key and offset as before the read (R362). -/
def preimagePart (oracle : OracleFn) (s : State) (i : Instr) : Option PreimagePart :=
  if i = .ecall ∧ readsPreimage s then
    match oracle s.preimageKey with
    | .preimage p => some ⟨s.preimageKey, prefixed p, s.preimageOffset⟩
    | .fail _ => none
  else none

/-- The witness of the step that executes `i` from `s`: every proof on the memory before the step, the fetch leaf first
(R361). -/
def witnessOf (H : HashFn) (oracle : OracleFn) (s : State) (i : Instr) : StepWitness where
  stateData := encodeState H s
  proof := (s.pc :: dataAddrs oracle s i).flatMap (proofBytes H s.mem)
  preimage := preimagePart oracle s i

/-- The witness of a step on an exited state (R344). -/
def idleWitness (H : HashFn) (s : State) : StepWitness := ⟨encodeState H s, [], none⟩

/-! ## The verifier's oracle call (R362, R365; log entries 19 and 24) -/

/-- The preimage part as the verifier's oracle entry point takes it. -/
inductive OracleCall where
  /-- `(offset, preimageBytes)`, for a Keccak256-type key -/
  | keccak (offset : Word) (preimage : List Byte)
  /-- `(ident, localContext, word, size, offset)`, for a local-type key -/
  | localData (ident : List Byte) (localContext : Bytes32) (word : List Byte) (size : Nat) (offset : Word)
  deriving DecidableEq, Repr

/-- Byte 0 of the key is the type tag: 2 is Keccak256, 1 is local, any other type fails the encoding (R325, R362).
DESIGN CHOICE: for a local-type key R365 gives `word` and `size` as "the value and its length" and does not say whether the
8-byte prefix that `preimageValue` carries is part of it; the model takes the preimage `P` without the prefix, as R365 does
for a Keccak256-type key (log entry 24). -/
def oracleCall (localContext : Bytes32) (p : PreimagePart) : Except Fault OracleCall :=
  if p.key[0] = 2 then .ok (.keccak p.offset (p.value.drop 8))
  else if p.key[0] = 1 then
    .ok (.localData (p.key.toList.drop 1) localContext (p.value.drop 8) (p.value.drop 8).length p.offset)
  else .error (.codecError .unsupportedKeyType)

end Sys2Proof.Machine
end

