-- ==== Sys2Proof/Machine/Stepper.lean ====
section
/-! DEFINITION. The instruction stepper: the `STEP` command (spec/49_step_codec_witness.md R340 to R346). -/

namespace Sys2Proof.Machine

/-- Execute the rule of a fetched instruction. It calls the same meanings as `exec`, which stands after this file because
its arm for `STEP` calls `execCmdStep` below; that the two agree on every instruction word is
Laws/Stepper.lean, `runInstr_eq_exec`. No fetched word decodes to a command. -/
def runInstr (i : Instr) (s : State) : Result :=
  match i with
  | .lb rd rs1 imm => execLb rd rs1 imm s
  | .lh rd rs1 imm => execLh rd rs1 imm s
  | .lw rd rs1 imm => execLw rd rs1 imm s
  | .ld rd rs1 imm => execLd rd rs1 imm s
  | .lbu rd rs1 imm => execLbu rd rs1 imm s
  | .lhu rd rs1 imm => execLhu rd rs1 imm s
  | .lwu rd rs1 imm => execLwu rd rs1 imm s
  | .sb rs2 rs1 imm => execSb rs2 rs1 imm s
  | .sh rs2 rs1 imm => execSh rs2 rs1 imm s
  | .sw rs2 rs1 imm => execSw rs2 rs1 imm s
  | .sd rs2 rs1 imm => execSd rs2 rs1 imm s
  | .beq rs1 rs2 offset => execBeq rs1 rs2 offset s
  | .bne rs1 rs2 offset => execBne rs1 rs2 offset s
  | .blt rs1 rs2 offset => execBlt rs1 rs2 offset s
  | .bge rs1 rs2 offset => execBge rs1 rs2 offset s
  | .bltu rs1 rs2 offset => execBltu rs1 rs2 offset s
  | .bgeu rs1 rs2 offset => execBgeu rs1 rs2 offset s
  | .addi rd rs1 imm => execAddi rd rs1 imm s
  | .slti rd rs1 imm => execSlti rd rs1 imm s
  | .sltiu rd rs1 imm => execSltiu rd rs1 imm s
  | .xori rd rs1 imm => execXori rd rs1 imm s
  | .ori rd rs1 imm => execOri rd rs1 imm s
  | .andi rd rs1 imm => execAndi rd rs1 imm s
  | .slli rd rs1 shamt => execSlli rd rs1 shamt s
  | .srli rd rs1 shamt => execSrli rd rs1 shamt s
  | .srai rd rs1 shamt => execSrai rd rs1 shamt s
  | .add rd rs1 rs2 => execAdd rd rs1 rs2 s
  | .sub rd rs1 rs2 => execSub rd rs1 rs2 s
  | .sll rd rs1 rs2 => execSll rd rs1 rs2 s
  | .slt rd rs1 rs2 => execSlt rd rs1 rs2 s
  | .sltu rd rs1 rs2 => execSltu rd rs1 rs2 s
  | .srl rd rs1 rs2 => execSrl rd rs1 rs2 s
  | .sra rd rs1 rs2 => execSra rd rs1 rs2 s
  | .xor rd rs1 rs2 => execXor rd rs1 rs2 s
  | .or rd rs1 rs2 => execOr rd rs1 rs2 s
  | .and rd rs1 rs2 => execAnd rd rs1 rs2 s
  | .addiw rd rs1 imm => execAddiw rd rs1 imm s
  | .slliw rd rs1 shamt => execSlliw rd rs1 shamt s
  | .srliw rd rs1 shamt => execSrliw rd rs1 shamt s
  | .sraiw rd rs1 shamt => execSraiw rd rs1 shamt s
  | .addw rd rs1 rs2 => execAddw rd rs1 rs2 s
  | .subw rd rs1 rs2 => execSubw rd rs1 rs2 s
  | .sllw rd rs1 rs2 => execSllw rd rs1 rs2 s
  | .srlw rd rs1 rs2 => execSrlw rd rs1 rs2 s
  | .sraw rd rs1 rs2 => execSraw rd rs1 rs2 s
  | .lui rd imm => execLui rd imm s
  | .auipc rd imm => execAuipc rd imm s
  | .jal rd offset => execJal rd offset s
  | .jalr rd rs1 imm => execJalr rd rs1 imm s
  | .mul rd rs1 rs2 => execMul rd rs1 rs2 s
  | .mulh rd rs1 rs2 => execMulh rd rs1 rs2 s
  | .mulhsu rd rs1 rs2 => execMulhsu rd rs1 rs2 s
  | .mulhu rd rs1 rs2 => execMulhu rd rs1 rs2 s
  | .div rd rs1 rs2 => execDiv rd rs1 rs2 s
  | .divu rd rs1 rs2 => execDivu rd rs1 rs2 s
  | .rem rd rs1 rs2 => execRem rd rs1 rs2 s
  | .remu rd rs1 rs2 => execRemu rd rs1 rs2 s
  | .mulw rd rs1 rs2 => execMulw rd rs1 rs2 s
  | .divw rd rs1 rs2 => execDivw rd rs1 rs2 s
  | .divuw rd rs1 rs2 => execDivuw rd rs1 rs2 s
  | .remw rd rs1 rs2 => execRemw rd rs1 rs2 s
  | .remuw rd rs1 rs2 => execRemuw rd rs1 rs2 s
  | .ecall => execEcall s
  | .ebreak => execEbreak s
  | .fence fm pred succ rs1 rd => execFence fm pred succ rs1 rd s
  | .fenceI imm rs1 rd => execFenceI imm rs1 rd s
  | .aSlot funct5 aq rl rs2 rs1 funct3 rd => execASlot funct5 aq rl rs2 rs1 funct3 rd s
  | .cmdRead _ _ => .refused .commandInsideStep
  | .cmdWrite _ _ => .refused .commandInsideStep
  | .cmdRoot => .refused .commandInsideStep
  | .cmdProof _ => .refused .commandInsideStep
  | .cmdSerialize => .refused .commandInsideStep
  | .cmdDeserialize _ => .refused .commandInsideStep
  | .cmdEncodeState => .refused .commandInsideStep
  | .cmdDecodeState _ => .refused .commandInsideStep
  | .cmdStateHash => .refused .commandInsideStep
  | .cmdStep _ => .refused .commandInsideStep

/-- What `STEP` returns on success: a witness in proof mode, nothing otherwise (R340). -/
def stepReply (proofMode : Bool) (w : StepWitness) : Reply := if proofMode then .witness w else .ok

/-- The end of a completed step: the counter advances by 1 modulo `2^64` and the host gets the reply (R345). `s` is the
state before the step, `t` the one the instruction left. -/
def finishStep (proofMode : Bool) (s : State) (i : Instr) (t : State) : State :=
  { t with
    stepCount := t.stepCount + 1
    reply := stepReply proofMode (witnessOf Config.hash Config.oracle s i) }

/-- Execute a decoded instruction and finish the step, or stop as it stops (R343). -/
def runStep (proofMode : Bool) (i : Instr) (s : State) : Result :=
  match runInstr i s with
  | .next t => .next (finishStep proofMode s i t)
  | .fault f => raise f
  | .refused r => .refused r

/-- `STEP(proofMode)` (R340): nothing on an exited state (R344); the fetch must be aligned (R346); the word must decode
(R101); then the instruction. -/
def execCmdStep (proofMode : Bool) (s : State) : Result :=
  if s.exited then .next (s.answer (stepReply proofMode (idleWitness Config.hash s)))
  else if aligned4 s.pc then
    orRaise (fetch s) fun w =>
      match decodeWord w with
      | .ok i => runStep proofMode i s
      | .error _ => raise (.decodeError w)
  else raise (.misalignedFetch s.pc)

end Sys2Proof.Machine
end

