-- ==== Sys2Proof/Machine/Commands.lean ====
section
/-! DEFINITION. The commands of the port other than `STEP` (spec/41_engine_commands.md R160 to R170;
spec/49_step_codec_witness.md R350, R351, R353). -/

namespace Sys2Proof.Machine

/-- `READ(addr, len)` (R160). -/
def execCmdRead (addr : Word) (len : Nat) (s : State) : Result :=
  if 32 < len then raise (.engineArg len)
  else orRaise (memBytes s.mem addr len) fun b => .next (s.answer (.bytes b))

/-- `WRITE(addr, b)` (R162). -/
def execCmdWrite (addr : Word) (bytes : List Byte) (s : State) : Result :=
  if 32 < bytes.length then raise (.engineArg bytes.length)
  else orRaise (memSetBytes s.mem addr bytes) fun m => .next ({ s with mem := m }.answer .ok)

/-- `ROOT()` (R164). -/
def execCmdRoot (s : State) : Result := .next (s.answer (.bytes (root Config.hash s.mem).toList))

/-- `PROOF(addr)` (R166). -/
def execCmdProof (addr : Word) (s : State) : Result := .next (s.answer (.bytes (proofBytes Config.hash s.mem addr)))

/-- `SERIALIZE()` (R168). -/
def execCmdSerialize (s : State) : Result := .next (s.answer (.bytes (serialize Config.pageBits s.mem)))

/-- `DESERIALIZE(bytes)` (R170): on a fault the previous memory is kept. -/
def execCmdDeserialize (bytes : List Byte) (s : State) : Result :=
  orRaise (deserialize Config.pageBits bytes) fun m => .next ({ s with mem := m }.answer .ok)

/-- `ENCODE_STATE()` (R350). -/
def execCmdEncodeState (s : State) : Result := .next (s.answer (.bytes (encodeState Config.hash s)))

/-- `DECODE_STATE(b)` (R351). -/
def execCmdDecodeState (bytes : List Byte) (s : State) : Result :=
  orRaise (decodeState Config.hash bytes s) fun t => .next (t.answer .ok)

/-- `STATE_HASH()` (R353). -/
def execCmdStateHash (s : State) : Result := .next (s.answer (.bytes (stateHash Config.hash s).toList))

end Sys2Proof.Machine
end

