-- ==== Sys2Proof/Machine/Step.lean ====
section
/-! DEFINITION. One step of the machine: the block takes the command that stands at its port and serves it to the end
(spec/30_encoding.md R107, spec/70_reset_and_hazards.md R436). When the host has presented nothing, the driver's `STEP` with
`proofMode = 0` stands there, so the machine runs the program in memory (log entry 1). -/

namespace Sys2Proof.Machine

/-- Serve one command, taken off the port, and report its outcome: `BadCommand` for a code that names none (R412). -/
def step (s : State) : Host.Outcome State Fault Refusal :=
  match decodeRequest s.pendingRequest with
  | .ok i => s.report (exec i s.accept)
  | .error _ => s.report (raise (.badCommand s.pendingRequest.code))

/-- `s` with the instruction of a table word standing where the next step takes it (log entry 20): a command code of at
most 16 bits is presented at the port before the host's other commands; an instruction word is stored at `pc`, with a
`STEP` at the port, the machine not exited and `pc` aligned, as the fetch needs. -/
def State.withFetchWord (s : State) (nbits w : Nat) : State :=
  if nbits ≤ 16 then { s with requests := tableRequest w :: s.requests }
  else State.placeWord { s with requests := s.stepFirst, exited := false, pc := s.pc &&& ~~~3#64 } w

end Sys2Proof.Machine
end

