-- ==== Sys2Proof/Safety.lean ====
section
/-! DEFINITION. The terms in which claims are stated: valid states (spec/10_state.md R43), the invariant of the model's data,
numbers read from bits as the spec reads them (spec/00_scope.md R14, R15), and what an instruction or a command changes and
leaves unchanged. -/

namespace Sys2Proof.Machine

/-! ## Valid states -/

/-- The clauses of R43 that do not mention the oracle: `x[0] = 0`, `pc[1:0] = 0`, and the exit code is 0 until the machine
has exited. -/
def State.Valid (s : State) : Prop :=
  s.regs[0] = 0 ∧ s.pc.toNat % 4 = 0 ∧ (s.exited = false → s.exitCode = 0)

/-- The clause of R43 on the preimage offset: `preimageOffset <= len(ORACLE(preimageKey)) + 8` whenever it is not 0. -/
def State.OffsetValid (oracle : OracleFn) (s : State) : Prop :=
  s.preimageOffset ≠ 0 → ∃ p, oracle s.preimageKey = .preimage p ∧ s.preimageOffset.toNat ≤ p.length + 8

/-- The model's invariant: the clauses above and the canonical form of the memory. -/
def State.Inv (s : State) : Prop := s.Valid ∧ s.mem.wf

/-! ## Numbers -/

/-- `signed_N(v)` (R15). -/
def signedVal (N v : Nat) : Int := if v < 2 ^ (N - 1) then v else v - 2 ^ N

/-- The 64-bit value with the `signed_N` reading of `v` (R15). -/
def sextVal (N v : Nat) : Word := BitVec.ofInt 64 (signedVal N v)

/-- `sum over k in 0..n-1 of byte(a + k) * 2^(8k)` (R83). -/
def littleEndian (m : Memory) (a n : Nat) : Nat :=
  ((List.range n).map fun k => (m.byte (a + k)).toNat * 2 ^ (8 * k)).sum

/-- The integer whose big-endian bytes are the `n` bytes of `b` from index `start` (R14, R350). -/
def bigEndianAt (b : List Byte) (start n : Nat) : Nat :=
  (slice b start n).foldl (fun v x => v * 256 + x.toNat) 0

/-! ## Frames -/

/-- Every register is unchanged but `rd`, which holds `v`; a write to register 0 is discarded (R21). -/
def WritesReg (s t : State) (rd : Reg) (v : Word) : Prop :=
  ∀ r, t.readReg r = if r = rd ∧ r ≠ 0 then v else s.readReg r

/-- Every register is unchanged. -/
def SameRegs (s t : State) : Prop := ∀ r, t.readReg r = s.readReg r

/-- Every byte of memory is unchanged, and no page became allocated. -/
def SameMemory (s t : State) : Prop := (∀ a, t.mem.byte a = s.mem.byte a) ∧ t.mem.touched = s.mem.touched

/-- Every byte of memory outside the `n` bytes at `a` is unchanged. -/
def SameMemoryOutside (s t : State) (a : Word) (n : Nat) : Prop :=
  ∀ b, b < a.toNat ∨ a.toNat + n ≤ b → t.mem.byte b = s.mem.byte b

/-- The preimage key and offset are unchanged. -/
def SamePreimage (s t : State) : Prop := t.preimageKey = s.preimageKey ∧ t.preimageOffset = s.preimageOffset

/-- The exit status, the step counter and the load reservation are unchanged. An instruction's own rule does not count the
step: `STEP` does that after it (log entry 22). -/
def SameStatus (s t : State) : Prop :=
  t.exitCode = s.exitCode ∧ t.exited = s.exited ∧ t.stepCount = s.stepCount ∧ t.loadReservation = s.loadReservation

/-- The port is unchanged: the commands still to be presented, the last reply, the events emitted. -/
def SamePort (s t : State) : Prop := t.requests = s.requests ∧ t.reply = s.reply ∧ t.output = s.output

/-- All of the state but the registers, `pc` and the memory is unchanged. -/
def SameSystem (s t : State) : Prop := SamePreimage s t ∧ SameStatus s t ∧ t.heap = s.heap ∧ SamePort s t

/-- All of `MachineState` (R20 to R37) is unchanged: only the port's fields may differ. -/
def SameMachine (s t : State) : Prop :=
  t.regs = s.regs ∧ t.pc = s.pc ∧ t.mem = s.mem ∧ SamePreimage s t ∧ SameStatus s t ∧ t.heap = s.heap

/-- `s` goes to `t` by writing `v` to `rd` and advancing: nothing else changes (the frame of R210, R284). -/
def WritesAndAdvances (s t : State) (rd : Reg) (v : Word) : Prop :=
  WritesReg s t rd v ∧ t.pc = s.pc + 4 ∧ SameMemory s t ∧ SameSystem s t

/-- `s` goes to `t` by a transfer of control: nothing but `pc` changes. -/
def OnlyPc (s t : State) (target : Word) : Prop :=
  t.pc = target ∧ SameRegs s t ∧ SameMemory s t ∧ SameSystem s t

/-- The outcome is a next state with the property. -/
def Completes (r : Result) (p : State → Prop) : Prop := ∃ t, r = .next t ∧ p t

/-- The instruction is encoded as a word whose bits under `mask` are `pattern`, and that word decodes to it. -/
def EncodedAs (i : Instr) (pattern mask : IWord) : Prop :=
  ∃ w, encode i = .word w ∧ w &&& mask = pattern ∧ decodeWord w = .ok i

/-! ## Memory written -/

/-- The `n` bytes at `a` become `f 0, .., f (n - 1)`, every other byte is unchanged, and exactly the pages of those bytes are
added to the allocated ones (R84, R85). The canonical form is what makes a byte 0 that was written read back. -/
def WritesBytes (m m' : Memory) (a n : Nat) (f : Nat → Byte) : Prop :=
  (m.wf → ∀ k < n, m'.byte (a + k) = f k) ∧
  (∀ b, b < a ∨ a + n ≤ b → m'.byte b = m.byte b) ∧
  ∀ p, p ∈ m'.pages Config.pageBits ↔
    p ∈ m.pages Config.pageBits ∨ ∃ k < n, p = (a + k) / 2 ^ Config.pageBits

/-- A store of the low `n` bytes of `v` at `a`, and the advance: no register and nothing else changes (R181). -/
def StoresAndAdvances (s t : State) (a : Word) (n : Nat) (v : Word) : Prop :=
  WritesBytes s.mem t.mem a.toNat n (fun k => BitVec.ofNat 8 (v.toNat / 2 ^ (8 * k))) ∧
  SameRegs s t ∧ t.pc = s.pc + 4 ∧ SameSystem s t

/-! ## Loads, stores, transfers -/

/-- A load of `n` bytes at `a` delivers `f` of their value, or raises `AddressRange` and nothing else happens (R181). -/
def LoadRule (i : Instr) (s : State) (rd : Reg) (a : Word) (n : Nat) (f : Nat → Word) : Prop :=
  (a.toNat + n ≤ 2 ^ 64 →
    Completes (exec i s) fun t => WritesAndAdvances s t rd (f (littleEndian s.mem a.toNat n))) ∧
  (2 ^ 64 < a.toNat + n → exec i s = .fault (.addressRange a n))

/-- A store of `n` bytes of `v` at `a` does so, or raises `AddressRange` and nothing is written (R181). -/
def StoreRule (i : Instr) (s : State) (a : Word) (n : Nat) (v : Word) : Prop :=
  (a.toNat + n ≤ 2 ^ 64 → Completes (exec i s) fun t => StoresAndAdvances s t a n v) ∧
  (2 ^ 64 < a.toNat + n → exec i s = .fault (.addressRange a n))

/-- A branch: taken to an aligned target, taken to a misaligned one, not taken (R200, R201). -/
def BranchRule (i : Instr) (s : State) (taken : Prop) (target : Word) : Prop :=
  (taken → target.toNat % 4 = 0 → Completes (exec i s) fun t => OnlyPc s t target) ∧
  (taken → target.toNat % 4 ≠ 0 → exec i s = .fault (.misalignedTarget target)) ∧
  (¬taken → Completes (exec i s) fun t => OnlyPc s t (s.pc + 4))

/-- A jump: it links and goes to an aligned target, or it raises `MisalignedTarget` and nothing is written (R260, R262). -/
def JumpRule (i : Instr) (s : State) (rd : Reg) (target : Word) : Prop :=
  (target.toNat % 4 = 0 → Completes (exec i s) fun t =>
    WritesReg s t rd (s.pc + 4) ∧ t.pc = target ∧ SameMemory s t ∧ SameSystem s t) ∧
  (target.toNat % 4 ≠ 0 → exec i s = .fault (.misalignedTarget target))

/-- An instruction that writes one value and advances, whatever the state (R210, R284). -/
def ResultRule (i : Instr) (s : State) (rd : Reg) (v : Word) : Prop :=
  Completes (exec i s) fun t => WritesAndAdvances s t rd v

/-! ## System calls -/

/-- A syscall returned: `a0` holds `v`, `a1` the error code `e`, every other register is unchanged, and `pc` advanced
(R300). -/
def SysReturns (s t : State) (v e : Word) : Prop :=
  (∀ r, t.readReg r = if r = a0 then v else if r = a1 then e else s.readReg r) ∧ t.pc = s.pc + 4

/-- A syscall returned and did nothing else. -/
def SysReturnsOnly (s t : State) (v e : Word) : Prop := SysReturns s t v e ∧ SameMemory s t ∧ SameSystem s t

/-! ## Classes of instructions -/

/-- The instructions that raise no fault from any state: no data access of more than one byte, no transfer of control, no
ECALL, not the A slot. -/
def neverFaults : Instr → Bool
  | .lb _ _ _ | .lbu _ _ _ | .sb _ _ _ => true
  | .addi _ _ _ | .slti _ _ _ | .sltiu _ _ _ | .xori _ _ _ | .ori _ _ _ | .andi _ _ _ => true
  | .slli _ _ _ | .srli _ _ _ | .srai _ _ _ => true
  | .add _ _ _ | .sub _ _ _ | .sll _ _ _ | .slt _ _ _ | .sltu _ _ _ => true
  | .srl _ _ _ | .sra _ _ _ | .xor _ _ _ | .or _ _ _ | .and _ _ _ => true
  | .addiw _ _ _ | .slliw _ _ _ | .srliw _ _ _ | .sraiw _ _ _ => true
  | .addw _ _ _ | .subw _ _ _ | .sllw _ _ _ | .srlw _ _ _ | .sraw _ _ _ => true
  | .lui _ _ | .auipc _ _ => true
  | .mul _ _ _ | .mulh _ _ _ | .mulhsu _ _ _ | .mulhu _ _ _ => true
  | .div _ _ _ | .divu _ _ _ | .rem _ _ _ | .remu _ _ _ => true
  | .mulw _ _ _ | .divw _ _ _ | .divuw _ _ _ | .remw _ _ _ | .remuw _ _ _ => true
  | .ebreak | .fence _ _ _ _ _ | .fenceI _ _ _ => true
  | _ => false

/-- The address and the width of a load's or store's data access (R180). -/
def accessOf (s : State) : Instr → Option (Word × Nat)
  | .lb _ rs1 imm | .lbu _ rs1 imm | .sb _ rs1 imm => some (s.readReg rs1 + immIS imm, 1)
  | .lh _ rs1 imm | .lhu _ rs1 imm | .sh _ rs1 imm => some (s.readReg rs1 + immIS imm, 2)
  | .lw _ rs1 imm | .lwu _ rs1 imm | .sw _ rs1 imm => some (s.readReg rs1 + immIS imm, 4)
  | .ld _ rs1 imm | .sd _ rs1 imm => some (s.readReg rs1 + immIS imm, 8)
  | _ => none

/-- A conditional branch or a jump. -/
def transfersControl : Instr → Bool
  | .beq _ _ _ | .bne _ _ _ | .blt _ _ _ | .bge _ _ _ | .bltu _ _ _ | .bgeu _ _ _ | .jal _ _ | .jalr _ _ _ => true
  | _ => false

/-- The one fault that an instruction's own rule can raise, by its class (spec/60_exceptions.md R414). -/
def OwnFault (i : Instr) (s : State) (f : Fault) : Prop :=
  (∃ a n, accessOf s i = some (a, n) ∧ f = .addressRange a n) ∨
  (transfersControl i = true ∧ ∃ t, f = .misalignedTarget t) ∨
  (i = .ecall ∧
    (f = .unsupportedSyscall (s.readReg a7) ∨
     (s.readReg a7 = 63 ∧ s.readReg a0 = 5 ∧ ∃ r, f = .oracleError s.preimageKey s.preimageOffset r) ∨
     (s.readReg a7 = 64 ∧ f = .addressRange (s.readReg a1) (s.readReg a2).toNat))) ∨
  ∃ w, encode i = .word w ∧ bits w 6 0 = 0x2f ∧ f = .unimplementedAtomic w

/-! ## Decoding as the rules write it -/

/-- The words that name no instruction: those spec/30_encoding.md R102 lists, in its order (a) to (h), and beside (b) the
OP-IMM-32 words whose `funct3` is none of 000, 001, 101 (R100: "other `funct3` none"). -/
def ReservedWord (w : IWord) : Prop :=
  let op := bits w 6 0
  let f3 := bits w 14 12
  let f6 := bits w 31 26
  let f7 := bits w 31 25
  (op = 0x13 ∧ (f3 = 1 ∧ f6 ≠ 0 ∨ f3 = 5 ∧ f6 ≠ 0 ∧ f6 ≠ 16)) ∨
  (op = 0x1b ∧ (f3 = 1 ∧ f7 ≠ 0 ∨ f3 = 5 ∧ f7 ≠ 0 ∧ f7 ≠ 32 ∨ f3 ≠ 0 ∧ f3 ≠ 1 ∧ f3 ≠ 5)) ∨
  (op = 0x33 ∧ f7 ≠ 0 ∧ f7 ≠ 1 ∧ ¬(f7 = 32 ∧ (f3 = 0 ∨ f3 = 5))) ∨
  (op = 0x3b ∧ ¬(f7 = 0 ∧ (f3 = 0 ∨ f3 = 1 ∨ f3 = 5)) ∧ ¬(f7 = 32 ∧ (f3 = 0 ∨ f3 = 5)) ∧
    ¬(f7 = 1 ∧ (f3 = 0 ∨ 4 ≤ f3))) ∨
  (op = 0x67 ∧ f3 ≠ 0) ∨
  (op = 0x0f ∧ f3 ≠ 0 ∧ f3 ≠ 1) ∨
  (op = 0x73 ∧ w ≠ 0x00000073 ∧ w ≠ 0x00100073) ∨
  (op = 0x03 ∧ f3 = 7) ∨ (op = 0x23 ∧ 4 ≤ f3) ∨ (op = 0x63 ∧ (f3 = 2 ∨ f3 = 3)) ∨
  op ∉ [0x03, 0x0f, 0x13, 0x17, 0x1b, 0x23, 0x2f, 0x33, 0x37, 0x3b, 0x63, 0x67, 0x6f, 0x73]

/-- The 64-bit immediate of an instruction that has one, as its rule uses it. -/
def immediateOf : Instr → Option Word
  | .lb _ _ imm | .lh _ _ imm | .lw _ _ imm | .ld _ _ imm | .lbu _ _ imm | .lhu _ _ imm | .lwu _ _ imm => some (immIS imm)
  | .sb _ _ imm | .sh _ _ imm | .sw _ _ imm | .sd _ _ imm => some (immIS imm)
  | .addi _ _ imm | .slti _ _ imm | .sltiu _ _ imm | .xori _ _ imm | .ori _ _ imm | .andi _ _ imm => some (immIS imm)
  | .addiw _ _ imm | .jalr _ _ imm => some (immIS imm)
  | .beq _ _ o | .bne _ _ o | .blt _ _ o | .bge _ _ o | .bltu _ _ o | .bgeu _ _ o => some (immB o)
  | .lui _ imm | .auipc _ imm => some (immU imm)
  | .jal _ o => some (immJ o)
  | _ => none

/-- The immediate of a word by its format: `immI` (R93), `immS` (R94), `immB` (R95), `immU` (R96), `immJ` (R97). -/
def immediateField (w : IWord) : Option Word :=
  let f3 := bits w 14 12
  let immI := sextVal 12 (bits w 31 20)
  match bits w 6 0 with
  | 0x03 | 0x67 => some immI
  | 0x13 => if f3 = 1 ∨ f3 = 5 then none else some immI
  | 0x1b => if f3 = 0 then some immI else none
  | 0x23 => some (sextVal 12 (bits w 31 25 * 32 + bits w 11 7))
  | 0x63 => some (sextVal 13 (bits w 31 31 * 4096 + bits w 7 7 * 2048 + bits w 30 25 * 32 + bits w 11 8 * 2))
  | 0x17 | 0x37 => some (sextVal 32 (bits w 31 12 * 4096))
  | 0x6f => some (sextVal 21 (bits w 31 31 * 1048576 + bits w 19 12 * 4096 + bits w 20 20 * 2048 + bits w 30 21 * 2))
  | _ => none

end Sys2Proof.Machine
end

