-- ==== Sys2Proof/Certificates/Slice0/Obligations.lean ====
section
/-! DEFINITION. The statements for the provers, from the numbered rules of spec/. Each is about every state, reachable or
not, unless its hypotheses say otherwise; the witnesses of the hypotheses are in Tests/Slice0.lean. -/

section

open Sys2Proof Sys2Proof.Machine

/-! ## Encoding (spec/30_encoding.md) -/

/-- Words written out from the spec's examples, one or more for each family, decode to the instructions they stand for
(R99, R100; the words are the examples of R182 to R319). -/
def Obligations.DecodesSpecWords : Prop :=
  decodeWord 0x00028383 = .ok (.lb 7 5 0) ∧ decodeWord 0xffc03383 = .ok (.ld 7 0 0xffc) ∧
  decodeWord 0xfe62ae23 = .ok (.sw 6 5 0xffc) ∧ decodeWord 0x0062bea3 = .ok (.sd 6 5 0x1d) ∧
  decodeWord 0xf06280e3 = .ok (.beq 5 6 0x1f00) ∧ decodeWord 0x00500093 = .ok (.addi 1 0 5) ∧
  decodeWord 0x43f2d393 = .ok (.srai 7 5 63) ∧ decodeWord 0x406283b3 = .ok (.sub 7 5 6) ∧
  decodeWord 0x0012839b = .ok (.addiw 7 5 1) ∧ decodeWord 0x41f2d39b = .ok (.sraiw 7 5 31) ∧
  decodeWord 0x4062d3bb = .ok (.sraw 7 5 6) ∧ decodeWord 0x800003b7 = .ok (.lui 7 0x80000) ∧
  decodeWord 0x00001397 = .ok (.auipc 7 1) ∧ decodeWord 0xffdff3ef = .ok (.jal 7 0x1ffffc) ∧
  decodeWord 0xffc28067 = .ok (.jalr 0 5 0xffc) ∧ decodeWord 0x0262a3b3 = .ok (.mulhsu 7 5 6) ∧
  decodeWord 0x0262d3bb = .ok (.divuw 7 5 6) ∧ decodeWord 0x00000073 = .ok .ecall ∧
  decodeWord 0x00100073 = .ok .ebreak ∧ decodeWord 0x8330000f = .ok (.fence 8 3 3 0 0) ∧
  decodeWord 0x0000100f = .ok (.fenceI 0 0 0) ∧ decodeWord 0x0062b3af = .ok (.aSlot 0 0 0 6 5 3 7)

/-- Decoding the encoding of a well-formed instruction or command gives it back, operand for operand. The spec gives the
operands of a command no encoding (R107 gives codes only): that part rests on the model's choice, typed lines at the port
(log entry 2). -/
def Obligations.EncodeThenDecode : Prop :=
  ∀ i : Instr, i.wellFormed = true → decode (encode i) = .ok i

/-- An accepted word is the encoding of what it decodes to, which is well formed and is no command: no bit of an accepted
word is dropped. -/
def Obligations.AcceptedWordReencodes : Prop :=
  ∀ (w : IWord) (i : Instr), decodeWord w = .ok i → encode i = .word w ∧ i.wellFormed = true ∧ i.isCommand = false

/-- R101: the rows of the opcode table are disjoint, a word that matches a row decodes to that row's instruction, and a
word that matches none makes the step raise `DecodeError(w)`. -/
def Obligations.DecodeIsTheTable : Prop :=
  (∀ w : IWord, ∀ r ∈ rows, ∀ q ∈ rows, r.matchesWord w = true → q.matchesWord w = true → r = q) ∧
  (∀ w : IWord, ∀ r ∈ rows, r.matchesWord w = true → ∃ i, decodeWord w = .ok i ∧ mnemonicOf i = r.mnemonic) ∧
  (∀ w : IWord, (∀ r ∈ rows, r.matchesWord w = false) → decodeWord w = .error (.unrecognized w)) ∧
  ∀ (s : State) (p : Bool) (w : IWord), s.exited = false → s.pc.toNat % 4 = 0 → fetch s = .ok w →
    (∀ r ∈ rows, r.matchesWord w = false) → exec (.cmdStep p) s = .fault (.decodeError w)

/-- The words the spec rules to be decode faults (R102; beside its (b), the OP-IMM-32 words of R100's "other `funct3`
none") are rejected, and every other word decodes (R99, R100, R101). -/
def Obligations.ReservedWordsRejected : Prop :=
  ∀ w : IWord,
    (ReservedWord w → decodeWord w = .error (.unrecognized w)) ∧
    (¬ReservedWord w → ∃ i, decodeWord w = .ok i)

/-- R93 to R97: the immediate an instruction computes with is the one of its format, assembled and sign-extended as the
rule writes it; the other formats have none. -/
def Obligations.ImmediateOperands : Prop :=
  ∀ (w : IWord) (i : Instr), decodeWord w = .ok i → immediateOf i = immediateField w

/-- A code 0xA to 0xF is refused with `BadCommand` and changes nothing (R412); each of the codes 0x0 to 0x9 names its
command (R107), and a command's request decodes to it. That a command takes its operands from typed lines, and what it is
encoded as, is the model's choice (log entry 2); so is that a refused request is taken off the port with the fault as its
result (log entries 1 and 4). -/
def Obligations.CommandPortCodes : Prop :=
  (∀ r : PortRequest, 10 ≤ r.code.toNat → decodeRequest r = .error (.badCommand r.code)) ∧
  (∀ s : State, 10 ≤ s.pendingRequest.code.toNat → step s =
    .next { s with requests := s.requests.tail, reply := .fault (.badCommand s.pendingRequest.code) }) ∧
  (∀ r : PortRequest,
    (r.code = 0x0 → decodeRequest r = .ok (.cmdRead r.addr r.len)) ∧
    (r.code = 0x1 → decodeRequest r = .ok (.cmdWrite r.addr r.bytes)) ∧
    (r.code = 0x2 → decodeRequest r = .ok .cmdRoot) ∧
    (r.code = 0x3 → decodeRequest r = .ok (.cmdProof r.addr)) ∧
    (r.code = 0x4 → decodeRequest r = .ok .cmdSerialize) ∧
    (r.code = 0x5 → decodeRequest r = .ok (.cmdDeserialize r.bytes)) ∧
    (r.code = 0x6 → decodeRequest r = .ok .cmdEncodeState) ∧
    (r.code = 0x7 → decodeRequest r = .ok (.cmdDecodeState r.bytes)) ∧
    (r.code = 0x8 → decodeRequest r = .ok .cmdStateHash) ∧
    (r.code = 0x9 → decodeRequest r = .ok (.cmdStep r.proofMode))) ∧
  ∀ i : Instr, i.isCommand = true → ∃ r, encode i = .request r ∧ decodeRequest r = .ok i

/-! ## The step (spec/49_step_codec_witness.md) -/

/-- A step of the machine serves the command that stands at the port; when that is a `STEP` of a machine that has not
exited and the four bytes at an aligned `pc` decode to `i`, the step is `exec i`, after which the counter advances and the
reply is given (R340). The model's choices in it: a step is one command, the driver's `STEP` where the host presents none
(log entry 1); how a fault stands at the port (log entry 4); and `exec` of a word does not count the step, the `STEP`
around it does (log entry 22). -/
def Obligations.StepRunsDecodedInstruction : Prop :=
  (∀ (s : State) (i : Instr), decodeRequest s.pendingRequest = .ok i →
    step s =
      match exec i s.accept with
      | .next t => .next t
      | .fault f =>
        if s.requests = [] then .fault f else .next { s with requests := s.requests.tail, reply := .fault f }
      | .refused r => .refused r) ∧
  ∀ (s : State) (i : Instr), s.pendingRequest.code = 0x9 → s.exited = false → s.pc.toNat % 4 = 0 →
    decodeBytes (s.mem.bytesAt s.pc.toNat 4) = .ok (i, []) →
    step s =
      match exec i s.accept with
      | .next t => .next (finishStep s.pendingRequest.proofMode s.accept i t)
      | .fault f =>
        if s.requests = [] then .fault f else .next { s with requests := s.requests.tail, reply := .fault f }
      | .refused r => .refused r

/-- A `STEP` on an instruction that cannot fault completes: the instruction's effect, the counter advanced by 1, and the
witness or nothing as the reply (R340, R345). -/
def Obligations.StepCompletes : Prop :=
  ∀ (s : State) (i : Instr) (p : Bool), s.exited = false → s.pc.toNat % 4 = 0 →
    decodeBytes (s.mem.bytesAt s.pc.toNat 4) = .ok (i, []) → neverFaults i = true →
    Completes (exec (.cmdStep p) s) fun t => ∃ u, exec i s = .next u ∧
      t = { u with
        stepCount := s.stepCount + 1
        reply := if p then .witness (witnessOf Config.hash Config.oracle s i) else .ok }

/-- The order of the faults of a step ("[derived: from 49_step_codec_witness.md rule R341]", R414). A misaligned `pc`
comes first; with `pc` aligned the fetch succeeds, and a word that does not decode raises `DecodeError` or
`UnimplementedAtomic`; only then the instruction's own fault, of which its class has one; the oracle's failure is tested
before the offset. -/
def Obligations.FaultPriority : Prop :=
  (∀ (s : State) (p : Bool), s.exited = false → s.pc.toNat % 4 ≠ 0 →
    exec (.cmdStep p) s = .fault (.misalignedFetch s.pc)) ∧
  (∀ s : State, s.pc.toNat % 4 = 0 → ∃ w, fetch s = .ok w) ∧
  (∀ (s : State) (p : Bool) (w : IWord), s.exited = false → s.pc.toNat % 4 = 0 → fetch s = .ok w →
    (∀ i, decodeWord w ≠ .ok i) → exec (.cmdStep p) s = .fault (.decodeError w)) ∧
  (∀ (s : State) (p : Bool) (w : IWord), s.exited = false → s.pc.toNat % 4 = 0 → fetch s = .ok w → bits w 6 0 = 0x2f →
    exec (.cmdStep p) s = .fault (.unimplementedAtomic w)) ∧
  (∀ (s : State) (p : Bool) (w : IWord) (i : Instr) (f : Fault), s.exited = false → s.pc.toNat % 4 = 0 →
    fetch s = .ok w → decodeWord w = .ok i → exec i s = .fault f → exec (.cmdStep p) s = .fault f) ∧
  (∀ (s : State) (i : Instr) (f : Fault), i.isCommand = false → exec i s = .fault f → OwnFault i s f) ∧
  (∀ s : State, exec .ecall s = syscall syscallDefaults Config.oracle s) ∧
  ∀ (p : SyscallParams) (oracle : OracleFn) (s : State) (r : OracleFailure), s.readReg a7 = 63 → s.readReg a0 = 5 →
    oracle s.preimageKey = .fail r → syscall p oracle s = .fault (.oracleError s.preimageKey s.preimageOffset r)

/-- R420: a command that fails changes nothing but what stands at the port: its fault is its result, and the block goes on
with the next command; no error is sticky, since no command depends on the result of the one before. A failed `STEP` of
the driver, behind which no host command stands, is the outcome of the step itself. The form of this at the port is the
model's choice (log entries 1 and 4). -/
def Obligations.FaultedCommand : Prop :=
  (∀ (s : State) (i : Instr) (f : Fault), decodeRequest s.pendingRequest = .ok i → exec i s.accept = .fault f →
    (s.requests ≠ [] → step s = .next { s with requests := s.requests.tail, reply := .fault f }) ∧
    (s.requests = [] → step s = .fault f)) ∧
  ∀ (i : Instr) (s : State) (r : Reply), i.isCommand = true → exec i { s with reply := r } = exec i s

/-- R344: on an exited state `STEP` changes nothing and returns `Ok`; in proof mode the witness has the pre-state bytes,
an empty proof and no preimage part. -/
def Obligations.ExitedStepChangesNothing : Prop :=
  ∀ (s : State) (p : Bool), s.exited = true →
    Completes (exec (.cmdStep p) s) fun t => SameMachine s t ∧ t.requests = s.requests ∧ t.output = s.output ∧
      t.reply = if p then .witness ⟨encodeState Config.hash s, [], none⟩ else .ok

/-- Every `STEP` that returns `Ok` from a state that has not exited increments the counter by exactly 1 (R345), modulo
`2^64` ("[derived: from 00_scope.md rule R15]"); so the state encodes differently after it (R353). -/
def Obligations.StepCounter : Prop :=
  ∀ (s t : State) (p : Bool), s.exited = false → exec (.cmdStep p) s = .next t →
    t.stepCount.toNat = (s.stepCount.toNat + 1) % 2 ^ 64 ∧
    encodeState Config.hash t ≠ encodeState Config.hash s

/-- "The state change is the same in both modes" (R340): proof mode changes the reply and nothing else, and faults alike.
-/
def Obligations.ProofModeChangesOnlyTheReply : Prop :=
  ∀ s : State,
    (∀ t, exec (.cmdStep true) s = .next t → exec (.cmdStep false) s = .next { t with reply := .ok }) ∧
    (∀ t, exec (.cmdStep false) s = .next t → ∃ w, exec (.cmdStep true) s = .next { t with reply := .witness w }) ∧
    ∀ f, exec (.cmdStep true) s = .fault f ↔ exec (.cmdStep false) s = .fault f

/-! ## Reset (spec/70_reset_and_hazards.md) -/

/-- What the host observes after reset ("[derived: from 10_state.md rule R44]", R431); and the fields R44 lists.
`ENTRY_PC` and `HEAP_START` stand at the spec's default 0 (log entry 12). -/
def Obligations.ResetObservables : Prop :=
  exec .cmdRoot State.reset = .next (State.reset.answer (.bytes (zeroHash Config.hash 59).toList)) ∧
  exec .cmdEncodeState State.reset =
    .next (State.reset.answer (.bytes ((zeroHash Config.hash 59).toList ++ List.replicate 330 0))) ∧
  exec .cmdSerialize State.reset = .next (State.reset.answer (.bytes (List.replicate 8 0))) ∧
  (∀ (a : Word) (n : Nat), n ≤ 32 → a.toNat + n ≤ 2 ^ 64 →
    exec (.cmdRead a n) State.reset = .next (State.reset.answer (.bytes (List.replicate n 0)))) ∧
  (∀ p, exec (.cmdStep p) State.reset = .fault (.decodeError 0)) ∧
  (∀ r, State.reset.readReg r = 0) ∧ State.reset.pc = 0 ∧ (∀ a, State.reset.mem.byte a = 0) ∧
  State.reset.mem.pages Config.pageBits = [] ∧ State.reset.preimageKey = Vector.replicate 32 0 ∧
  State.reset.preimageOffset = 0 ∧ State.reset.exitCode = 0 ∧ State.reset.exited = false ∧
  State.reset.stepCount = 0 ∧ State.reset.heap = 0 ∧ State.reset.loadReservation = 0

/-- The machine right after reset meets the invariant of `StepKeepsInvariant` and is valid (R43). -/
def Obligations.InvariantAtReset : Prop := State.reset.Inv ∧ State.reset.OffsetValid Config.oracle

/-! ## Invariants -/

/-- Every step of the machine, whatever command it serves, keeps the invariant: register 0 holds 0, `pc` is aligned, the
exit code is 0 until the machine has exited (R21, R24, R30), and the memory is in canonical form. -/
def Obligations.StepKeepsInvariant : Prop :=
  ∀ s t : State, s.Inv → step s = .next t → t.Inv

/-- Every `STEP` from a valid state that does not fault yields a valid state, the clause on the preimage offset included
("[derived: from rules R21, R24, R30, and 48_system.md rules R311, R313]", R43). -/
def Obligations.StepKeepsValidState : Prop :=
  ∀ (s t : State) (p : Bool), s.Valid → s.OffsetValid Config.oracle → exec (.cmdStep p) s = .next t →
    t.Valid ∧ t.OffsetValid Config.oracle

/-- `loadReservation` is carried unchanged by everything but `DECODE_STATE`, which accepts any value for it; it stands at
bytes 98 to 105 of the encoding ("[derived: from rule R290 and 10_state.md rule R34]", R292). -/
def Obligations.ReservationCarried : Prop :=
  (∀ (i : Instr) (s t : State), (∀ b, i ≠ .cmdDecodeState b) → exec i s = .next t →
    t.loadReservation = s.loadReservation) ∧
  (∀ (H : HashFn) (s : State), bigEndianAt (encodeState H s) 98 8 = s.loadReservation.toNat) ∧
  ∀ (s : State) (v : Word), s.Valid →
    Completes (exec (.cmdDecodeState (encodeState Config.hash { s with loadReservation := v })) s) fun t =>
      t.loadReservation = v

/-- R27, R28 to R33: no instruction but ECALL changes the system state, and ECALL changes each piece of it only through
the syscall the spec names for it; `exited` is never cleared (R31). That the counter (R32: every completed step increments
it) is unchanged too is the model's choice: `exec` of a word is the word's own rule, and the `STEP` around it counts (log
entry 22). -/
def Obligations.SystemStateOnlyByEcall : Prop :=
  (∀ (i : Instr) (s t : State), i.isCommand = false → i ≠ .ecall → exec i s = .next t → SameSystem s t) ∧
  ∀ s t : State, exec .ecall s = .next t →
    (∀ r, r ≠ a0 → r ≠ a1 → t.readReg r = s.readReg r) ∧ t.pc = s.pc + 4 ∧
    (s.exited = true → t.exited = true) ∧ t.stepCount = s.stepCount ∧
    (s.readReg a7 ≠ 93 → s.readReg a7 ≠ 94 → t.exitCode = s.exitCode ∧ t.exited = s.exited) ∧
    (¬(s.readReg a7 = 222 ∧ s.readReg a0 = 0) → t.heap = s.heap) ∧
    (¬(s.readReg a7 = 64 ∧ s.readReg a0 = 6) → t.preimageKey = s.preimageKey) ∧
    (¬(s.readReg a7 = 63 ∧ s.readReg a0 = 5) → SameMemory s t) ∧
    (¬(s.readReg a7 = 63 ∧ s.readReg a0 = 5) → ¬(s.readReg a7 = 64 ∧ s.readReg a0 = 6) →
      t.preimageOffset = s.preimageOffset)

/-- R21: register 0 reads 0 at all times and a write to it is discarded; the encoding carries 8 zero bytes for it, and an
encoding that does not is refused. -/
def Obligations.RegisterZero : Prop :=
  (∀ s : State, s.readReg 0 = 0) ∧
  (∀ (s : State) (v : Word), s.writeReg 0 v = s) ∧
  (∀ (s : State) (r rd : Reg) (v : Word), rd ≠ 0 → (s.writeReg rd v).readReg r = if r = rd then v else s.readReg r) ∧
  (∀ (H : HashFn) (s : State), slice (encodeState H s) 106 8 = List.replicate 8 0) ∧
  ∀ (s : State) (b : List Byte), b.length = 362 → (b.getD 81 0 = 0 ∧ b.getD 80 0 = 0 ∨ b.getD 81 0 = 1) →
    slice b 106 8 ≠ List.replicate 8 0 → exec (.cmdDecodeState b) s = .fault (.codecError .x0NotZero)

/-! ## Memory (spec/20_memory.md) -/

/-- R83 to R85: what `MemRead` and `MemBytes` return and what `MemWrite` and `MemSetBytes` write, or the `AddressRange`
they raise. -/
def Obligations.MemoryPrimitives : Prop :=
  (∀ (m : Memory) (a : Word) (n : Nat), n = 1 ∨ n = 2 ∨ n = 4 ∨ n = 8 →
    (2 ^ 64 < a.toNat + n → memRead m a n = .error (.addressRange a n) ∧
      ∀ v, memWrite m a n v = .error (.addressRange a n)) ∧
    (a.toNat + n ≤ 2 ^ 64 →
      (∃ v, memRead m a n = .ok v ∧ v.toNat = littleEndian m a.toNat n) ∧
      ∀ v : Word, ∃ m', memWrite m a n v = .ok m' ∧
        WritesBytes m m' a.toNat n fun k => BitVec.ofNat 8 (v.toNat / 2 ^ (8 * k)))) ∧
  (∀ (m : Memory) (a : Word) (n : Nat),
    (0 < n → 2 ^ 64 < a.toNat + n → memBytes m a n = .error (.addressRange a n)) ∧
    (n = 0 ∨ a.toNat + n ≤ 2 ^ 64 →
      memBytes m a n = .ok ((List.range n).map fun k => m.byte (a.toNat + k)))) ∧
  ∀ (m : Memory) (a : Word) (b : List Byte),
    (0 < b.length → 2 ^ 64 < a.toNat + b.length → memSetBytes m a b = .error (.addressRange a b.length)) ∧
    (b = [] ∨ a.toNat + b.length ≤ 2 ^ 64 →
      ∃ m', memSetBytes m a b = .ok m' ∧ WritesBytes m m' a.toNat b.length fun k => b.getD k 0)

/-- A `READ` returns what the latest `WRITE` put there, byte by byte (R161, which the spec marks as derived from R51 and
R85), and what stood there before where that `WRITE` did not reach; the read of exactly what was written is the written
string. -/
def Obligations.ReadAfterWrite : Prop :=
  ∀ (s : State) (a : Word) (b : List Byte), s.mem.wf → b.length ≤ 32 → a.toNat + b.length ≤ 2 ^ 64 →
    Completes (exec (.cmdWrite a b) s) fun t =>
      exec (.cmdRead a b.length) t = .next (t.answer (.bytes b)) ∧
      ∀ (c : Word) (n : Nat), n ≤ 32 → c.toNat + n ≤ 2 ^ 64 →
        exec (.cmdRead c n) t = .next (t.answer (.bytes ((List.range n).map fun k =>
          if a.toNat ≤ c.toNat + k ∧ c.toNat + k < a.toNat + b.length then b.getD (c.toNat + k - a.toNat) 0
          else s.mem.byte (c.toNat + k))))

/-- A store to the address of an instruction is seen by a later fetch, with no fence between (R79, which the spec marks as
derived from R75 and R36): whatever the state, if its memory is the one the SW left and its `pc` the address stored to,
the fetched word is the stored one. -/
def Obligations.FetchSeesStores : Prop :=
  ∀ (s t u : State) (rs2 rs1 : Reg) (imm : BitVec 12), s.mem.wf → exec (.sw rs2 rs1 imm) s = .next t →
    u.mem = t.mem → u.pc = s.readReg rs1 + immIS imm → fetch u = .ok ((s.readReg rs2).setWidth 32)

/-! ## The commitment tree -/

/-- R55: the two equations that define the node values, for every hash function and every memory; R52: the bytes of a
leaf; R58: the root; R409: a gindex that names no node is refused. -/
def Obligations.NodeEquations : Prop :=
  ∀ (H : HashFn) (m : Memory),
    (∀ g, 2 ^ 59 ≤ g → g < 2 ^ 60 → node H m g = leafValue m (g - 2 ^ 59)) ∧
    (∀ g, 1 ≤ g → g < 2 ^ 59 →
      node H m g = H ((node H m (2 * g)).toList ++ (node H m (2 * g + 1)).toList)) ∧
    (∀ i k, (hk : k < 32) → (leafValue m i)[k] = m.byte (32 * i + k)) ∧
    root H m = node H m 1 ∧
    (∀ g, g = 0 ∨ 2 ^ 60 ≤ g → nodeAt H m g = .error (.gindexTooDeep g)) ∧
    ∀ g, 1 ≤ g → g < 2 ^ 60 → nodeAt H m g = .ok (node H m g)

/-- The table of zero hashes (R57), and that a node under which every byte is 0 has the zero hash of its height
("[derived: from rule R55 by induction on h]"). The bytes under node `2^d + i` are the `2^(64-d)` bytes at `i * 2^(64-d)`.
-/
def Obligations.ZeroHashes : Prop :=
  ∀ H : HashFn,
    zeroHash H 0 = Vector.replicate 32 0 ∧
    (∀ h, zeroHash H (h + 1) = H ((zeroHash H h).toList ++ (zeroHash H h).toList)) ∧
    ∀ (m : Memory) (d i : Nat), d ≤ 59 → i < 2 ^ d →
      (∀ a, i * 2 ^ (64 - d) ≤ a → a < (i + 1) * 2 ^ (64 - d) → m.byte a = 0) →
      node H m (2 ^ d + i) = zeroHash H (59 - d)

/-- R59: (a) the root is a function of the content alone; (b) two writes in either order give one root when the final
bytes agree; (c) a memory of zeros has the zero root, and writing zeros to it keeps it; (d) writing other bytes and then
the old ones back restores it. -/
def Obligations.RootProperties : Prop :=
  ∀ H : HashFn,
    (∀ m m' : Memory, (∀ a, a < 2 ^ 64 → m'.byte a = m.byte a) → root H m' = root H m) ∧
    (∀ (m : Memory) (a c : Nat) (b d : List Byte),
      (∀ x, x < 2 ^ 64 → ((m.setBytesAt a b).setBytesAt c d).byte x = ((m.setBytesAt c d).setBytesAt a b).byte x) →
      root H ((m.setBytesAt a b).setBytesAt c d) = root H ((m.setBytesAt c d).setBytesAt a b)) ∧
    (∀ m : Memory, (∀ a, a < 2 ^ 64 → m.byte a = 0) → root H m = zeroHash H 59) ∧
    (∀ a n : Nat, a + n ≤ 2 ^ 64 → root H (Memory.empty.setBytesAt a (List.replicate n 0)) = zeroHash H 59) ∧
    ∀ (m : Memory) (a : Nat) (b : List Byte), m.wf → a + b.length ≤ 2 ^ 64 →
      root H ((m.setBytesAt a b).setBytesAt a (m.bytesAt a b.length)) = root H m

/-- The proof of an address is its 59 siblings, leaf end first (R60), and folding it against the leaf reproduces the root,
for every hash function, memory and address (R61, "[derived: from rules R55, R60]"). -/
def Obligations.ProofSoundness : Prop :=
  ∀ (H : HashFn) (m : Memory) (a : Word),
    (proofOf H m a).length = 59 ∧
    (∀ j, j < 59 → (proofOf H m a)[j]? = some (node H m (((2 ^ 59 + a.toNat / 32) / 2 ^ j) ^^^ 1))) ∧
    foldProof H a (leafValue m (a.toNat / 32)) (proofOf H m a) = root H m

/-! ## The commands of the memory engine (spec/41_engine_commands.md) -/

/-- R160: `READ` returns the bytes at `addr`, or raises `EngineArg` or `AddressRange`; it changes no state. -/
def Obligations.ReadCommand : Prop :=
  ∀ (s : State) (a : Word) (n : Nat),
    (32 < n → exec (.cmdRead a n) s = .fault (.engineArg n)) ∧
    (0 < n → n ≤ 32 → 2 ^ 64 < a.toNat + n → exec (.cmdRead a n) s = .fault (.addressRange a n)) ∧
    (n ≤ 32 → n = 0 ∨ a.toNat + n ≤ 2 ^ 64 →
      exec (.cmdRead a n) s = .next (s.answer (.bytes ((List.range n).map fun k => s.mem.byte (a.toNat + k)))))

/-- R162: `WRITE` writes the bytes at `addr` and allocates their pages, or raises `EngineArg` or `AddressRange`; nothing
but the memory changes. -/
def Obligations.WriteCommand : Prop :=
  ∀ (s : State) (a : Word) (b : List Byte),
    (32 < b.length → exec (.cmdWrite a b) s = .fault (.engineArg b.length)) ∧
    (0 < b.length → b.length ≤ 32 → 2 ^ 64 < a.toNat + b.length →
      exec (.cmdWrite a b) s = .fault (.addressRange a b.length)) ∧
    (b.length ≤ 32 → b = [] ∨ a.toNat + b.length ≤ 2 ^ 64 →
      Completes (exec (.cmdWrite a b) s) fun t =>
        WritesBytes s.mem t.mem a.toNat b.length (fun k => b.getD k 0) ∧ t = { s with mem := t.mem, reply := .ok })

/-- R164, R166, R350, R353: the results of `ROOT`, `PROOF`, `ENCODE_STATE` and `STATE_HASH`; they change no state (R436).
-/
def Obligations.InspectionCommands : Prop :=
  ∀ s : State,
    exec .cmdRoot s = .next (s.answer (.bytes (node Config.hash s.mem 1).toList)) ∧
    (∀ a : Word, ∃ out : List Byte, exec (.cmdProof a) s = .next (s.answer (.bytes out)) ∧ out.length = 1888 ∧
      ∀ j, j < 59 → slice out (32 * j) 32 = (node Config.hash s.mem (((2 ^ 59 + a.toNat / 32) / 2 ^ j) ^^^ 1)).toList) ∧
    exec .cmdEncodeState s = .next (s.answer (.bytes (encodeState Config.hash s))) ∧
    exec .cmdStateHash s = .next (s.answer (.bytes (Config.hash (encodeState Config.hash s)).toList)) ∧
    (encodeState Config.hash s).length = 362

/-- R168: the image is the number of allocated pages and then, in ascending order, each page's index and its bytes; the
command returns it and changes no state. -/
def Obligations.SerializeFormat : Prop :=
  (∀ s : State, exec .cmdSerialize s = .next (s.answer (.bytes (serialize Config.pageBits s.mem)))) ∧
  ∀ (P : Nat) (m : Memory), 5 ≤ P → P ≤ 64 → m.wf →
    ∃ ps : List Nat, ps.Pairwise (fun p q => p < q) ∧ (∀ p, p ∈ ps ↔ ∃ l ∈ m.touched, p = l * 32 / 2 ^ P) ∧
      bigEndianAt (serialize P m) 0 8 = ps.length ∧
      (serialize P m).length = 8 + ps.length * (8 + 2 ^ P) ∧
      ∀ i p, ps[i]? = some p →
        bigEndianAt (serialize P m) (8 + i * (8 + 2 ^ P)) 8 = p ∧
        ∀ k, k < 2 ^ P → (serialize P m)[8 + i * (8 + 2 ^ P) + 8 + k]? = some (m.byte (p * 2 ^ P + k))

/-- `DESERIALIZE` refuses a string that is too short, of the wrong length, or with a page index out of range or not
above the one before it; otherwise the memory becomes the one described: each page its bytes, 0 everywhere else, and
exactly those pages allocated (R170). That it is in canonical form (`m.wf`) is about the model's own form of memory (log
entry 7). -/
def Obligations.DeserializeFormat : Prop :=
  (∀ (s : State) (b : List Byte),
    (∀ f, deserialize Config.pageBits b = .error f → exec (.cmdDeserialize b) s = .fault f) ∧
    (∀ m, deserialize Config.pageBits b = .ok m →
      exec (.cmdDeserialize b) s = .next { s with mem := m, reply := .ok })) ∧
  ∀ (P : Nat) (b : List Byte), 5 ≤ P → P ≤ 64 →
    let n := bigEndianAt b 0 8
    let index := fun i => bigEndianAt b (8 + i * (8 + 2 ^ P)) 8
    let good := (∀ i, i < n → index i < 2 ^ (64 - P)) ∧ ∀ i, i + 1 < n → index i < index (i + 1)
    (b.length < 8 → deserialize P b = .error (.serializationError .tooShort)) ∧
    (8 ≤ b.length → b.length ≠ 8 + n * (8 + 2 ^ P) → deserialize P b = .error (.serializationError .wrongLength)) ∧
    (8 ≤ b.length → b.length = 8 + n * (8 + 2 ^ P) → ¬good →
      ∃ c, deserialize P b = .error (.serializationError c)) ∧
    (8 ≤ b.length → b.length = 8 + n * (8 + 2 ^ P) → good →
      ∃ m, deserialize P b = .ok m ∧ m.wf ∧
        (∀ i k, i < n → k < 2 ^ P →
          m.byte (index i * 2 ^ P + k) = b.getD (8 + i * (8 + 2 ^ P) + 8 + k) 0) ∧
        (∀ a, (∀ i, i < n → a / 2 ^ P ≠ index i) → m.byte a = 0) ∧
        ∀ p, p ∈ m.pages P ↔ ∃ i, i < n ∧ p = index i)

/-- Reading back the image of a memory gives a memory with the same bytes, the same root, the same allocated pages and the
same image (R171, its last part "[derived: from rules R168, R170]"). -/
def Obligations.SerializeRoundTrip : Prop :=
  ∀ (H : HashFn) (P : Nat) (m : Memory), 5 ≤ P → P ≤ 64 → m.wf →
    ∃ m', deserialize P (serialize P m) = .ok m' ∧ (∀ a, m'.byte a = m.byte a) ∧ root H m' = root H m ∧
      m'.pages P = m.pages P ∧ serialize P m' = serialize P m

/-! ## The state codec (spec/49_step_codec_witness.md) -/

/-- R350: the layout of the 362 bytes. -/
def Obligations.EncodeStateLayout : Prop :=
  ∀ (H : HashFn) (s : State),
    let b := encodeState H s
    b.length = 362 ∧ slice b 0 32 = (root H s.mem).toList ∧ slice b 32 32 = s.preimageKey.toList ∧
    bigEndianAt b 64 8 = s.preimageOffset.toNat ∧ bigEndianAt b 72 8 = s.pc.toNat ∧ b[80]? = some s.exitCode ∧
    b[81]? = some (if s.exited then 1 else 0) ∧ bigEndianAt b 82 8 = s.stepCount.toNat ∧
    bigEndianAt b 90 8 = s.heap.toNat ∧ bigEndianAt b 98 8 = s.loadReservation.toNat ∧
    (∀ r : Reg, bigEndianAt b (106 + 8 * r.toNat) 8 = (s.readReg r).toNat) ∧
    exec .cmdEncodeState s = .next (s.answer (.bytes (encodeState Config.hash s)))

/-- R351: the checks of `DECODE_STATE` in their order, and then every field but the memory from its place. -/
def Obligations.DecodeStateChecks : Prop :=
  ∀ (s : State) (b : List Byte),
    let flag := b.getD 81 0
    let code := b.getD 80 0
    let flagOk := flag = 0 ∨ flag = 1
    let codeOk := ¬(flag = 0 ∧ code ≠ 0)
    let x0Ok := slice b 106 8 = List.replicate 8 0
    let pcOk := (b.getD 79 0).toNat % 4 = 0
    let rootOk := slice b 0 32 = (root Config.hash s.mem).toList
    (b.length ≠ 362 → exec (.cmdDecodeState b) s = .fault (.codecError .length)) ∧
    (b.length = 362 → ¬flagOk → exec (.cmdDecodeState b) s = .fault (.codecError .exitedFlag)) ∧
    (b.length = 362 → flagOk → ¬codeOk → exec (.cmdDecodeState b) s = .fault (.codecError .exitCodeWithoutExited)) ∧
    (b.length = 362 → flagOk → codeOk → ¬x0Ok → exec (.cmdDecodeState b) s = .fault (.codecError .x0NotZero)) ∧
    (b.length = 362 → flagOk → codeOk → x0Ok → ¬pcOk →
      exec (.cmdDecodeState b) s = .fault (.codecError .pcMisaligned)) ∧
    (b.length = 362 → flagOk → codeOk → x0Ok → pcOk → ¬rootOk →
      exec (.cmdDecodeState b) s = .fault (.codecError .memoryRootMismatch)) ∧
    (b.length = 362 → flagOk → codeOk → x0Ok → pcOk → rootOk →
      Completes (exec (.cmdDecodeState b) s) fun t =>
        t.preimageKey.toList = slice b 32 32 ∧ t.preimageOffset.toNat = bigEndianAt b 64 8 ∧
        t.pc.toNat = bigEndianAt b 72 8 ∧ t.exitCode = code ∧ (t.exited = true ↔ flag = 1) ∧
        t.stepCount.toNat = bigEndianAt b 82 8 ∧ t.heap.toNat = bigEndianAt b 90 8 ∧
        t.loadReservation.toNat = bigEndianAt b 98 8 ∧
        (∀ r : Reg, (t.readReg r).toNat = bigEndianAt b (106 + 8 * r.toNat) 8) ∧
        t.mem = s.mem ∧ t.requests = s.requests ∧ t.output = s.output ∧ t.reply = .ok)

/-- Decoding the encoding of a valid state succeeds and changes nothing; and the encoding is injective in the memory root
and the scalar fields ("[derived: from rules R350, R351]", R352). -/
def Obligations.CodecRoundTrip : Prop :=
  (∀ s : State, s.Valid →
    exec (.cmdDecodeState (encodeState Config.hash s)) s = .next { s with reply := .ok }) ∧
  ∀ (H : HashFn) (s t : State), encodeState H s = encodeState H t →
    root H s.mem = root H t.mem ∧ SameRegs s t ∧ t.pc = s.pc ∧ SamePreimage s t ∧ SameStatus s t ∧ t.heap = s.heap

/-! ## Loads and stores (spec/42_loads_stores.md) -/

/-- R182 to R188: the seven loads. -/
def Obligations.Loads : Prop :=
  ∀ (s : State) (rd rs1 : Reg) (imm : BitVec 12),
    let ea := BitVec.ofNat 64 ((s.readReg rs1).toNat + (immIS imm).toNat)
    EncodedAs (.lb rd rs1 imm) 0x00000003 0x0000707f ∧ LoadRule (.lb rd rs1 imm) s rd ea 1 (sextVal 8) ∧
    EncodedAs (.lh rd rs1 imm) 0x00001003 0x0000707f ∧ LoadRule (.lh rd rs1 imm) s rd ea 2 (sextVal 16) ∧
    EncodedAs (.lw rd rs1 imm) 0x00002003 0x0000707f ∧ LoadRule (.lw rd rs1 imm) s rd ea 4 (sextVal 32) ∧
    EncodedAs (.ld rd rs1 imm) 0x00003003 0x0000707f ∧ LoadRule (.ld rd rs1 imm) s rd ea 8 (BitVec.ofNat 64) ∧
    EncodedAs (.lbu rd rs1 imm) 0x00004003 0x0000707f ∧ LoadRule (.lbu rd rs1 imm) s rd ea 1 (BitVec.ofNat 64) ∧
    EncodedAs (.lhu rd rs1 imm) 0x00005003 0x0000707f ∧ LoadRule (.lhu rd rs1 imm) s rd ea 2 (BitVec.ofNat 64) ∧
    EncodedAs (.lwu rd rs1 imm) 0x00006003 0x0000707f ∧ LoadRule (.lwu rd rs1 imm) s rd ea 4 (BitVec.ofNat 64)

/-- R189 to R192: the four stores, with their frame: the address stored to is the effective address. -/
def Obligations.Stores : Prop :=
  ∀ (s : State) (rs2 rs1 : Reg) (imm : BitVec 12),
    let ea := BitVec.ofNat 64 ((s.readReg rs1).toNat + (immIS imm).toNat)
    EncodedAs (.sb rs2 rs1 imm) 0x00000023 0x0000707f ∧ StoreRule (.sb rs2 rs1 imm) s ea 1 (s.readReg rs2) ∧
    EncodedAs (.sh rs2 rs1 imm) 0x00001023 0x0000707f ∧ StoreRule (.sh rs2 rs1 imm) s ea 2 (s.readReg rs2) ∧
    EncodedAs (.sw rs2 rs1 imm) 0x00002023 0x0000707f ∧ StoreRule (.sw rs2 rs1 imm) s ea 4 (s.readReg rs2) ∧
    EncodedAs (.sd rs2 rs1 imm) 0x00003023 0x0000707f ∧ StoreRule (.sd rs2 rs1 imm) s ea 8 (s.readReg rs2)

/-! ## Branches and jumps (spec/43_branches.md, spec/45_jumps.md) -/

/-- R200 to R207: the six branches. -/
def Obligations.Branches : Prop :=
  ∀ (s : State) (rs1 rs2 : Reg) (o : BitVec 13),
    let a := s.readReg rs1
    let b := s.readReg rs2
    let target := BitVec.ofNat 64 (s.pc.toNat + (immB o).toNat)
    BranchRule (.beq rs1 rs2 o) s (a = b) target ∧
    BranchRule (.bne rs1 rs2 o) s (a ≠ b) target ∧
    BranchRule (.blt rs1 rs2 o) s (a.toInt < b.toInt) target ∧
    BranchRule (.bge rs1 rs2 o) s (b.toInt ≤ a.toInt) target ∧
    BranchRule (.bltu rs1 rs2 o) s (a.toNat < b.toNat) target ∧
    BranchRule (.bgeu rs1 rs2 o) s (b.toNat ≤ a.toNat) target ∧
    (o.toNat % 2 = 0 →
      EncodedAs (.beq rs1 rs2 o) 0x00000063 0x0000707f ∧ EncodedAs (.bne rs1 rs2 o) 0x00001063 0x0000707f ∧
      EncodedAs (.blt rs1 rs2 o) 0x00004063 0x0000707f ∧ EncodedAs (.bge rs1 rs2 o) 0x00005063 0x0000707f ∧
      EncodedAs (.bltu rs1 rs2 o) 0x00006063 0x0000707f ∧ EncodedAs (.bgeu rs1 rs2 o) 0x00007063 0x0000707f)

/-- R260 to R263: the two jumps; JALR clears bit 0 of the sum, and a JALR to its own base register jumps to the old value.
-/
def Obligations.Jumps : Prop :=
  (∀ (s : State) (rd : Reg) (o : BitVec 21),
    JumpRule (.jal rd o) s rd (BitVec.ofNat 64 (s.pc.toNat + (immJ o).toNat)) ∧
    (o.toNat % 2 = 0 → EncodedAs (.jal rd o) 0x0000006f 0x0000007f)) ∧
  ∀ (s : State) (rd rs1 : Reg) (imm : BitVec 12),
    JumpRule (.jalr rd rs1 imm) s rd
      (BitVec.ofNat 64 (((s.readReg rs1).toNat + (immIS imm).toNat) % 2 ^ 64 / 2 * 2)) ∧
    EncodedAs (.jalr rd rs1 imm) 0x00000067 0x0000707f

/-! ## The integer ALU (spec/44_alu.md) -/

/-- R211 to R216, R239, R240: the operations on a 12-bit immediate that are no shifts, and LUI and AUIPC. -/
def Obligations.AluImmediate : Prop :=
  (∀ (s : State) (rd rs1 : Reg) (imm : BitVec 12),
    let a := s.readReg rs1
    let m := immIS imm
    EncodedAs (.addi rd rs1 imm) 0x00000013 0x0000707f ∧
    ResultRule (.addi rd rs1 imm) s rd (BitVec.ofNat 64 (a.toNat + m.toNat)) ∧
    EncodedAs (.slti rd rs1 imm) 0x00002013 0x0000707f ∧
    ResultRule (.slti rd rs1 imm) s rd (if a.toInt < m.toInt then 1 else 0) ∧
    EncodedAs (.sltiu rd rs1 imm) 0x00003013 0x0000707f ∧
    ResultRule (.sltiu rd rs1 imm) s rd (if a.toNat < m.toNat then 1 else 0) ∧
    EncodedAs (.xori rd rs1 imm) 0x00004013 0x0000707f ∧ ResultRule (.xori rd rs1 imm) s rd (a ^^^ m) ∧
    EncodedAs (.ori rd rs1 imm) 0x00006013 0x0000707f ∧ ResultRule (.ori rd rs1 imm) s rd (a ||| m) ∧
    EncodedAs (.andi rd rs1 imm) 0x00007013 0x0000707f ∧ ResultRule (.andi rd rs1 imm) s rd (a &&& m)) ∧
  ∀ (s : State) (rd : Reg) (imm : BitVec 20),
    EncodedAs (.lui rd imm) 0x00000037 0x0000007f ∧
    ResultRule (.lui rd imm) s rd (sextVal 32 (imm.toNat * 4096)) ∧
    EncodedAs (.auipc rd imm) 0x00000017 0x0000007f ∧
    ResultRule (.auipc rd imm) s rd (BitVec.ofNat 64 (s.pc.toNat + (sextVal 32 (imm.toNat * 4096)).toNat))

/-- R220, R221, R223, R224, R227 to R229: the register operations that are no shifts. -/
def Obligations.AluRegister : Prop :=
  ∀ (s : State) (rd rs1 rs2 : Reg),
    let a := s.readReg rs1
    let b := s.readReg rs2
    EncodedAs (.add rd rs1 rs2) 0x00000033 0xfe00707f ∧
    ResultRule (.add rd rs1 rs2) s rd (BitVec.ofNat 64 (a.toNat + b.toNat)) ∧
    EncodedAs (.sub rd rs1 rs2) 0x40000033 0xfe00707f ∧
    ResultRule (.sub rd rs1 rs2) s rd (BitVec.ofInt 64 (a.toNat - b.toNat)) ∧
    EncodedAs (.slt rd rs1 rs2) 0x00002033 0xfe00707f ∧
    ResultRule (.slt rd rs1 rs2) s rd (if a.toInt < b.toInt then 1 else 0) ∧
    EncodedAs (.sltu rd rs1 rs2) 0x00003033 0xfe00707f ∧
    ResultRule (.sltu rd rs1 rs2) s rd (if a.toNat < b.toNat then 1 else 0) ∧
    EncodedAs (.xor rd rs1 rs2) 0x00004033 0xfe00707f ∧ ResultRule (.xor rd rs1 rs2) s rd (a ^^^ b) ∧
    EncodedAs (.or rd rs1 rs2) 0x00006033 0xfe00707f ∧ ResultRule (.or rd rs1 rs2) s rd (a ||| b) ∧
    EncodedAs (.and rd rs1 rs2) 0x00007033 0xfe00707f ∧ ResultRule (.and rd rs1 rs2) s rd (a &&& b)

/-- R217 to R219, R222, R225, R226: the 64-bit shifts; a register shift takes the low 6 bits of its amount (R98). -/
def Obligations.AluShift : Prop :=
  ∀ (s : State) (rd rs1 rs2 : Reg) (sh : BitVec 6),
    let a := s.readReg rs1
    let n := (s.readReg rs2).toNat % 64
    EncodedAs (.slli rd rs1 sh) 0x00001013 0xfc00707f ∧
    ResultRule (.slli rd rs1 sh) s rd (BitVec.ofNat 64 (a.toNat * 2 ^ sh.toNat)) ∧
    EncodedAs (.srli rd rs1 sh) 0x00005013 0xfc00707f ∧
    ResultRule (.srli rd rs1 sh) s rd (BitVec.ofNat 64 (a.toNat / 2 ^ sh.toNat)) ∧
    EncodedAs (.srai rd rs1 sh) 0x40005013 0xfc00707f ∧
    ResultRule (.srai rd rs1 sh) s rd (BitVec.ofInt 64 (a.toInt / 2 ^ sh.toNat)) ∧
    EncodedAs (.sll rd rs1 rs2) 0x00001033 0xfe00707f ∧
    ResultRule (.sll rd rs1 rs2) s rd (BitVec.ofNat 64 (a.toNat * 2 ^ n)) ∧
    EncodedAs (.srl rd rs1 rs2) 0x00005033 0xfe00707f ∧
    ResultRule (.srl rd rs1 rs2) s rd (BitVec.ofNat 64 (a.toNat / 2 ^ n)) ∧
    EncodedAs (.sra rd rs1 rs2) 0x40005033 0xfe00707f ∧
    ResultRule (.sra rd rs1 rs2) s rd (BitVec.ofInt 64 (a.toInt / 2 ^ n))

/-- R230 to R238: the 32-bit operations. `lo` and `slo` are the unsigned and the signed reading of the low 32 bits; a
register shift takes the low 5 bits of its amount (R98). -/
def Obligations.AluWord : Prop :=
  ∀ (s : State) (rd rs1 rs2 : Reg) (imm : BitVec 12) (sh : BitVec 5),
    let a := s.readReg rs1
    let b := s.readReg rs2
    let lo := a.toNat % 2 ^ 32
    let slo := signedVal 32 lo
    let n := b.toNat % 32
    EncodedAs (.addiw rd rs1 imm) 0x0000001b 0x0000707f ∧
    ResultRule (.addiw rd rs1 imm) s rd (sextVal 32 ((a.toNat + (immIS imm).toNat) % 2 ^ 32)) ∧
    EncodedAs (.slliw rd rs1 sh) 0x0000101b 0xfe00707f ∧
    ResultRule (.slliw rd rs1 sh) s rd (sextVal 32 (a.toNat * 2 ^ sh.toNat % 2 ^ 32)) ∧
    EncodedAs (.srliw rd rs1 sh) 0x0000501b 0xfe00707f ∧
    ResultRule (.srliw rd rs1 sh) s rd (sextVal 32 (lo / 2 ^ sh.toNat)) ∧
    EncodedAs (.sraiw rd rs1 sh) 0x4000501b 0xfe00707f ∧
    ResultRule (.sraiw rd rs1 sh) s rd (BitVec.ofInt 64 (slo / 2 ^ sh.toNat)) ∧
    EncodedAs (.addw rd rs1 rs2) 0x0000003b 0xfe00707f ∧
    ResultRule (.addw rd rs1 rs2) s rd (sextVal 32 ((a.toNat + b.toNat) % 2 ^ 32)) ∧
    EncodedAs (.subw rd rs1 rs2) 0x4000003b 0xfe00707f ∧
    ResultRule (.subw rd rs1 rs2) s rd (sextVal 32 ((a.toNat + 2 ^ 64 - b.toNat) % 2 ^ 32)) ∧
    EncodedAs (.sllw rd rs1 rs2) 0x0000103b 0xfe00707f ∧
    ResultRule (.sllw rd rs1 rs2) s rd (sextVal 32 (a.toNat * 2 ^ n % 2 ^ 32)) ∧
    EncodedAs (.srlw rd rs1 rs2) 0x0000503b 0xfe00707f ∧
    ResultRule (.srlw rd rs1 rs2) s rd (sextVal 32 (lo / 2 ^ n)) ∧
    EncodedAs (.sraw rd rs1 rs2) 0x4000503b 0xfe00707f ∧
    ResultRule (.sraw rd rs1 rs2) s rd (BitVec.ofInt 64 (slo / 2 ^ n))

/-! ## Multiply and divide (spec/46_muldiv.md) -/

/-- R270 to R273, R278: the multiplies. -/
def Obligations.Multiplies : Prop :=
  ∀ (s : State) (rd rs1 rs2 : Reg),
    let a := s.readReg rs1
    let b := s.readReg rs2
    EncodedAs (.mul rd rs1 rs2) 0x02000033 0xfe00707f ∧
    ResultRule (.mul rd rs1 rs2) s rd (BitVec.ofNat 64 (a.toNat * b.toNat)) ∧
    EncodedAs (.mulh rd rs1 rs2) 0x02001033 0xfe00707f ∧
    ResultRule (.mulh rd rs1 rs2) s rd (BitVec.ofInt 64 (a.toInt * b.toInt / 2 ^ 64)) ∧
    EncodedAs (.mulhsu rd rs1 rs2) 0x02002033 0xfe00707f ∧
    ResultRule (.mulhsu rd rs1 rs2) s rd (BitVec.ofInt 64 (a.toInt * b.toNat / 2 ^ 64)) ∧
    EncodedAs (.mulhu rd rs1 rs2) 0x02003033 0xfe00707f ∧
    ResultRule (.mulhu rd rs1 rs2) s rd (BitVec.ofNat 64 (a.toNat * b.toNat / 2 ^ 64)) ∧
    EncodedAs (.mulw rd rs1 rs2) 0x0200003b 0xfe00707f ∧
    ResultRule (.mulw rd rs1 rs2) s rd (sextVal 32 (a.toNat * b.toNat % 2 ^ 32))

/-- R274 to R277: the 64-bit divides and remainders, the zero divisor and the overflow pair included. -/
def Obligations.Divides : Prop :=
  ∀ (s : State) (rd rs1 rs2 : Reg),
    let a := s.readReg rs1
    let b := s.readReg rs2
    let overflow := a = 0x8000000000000000 ∧ b = 0xffffffffffffffff
    EncodedAs (.div rd rs1 rs2) 0x02004033 0xfe00707f ∧
    ResultRule (.div rd rs1 rs2) s rd (if b = 0 then 0xffffffffffffffff
      else if overflow then 0x8000000000000000 else BitVec.ofInt 64 (a.toInt.tdiv b.toInt)) ∧
    EncodedAs (.divu rd rs1 rs2) 0x02005033 0xfe00707f ∧
    ResultRule (.divu rd rs1 rs2) s rd (if b = 0 then 0xffffffffffffffff else BitVec.ofNat 64 (a.toNat / b.toNat)) ∧
    EncodedAs (.rem rd rs1 rs2) 0x02006033 0xfe00707f ∧
    ResultRule (.rem rd rs1 rs2) s rd (if b = 0 then a
      else if overflow then 0 else BitVec.ofInt 64 (a.toInt.tmod b.toInt)) ∧
    EncodedAs (.remu rd rs1 rs2) 0x02007033 0xfe00707f ∧
    ResultRule (.remu rd rs1 rs2) s rd (if b = 0 then a else BitVec.ofNat 64 (a.toNat % b.toNat))

/-- R279 to R282: the 32-bit divides and remainders: only the low words are read, and the 32-bit result is sign-extended.
-/
def Obligations.DividesWord : Prop :=
  ∀ (s : State) (rd rs1 rs2 : Reg),
    let a := (s.readReg rs1).toNat % 2 ^ 32
    let b := (s.readReg rs2).toNat % 2 ^ 32
    let sa := signedVal 32 a
    let sb := signedVal 32 b
    let overflow := a = 0x80000000 ∧ b = 0xffffffff
    EncodedAs (.divw rd rs1 rs2) 0x0200403b 0xfe00707f ∧
    ResultRule (.divw rd rs1 rs2) s rd (if b = 0 then 0xffffffffffffffff
      else if overflow then 0xffffffff80000000 else BitVec.ofInt 64 (sa.tdiv sb)) ∧
    EncodedAs (.divuw rd rs1 rs2) 0x0200503b 0xfe00707f ∧
    ResultRule (.divuw rd rs1 rs2) s rd (if b = 0 then 0xffffffffffffffff else sextVal 32 (a / b)) ∧
    EncodedAs (.remw rd rs1 rs2) 0x0200603b 0xfe00707f ∧
    ResultRule (.remw rd rs1 rs2) s rd (if b = 0 then sextVal 32 a
      else if overflow then 0 else BitVec.ofInt 64 (sa.tmod sb)) ∧
    EncodedAs (.remuw rd rs1 rs2) 0x0200703b 0xfe00707f ∧
    ResultRule (.remuw rd rs1 rs2) s rd (if b = 0 then sextVal 32 a else sextVal 32 (a % b))

/-! ## System instructions and syscalls (spec/48_system.md) -/

/-- `exit` and `exit_group` keep the low byte of `a0`, set `exited`, and change no general register (R305). The counter,
which the rule says is incremented like for any completed step, is unchanged by `exec` of the word by the model's choice:
the `STEP` around it counts (log entry 22; `StepCounter`). -/
def Obligations.EcallExit : Prop :=
  ∀ s : State, s.readReg a7 = 93 ∨ s.readReg a7 = 94 →
    Completes (exec .ecall s) fun t =>
      t.exitCode.toNat = (s.readReg a0).toNat % 256 ∧ t.exited = true ∧ t.pc = s.pc + 4 ∧ SameRegs s t ∧
      SameMemory s t ∧ SamePreimage s t ∧ t.stepCount = s.stepCount ∧ t.loadReservation = s.loadReservation ∧
      t.heap = s.heap ∧ SamePort s t ∧
      statusOf t = if (s.readReg a0).toNat % 256 = 0 then .success else .failure ((s.readReg a0).setWidth 8)

/-- R307, R308, R315: `brk`, `mmap` with and without a hint, and the no-op syscalls, whatever the parameters of the table
are; the machine passes the spec's defaults (log entries 8 and 9), whose numbers are not among the six others. -/
def Obligations.EcallBrkMmapNoop : Prop :=
  (∀ s : State, exec .ecall s = syscall syscallDefaults Config.oracle s) ∧
  (∀ n ∈ syscallDefaults.noop, n.toNat ∉ [63, 64, 93, 94, 214, 222]) ∧
  ∀ (p : SyscallParams) (oracle : OracleFn) (s : State),
    (s.readReg a7 = 214 → Completes (syscall p oracle s) fun t => SysReturnsOnly s t 0x40000000 0) ∧
    (s.readReg a7 = 222 → s.readReg a0 = 0 →
      Completes (syscall p oracle s) fun t =>
        t.heap = BitVec.ofNat 64 (s.heap.toNat + (p.round (s.readReg a1)).toNat) ∧
        SysReturns s t (if p.returnsNew then t.heap else s.heap) 0 ∧
        SameMemory s t ∧ SamePreimage s t ∧ SameStatus s t ∧ SamePort s t) ∧
    (s.readReg a7 = 222 → s.readReg a0 ≠ 0 →
      Completes (syscall p oracle s) fun t => SysReturnsOnly s t (s.readReg a0) 0) ∧
    ((s.readReg a7).toNat ∉ [63, 64, 93, 94, 214, 222] → s.readReg a7 ∈ p.noop →
      Completes (syscall p oracle s) fun t => SysReturnsOnly s t 0 0)

/-- R309, R312, R316: `read` on stdin and hint-read, the error of a descriptor that is not legal for the call, and the
fault of an unrecognised number, compared whole; whatever the parameters of the table are, of which the machine passes the
spec's defaults (log entries 8 and 10). -/
def Obligations.EcallReadAndErrors : Prop :=
  (∀ s : State, exec .ecall s = syscall syscallDefaults Config.oracle s) ∧
  ∀ (p : SyscallParams) (oracle : OracleFn) (s : State),
    (s.readReg a7 = 63 → s.readReg a0 = 0 → Completes (syscall p oracle s) fun t => SysReturnsOnly s t 0 0) ∧
    (s.readReg a7 = 63 → s.readReg a0 = 3 →
      Completes (syscall p oracle s) fun t => SysReturnsOnly s t (s.readReg a2) 0) ∧
    (s.readReg a7 = 63 → (s.readReg a0).toNat ∉ [0, 3, 5] →
      Completes (syscall p oracle s) fun t => SysReturnsOnly s t 0xffffffffffffffff p.badf) ∧
    (s.readReg a7 = 64 → (s.readReg a0).toNat ∉ [1, 2, 4, 6] →
      Completes (syscall p oracle s) fun t => SysReturnsOnly s t 0xffffffffffffffff p.badf) ∧
    ((s.readReg a7).toNat ∉ [63, 64, 93, 94, 214, 222] → s.readReg a7 ∉ p.noop →
      syscall p oracle s = .fault (.unsupportedSyscall (s.readReg a7)))

/-- R311: `read` on preimage-read, for every oracle: the failure, the offset beyond the value, and the delivery of at most
the bytes that fit in the leaf of the address. The prefix is the preimage's length wherever 64 bits hold it; for a longer
one it is a free value, and the statement holds whatever that is (log entry 17). -/
def Obligations.EcallPreimageRead : Prop :=
  (∀ s : State, exec .ecall s = syscall syscallDefaults Config.oracle s) ∧
  (∀ n : Nat, n < 2 ^ 64 → (lengthWord n).toNat = n) ∧
  ∀ (p : SyscallParams) (oracle : OracleFn) (s : State), s.readReg a7 = 63 → s.readReg a0 = 5 →
    (∀ r, oracle s.preimageKey = .fail r →
      syscall p oracle s = .fault (.oracleError s.preimageKey s.preimageOffset r)) ∧
    ∀ P, oracle s.preimageKey = .preimage P →
      let V := be64 (lengthWord P.length) ++ P
      let addr := s.readReg a1
      let n := min (min (s.readReg a2).toNat (32 - addr.toNat % 32)) (V.length - s.preimageOffset.toNat)
      (V.length < s.preimageOffset.toNat →
        syscall p oracle s = .fault (.oracleError s.preimageKey s.preimageOffset .offsetBeyondValue)) ∧
      (s.preimageOffset.toNat ≤ V.length →
        Completes (syscall p oracle s) fun t =>
          WritesBytes s.mem t.mem addr.toNat n (fun k => V.getD (s.preimageOffset.toNat + k) 0) ∧
          t.preimageOffset = s.preimageOffset + BitVec.ofNat 64 n ∧ SysReturns s t (BitVec.ofNat 64 n) 0 ∧
          t.preimageKey = s.preimageKey ∧ SameStatus s t ∧ t.heap = s.heap ∧ SamePort s t)

/-- R313: `write` on preimage-write shifts the bytes of one leaf into the key and resets the offset. -/
def Obligations.EcallKeyWrite : Prop :=
  ∀ s : State, s.readReg a7 = 64 → s.readReg a0 = 6 →
    let addr := s.readReg a1
    let n := min (s.readReg a2).toNat (32 - addr.toNat % 32)
    Completes (exec .ecall s) fun t =>
      (∀ k, (hk : k < 32) → t.preimageKey[k] =
        if h : k + n < 32 then s.preimageKey[k + n] else s.mem.byte (addr.toNat + (k + n - 32))) ∧
      t.preimageOffset = 0 ∧ SysReturns s t (BitVec.ofNat 64 n) 0 ∧ SameMemory s t ∧ SameStatus s t ∧
      t.heap = s.heap ∧ SamePort s t

/-- R314: `write` on stdout, stderr and hint-write emits the bytes, or raises `AddressRange` and emits nothing. -/
def Obligations.EcallEmit : Prop :=
  ∀ s : State, s.readReg a7 = 64 → s.readReg a0 = 1 ∨ s.readReg a0 = 2 ∨ s.readReg a0 = 4 →
    let addr := s.readReg a1
    let count := (s.readReg a2).toNat
    (0 < count → 2 ^ 64 < addr.toNat + count → exec .ecall s = .fault (.addressRange addr count)) ∧
    (count = 0 ∨ addr.toNat + count ≤ 2 ^ 64 →
      Completes (exec .ecall s) fun t =>
        t.output = s.output ++ [⟨s.readReg a0, (List.range count).map fun k => s.mem.byte (addr.toNat + k)⟩] ∧
        SysReturns s t (s.readReg a2) 0 ∧ SameMemory s t ∧ SamePreimage s t ∧ SameStatus s t ∧ t.heap = s.heap ∧
        t.requests = s.requests ∧ t.reply = s.reply)

/-- EBREAK, FENCE and FENCE.I only advance `pc`, whatever their fields (R317 to R319). The counter, which R319 says
increments, is unchanged by `exec` of the word by the model's choice: the `STEP` around it counts (log entry 22;
`StepCounter`). -/
def Obligations.FencesAndBreak : Prop :=
  (∀ s : State, EncodedAs .ebreak 0x00100073 0xffffffff ∧
    Completes (exec .ebreak s) fun t => OnlyPc s t (s.pc + 4)) ∧
  (∀ (s : State) (fm pred succ : BitVec 4) (rs1 rd : Reg),
    EncodedAs (.fence fm pred succ rs1 rd) 0x0000000f 0x0000707f ∧
    Completes (exec (.fence fm pred succ rs1 rd) s) fun t => OnlyPc s t (s.pc + 4)) ∧
  ∀ (s : State) (imm : BitVec 12) (rs1 rd : Reg),
    EncodedAs (.fenceI imm rs1 rd) 0x0000100f 0x0000707f ∧
    Completes (exec (.fenceI imm rs1 rd) s) fun t => OnlyPc s t (s.pc + 4)

/-- R290: every word with the AMO opcode raises `UnimplementedAtomic(w)`, whatever its other fields. -/
def Obligations.ASlotStops : Prop :=
  (∀ (f5 : BitVec 5) (aq rl : BitVec 1) (rs2 rs1 : Reg) (f3 : BitVec 3) (rd : Reg) (s : State),
    EncodedAs (.aSlot f5 aq rl rs2 rs1 f3 rd) 0x0000002f 0x0000007f ∧
    ∃ w, encode (.aSlot f5 aq rl rs2 rs1 f3 rd) = .word w ∧
      exec (.aSlot f5 aq rl rs2 rs1 f3 rd) s = .fault (.unimplementedAtomic w)) ∧
  ∀ (s : State) (p : Bool) (w : IWord), s.exited = false → s.pc.toNat % 4 = 0 → fetch s = .ok w →
    w &&& 0x0000007f = 0x0000002f → exec (.cmdStep p) s = .fault (.unimplementedAtomic w)

/-! ## The arithmetic unit (spec/40_arith_unit.md) -/

/-- R121 to R127: add, subtract, multiply, divide and remainder at every width, the zero divisor and the overflow pair
included. -/
def Obligations.ArithmeticUnit : Prop :=
  ∀ (W : Nat) (a b : BitVec W), 0 < W →
    (auAdd a b).toNat = (a.toNat + b.toNat) % 2 ^ W ∧
    (auSub a b).toNat = (if b.toNat ≤ a.toNat then a.toNat - b.toNat else a.toNat + 2 ^ W - b.toNat) ∧
    (auMul a b).toNat = a.toNat * b.toNat % 2 ^ W ∧
    (auDiv a b).toNat = (if b.toNat = 0 then 0 else a.toNat / b.toNat) ∧
    (auSdiv a b).toInt = (if b.toNat = 0 then 0
      else if a.toInt = -2 ^ (W - 1) ∧ b.toInt = -1 then -2 ^ (W - 1) else a.toInt.tdiv b.toInt) ∧
    (auMod a b).toNat = (if b.toNat = 0 then 0 else a.toNat % b.toNat) ∧
    (auSmod a b).toInt = (if b.toNat = 0 then 0
      else if a.toInt < 0 then -((a.toInt.natAbs % b.toInt.natAbs : Nat) : Int)
      else ((a.toInt.natAbs % b.toInt.natAbs : Nat) : Int))

/-- R128 to R131: the shifts with the whole amount counted, and sign extension at a byte, at every width that is a whole
number of bytes (the unit's two are 64 and 256). -/
def Obligations.ArithmeticUnitShifts : Prop :=
  ∀ (W : Nat) (n v : BitVec W), 0 < W → W % 8 = 0 →
    (auShl n v).toNat = (if W ≤ n.toNat then 0 else v.toNat * 2 ^ n.toNat % 2 ^ W) ∧
    (auShr n v).toNat = (if W ≤ n.toNat then 0 else v.toNat / 2 ^ n.toNat) ∧
    (auSar n v).toInt = (if W ≤ n.toNat then (if v.toInt < 0 then -1 else 0) else v.toInt / 2 ^ n.toNat) ∧
    (auSignextend n v).toNat =
      (let t := 8 * n.toNat + 7
       let low := v.toNat % 2 ^ (t + 1)
       if W / 8 - 1 ≤ n.toNat then v.toNat
       else if 2 ^ t ≤ low then low + 2 ^ W - 2 ^ (t + 1) else low)

/-- What the spec derives of the unit, each marked so by it: the high halves of a product are bits 127:64 of the 256-bit
product of the extended operands (R136, "[derived: from rules R123, R129, R132]"); the dividend is quotient times divisor
plus remainder for all operands (R276, "[derived: from rule R274 and this rule]", for the unsigned one R275 and R277); and
the comparisons, which the source's list does not name (R134, "[derived: from 43_branches.md and 44_alu.md rules R212,
R213]"). -/
def Obligations.ArithmeticUnitDerived : Prop :=
  (∀ (s : State) (rd rs1 rs2 : Reg),
    let a := s.readReg rs1
    let b := s.readReg rs2
    ResultRule (.mulhu rd rs1 rs2) s rd (trunc64 (auShr 64 (auMul (zext256 a) (zext256 b)))) ∧
    ResultRule (.mulh rd rs1 rs2) s rd (trunc64 (auShr 64 (auMul (sext256 a) (sext256 b)))) ∧
    ResultRule (.mulhsu rd rs1 rs2) s rd (trunc64 (auShr 64 (auMul (sext256 a) (zext256 b))))) ∧
  (∀ a b : Word, a = quotSigned a b * b + remSigned a b ∧ a = quotUnsigned a b * b + remUnsigned a b) ∧
  ∀ (W : Nat) (a b : BitVec W), 0 < W →
    (auLt a b).toNat = (if a.toNat < b.toNat then 1 else 0) ∧ (auGt a b).toNat = (if b.toNat < a.toNat then 1 else 0) ∧
    (auSlt a b).toNat = (if a.toInt < b.toInt then 1 else 0) ∧ (auSgt a b).toNat = (if b.toInt < a.toInt then 1 else 0) ∧
    (auEq a b).toNat = (if a.toNat = b.toNat then 1 else 0) ∧ (auIszero a).toNat = (if a.toNat = 0 then 1 else 0)

/-! ## The witness (spec/49_step_codec_witness.md) -/

/-- R360 to R362, R365: the witness of a completed `STEP` in proof mode: the pre-state bytes; the proofs of the leaves the
step touched ("[derived: from the instruction rules named]", R342), all on the memory before it, the fetch leaf first; and
the preimage part exactly for a `read` on fd 5. The verifier's oracle call it is turned into goes by the type tag of the
key (R365); a type that is neither Keccak256 nor local fails that encoding. Model's choices in the oracle-call clauses:
the ident is bytes 1 to 31 of the key (log entry 19), and `word` and `size` are the preimage without its prefix and the
length of that (log entry 24). -/
def Obligations.WitnessContents : Prop :=
  (∀ (s t : State) (i : Instr), s.exited = false → decodeBytes (s.mem.bytesAt s.pc.toNat 4) = .ok (i, []) →
    exec (.cmdStep true) s = .next t → t.reply = .witness (witnessOf Config.hash Config.oracle s i)) ∧
  (∀ (H : HashFn) (oracle : OracleFn) (s : State) (i : Instr),
    let w := witnessOf H oracle s i
    let P := fun a : Word => (proofOf H s.mem a).flatMap fun d => d.toList
    let reads := i = .ecall ∧ s.readReg a7 = 63 ∧ s.readReg a0 = 5
    let writes := i = .ecall ∧ s.readReg a7 = 64 ∧ s.readReg a0 = 6
    let fits := min (s.readReg a2).toNat (32 - (s.readReg a1).toNat % 32)
    w.stateData = encodeState H s ∧ (∀ a, (P a).length = 1888) ∧
    (∀ a n, accessOf s i = some (a, n) →
      w.proof = P s.pc ++ P a ++ if 32 < a.toNat % 32 + n then P (a + BitVec.ofNat 64 (n - 1)) else []) ∧
    (accessOf s i = none → ¬reads → ¬writes → w.proof = P s.pc) ∧
    (writes → w.proof = P s.pc ++ if fits = 0 then [] else P (s.readReg a1)) ∧
    (∀ p, reads → oracle s.preimageKey = .preimage p →
      w.proof = P s.pc ++ (if min fits (p.length + 8 - s.preimageOffset.toNat) = 0 then [] else P (s.readReg a1)) ∧
      w.preimage = some ⟨s.preimageKey, be64 (lengthWord p.length) ++ p, s.preimageOffset⟩) ∧
    (¬reads → w.preimage = none)) ∧
  ∀ (c key : Bytes32) (p : List Byte) (o : Word),
    let part : PreimagePart := ⟨key, be64 (lengthWord p.length) ++ p, o⟩
    (key[0] = 2 → oracleCall c part = .ok (.keccak o p)) ∧
    (key[0] = 1 → oracleCall c part = .ok (.localData (key.toList.drop 1) c p p.length o)) ∧
    (key[0] ≠ 1 → key[0] ≠ 2 → oracleCall c part = .error (.codecError .unsupportedKeyType))

end
end

