-- ==== Sys2Proof/Laws/Encoding.lean ====
section
/-! SUPPORT. The fields of a word the encoder makes (spec/30_encoding.md R91, R92), and what the table's masks test (R101). -/

namespace Sys2Proof

/-! ## Fields of an encoding -/

/-- A field between the bits above it and the bits below it. -/
theorem field_eq {x hi mid low p q r : Nat} (hr : r = q * p) (h : x = hi * r + mid * p + low) (hl : low < p)
    (hm : mid < q) : x / p % q = mid := by
  have e : x = p * (hi * q + mid) + low := by rw [h, hr]; ring
  rw [e, Nat.mul_add_div (by omega), Nat.div_eq_of_lt hl, Nat.add_zero, Nat.add_comm, Nat.add_mul_mod_self_right,
    Nat.mod_eq_of_lt hm]

theorem encR_fields (rs2 rs1 rd : Reg) {funct7 funct3 opcode : Nat} (h7 : funct7 < 128) (h3 : funct3 < 8)
    (ho : opcode < 128) :
    bits (encR funct7 rs2 rs1 funct3 rd opcode) 6 0 = opcode ∧
    bits (encR funct7 rs2 rs1 funct3 rd opcode) 11 7 = rd.toNat ∧
    bits (encR funct7 rs2 rs1 funct3 rd opcode) 14 12 = funct3 ∧
    bits (encR funct7 rs2 rs1 funct3 rd opcode) 19 15 = rs1.toNat ∧
    bits (encR funct7 rs2 rs1 funct3 rd opcode) 24 20 = rs2.toNat ∧
    bits (encR funct7 rs2 rs1 funct3 rd opcode) 31 25 = funct7 := by
  have := rs2.isLt; have := rs1.isLt; have := rd.isLt
  simp only [bits, encR, BitVec.toNat_ofNat]
  omega

theorem encI_fields (imm : BitVec 12) (rs1 rd : Reg) {funct3 opcode : Nat} (h3 : funct3 < 8) (ho : opcode < 128) :
    bits (encI imm rs1 funct3 rd opcode) 6 0 = opcode ∧
    bits (encI imm rs1 funct3 rd opcode) 11 7 = rd.toNat ∧
    bits (encI imm rs1 funct3 rd opcode) 14 12 = funct3 ∧
    bits (encI imm rs1 funct3 rd opcode) 19 15 = rs1.toNat ∧
    bits (encI imm rs1 funct3 rd opcode) 31 20 = imm.toNat := by
  have := imm.isLt; have := rs1.isLt; have := rd.isLt
  simp only [bits, encI, BitVec.toNat_ofNat]
  omega

theorem encShift6_fields (shamt : BitVec 6) (rs1 rd : Reg) {funct6 funct3 opcode : Nat} (h6 : funct6 < 64)
    (h3 : funct3 < 8) (ho : opcode < 128) :
    bits (encShift6 funct6 shamt rs1 funct3 rd opcode) 6 0 = opcode ∧
    bits (encShift6 funct6 shamt rs1 funct3 rd opcode) 11 7 = rd.toNat ∧
    bits (encShift6 funct6 shamt rs1 funct3 rd opcode) 14 12 = funct3 ∧
    bits (encShift6 funct6 shamt rs1 funct3 rd opcode) 19 15 = rs1.toNat ∧
    bits (encShift6 funct6 shamt rs1 funct3 rd opcode) 25 20 = shamt.toNat ∧
    bits (encShift6 funct6 shamt rs1 funct3 rd opcode) 31 26 = funct6 := by
  have := shamt.isLt; have := rs1.isLt; have := rd.isLt
  simp only [bits, encShift6, BitVec.toNat_ofNat]
  omega

theorem encS_fields (imm : BitVec 12) (rs2 rs1 : Reg) {funct3 opcode : Nat} (h3 : funct3 < 8) (ho : opcode < 128) :
    bits (encS imm rs2 rs1 funct3 opcode) 6 0 = opcode ∧
    bits (encS imm rs2 rs1 funct3 opcode) 14 12 = funct3 ∧
    bits (encS imm rs2 rs1 funct3 opcode) 19 15 = rs1.toNat ∧
    bits (encS imm rs2 rs1 funct3 opcode) 24 20 = rs2.toNat ∧
    bits (encS imm rs2 rs1 funct3 opcode) 31 25 * 32 + bits (encS imm rs2 rs1 funct3 opcode) 11 7 = imm.toNat := by
  have := imm.isLt; have := rs1.isLt; have := rs2.isLt
  have hl : imm.toNat % 32 < 32 := Nat.mod_lt _ (by decide)
  have hh : imm.toNat / 32 < 128 := by omega
  have e : imm.toNat / 32 * 32 + imm.toNat % 32 = imm.toNat := by omega
  simp only [bits, encS, BitVec.toNat_ofNat]
  generalize imm.toNat / 32 = h at *
  generalize imm.toNat % 32 = l at *
  rw [Nat.mod_eq_of_lt (b := 2 ^ 32) (a := h * 2 ^ 25 + rs2.toNat * 2 ^ 20 + rs1.toNat * 2 ^ 15 + funct3 * 2 ^ 12 + l * 2 ^ 7 + opcode) (by omega)]
  obtain ⟨X, hX⟩ : ∃ X, X = h * 2 ^ 25 + rs2.toNat * 2 ^ 20 + rs1.toNat * 2 ^ 15 + funct3 * 2 ^ 12 + l * 2 ^ 7 + opcode := ⟨_, rfl⟩
  rw [← hX]
  norm_num only at hX ⊢
  have f25 : X / 33554432 % 128 = h :=
    field_eq (r := 4294967296) (hi := 0) (low := rs2.toNat * 1048576 + rs1.toNat * 32768 + funct3 * 4096 + l * 128 + opcode) rfl
      (by linarith) (by omega) (by omega)
  have f20 : X / 1048576 % 32 = rs2.toNat :=
    field_eq (r := 33554432) (hi := h * 1) (low := rs1.toNat * 32768 + funct3 * 4096 + l * 128 + opcode) rfl
      (by clear f25; linarith) (by clear f25; omega) (by clear f25; omega)
  have f15 : X / 32768 % 32 = rs1.toNat :=
    field_eq (r := 1048576) (hi := h * 32 + rs2.toNat * 1) (low := funct3 * 4096 + l * 128 + opcode) rfl
      (by clear f25 f20; linarith) (by clear f25 f20; omega) (by clear f25 f20; omega)
  have f12 : X / 4096 % 8 = funct3 :=
    field_eq (r := 32768) (hi := h * 1024 + rs2.toNat * 32 + rs1.toNat * 1) (low := l * 128 + opcode) rfl
      (by clear f25 f20 f15; linarith) (by clear f25 f20 f15; omega) (by clear f25 f20 f15; omega)
  have f7 : X / 128 % 32 = l :=
    field_eq (r := 4096) (hi := h * 8192 + rs2.toNat * 256 + rs1.toNat * 8 + funct3 * 1) (low := opcode) rfl
      (by clear f25 f20 f15 f12; linarith) (by clear f25 f20 f15 f12; omega) (by clear f25 f20 f15 f12; omega)
  have f0 : X / 1 % 128 = opcode :=
    field_eq (r := 128) (hi := h * 262144 + rs2.toNat * 8192 + rs1.toNat * 256 + funct3 * 32 + l * 1) (low := 0) rfl
      (by clear f25 f20 f15 f12 f7; linarith) (by clear f25 f20 f15 f12 f7; omega) (by clear f25 f20 f15 f12 f7; omega)
  exact ⟨f0, f12, f15, f20, by rw [f25, f7]; exact e⟩

theorem encB_fields (offset : BitVec 13) (rs2 rs1 : Reg) {funct3 opcode : Nat} (h3 : funct3 < 8) (ho : opcode < 128) :
    bits (encB offset rs2 rs1 funct3 opcode) 6 0 = opcode ∧
    bits (encB offset rs2 rs1 funct3 opcode) 14 12 = funct3 ∧
    bits (encB offset rs2 rs1 funct3 opcode) 19 15 = rs1.toNat ∧
    bits (encB offset rs2 rs1 funct3 opcode) 24 20 = rs2.toNat ∧
    bits (encB offset rs2 rs1 funct3 opcode) 31 31 * 4096 + bits (encB offset rs2 rs1 funct3 opcode) 7 7 * 2048 +
      bits (encB offset rs2 rs1 funct3 opcode) 30 25 * 32 + bits (encB offset rs2 rs1 funct3 opcode) 11 8 * 2
      = offset.toNat / 2 * 2 := by
  have := offset.isLt; have := rs1.isLt; have := rs2.isLt
  have h1 : offset.toNat / 4096 < 2 := by omega
  have h2 : offset.toNat / 32 % 64 < 64 := Nat.mod_lt _ (by decide)
  have h3 : offset.toNat / 2 % 16 < 16 := Nat.mod_lt _ (by decide)
  have h4 : offset.toNat / 2048 % 2 < 2 := Nat.mod_lt _ (by decide)
  have e : offset.toNat / 2 * 2 = offset.toNat / 4096 * 4096 + offset.toNat / 2048 % 2 * 2048 +
      offset.toNat / 32 % 64 * 32 + offset.toNat / 2 % 16 * 2 := by
    have e1 := Nat.div_add_mod (offset.toNat / 2) 16
    have e2 := Nat.div_add_mod (offset.toNat / 32) 64
    have e3 := Nat.div_add_mod (offset.toNat / 2048) 2
    rw [Nat.div_div_eq_div_mul] at e1 e2 e3
    norm_num only at e1 e2 e3
    linarith
  rw [e]
  simp only [bits, encB, BitVec.toNat_ofNat]
  generalize offset.toNat / 4096 = a at *
  generalize offset.toNat / 32 % 64 = b at *
  generalize offset.toNat / 2 % 16 = c at *
  generalize offset.toNat / 2048 % 2 = d at *
  rw [Nat.mod_eq_of_lt (b := 2 ^ 32) (a := a * 2 ^ 31 + b * 2 ^ 25 + rs2.toNat * 2 ^ 20 + rs1.toNat * 2 ^ 15 + funct3 * 2 ^ 12 + c * 2 ^ 8 + d * 2 ^ 7 + opcode) (by omega)]
  obtain ⟨X, hX⟩ : ∃ X, X = a * 2 ^ 31 + b * 2 ^ 25 + rs2.toNat * 2 ^ 20 + rs1.toNat * 2 ^ 15 + funct3 * 2 ^ 12 + c * 2 ^ 8 + d * 2 ^ 7 + opcode := ⟨_, rfl⟩
  rw [← hX]
  norm_num only at hX ⊢
  have f31 : X / 2147483648 % 2 = a :=
    field_eq (r := 4294967296) (hi := 0) (low := b * 33554432 + rs2.toNat * 1048576 + rs1.toNat * 32768 + funct3 * 4096 + c * 256 + d * 128 + opcode) rfl
      (by linarith) (by omega) (by omega)
  have f25 : X / 33554432 % 64 = b :=
    field_eq (r := 2147483648) (hi := a * 1) (low := rs2.toNat * 1048576 + rs1.toNat * 32768 + funct3 * 4096 + c * 256 + d * 128 + opcode) rfl
      (by clear f31; linarith) (by clear f31; omega) (by clear f31; omega)
  have f20 : X / 1048576 % 32 = rs2.toNat :=
    field_eq (r := 33554432) (hi := a * 64 + b * 1) (low := rs1.toNat * 32768 + funct3 * 4096 + c * 256 + d * 128 + opcode) rfl
      (by clear f31 f25; linarith) (by clear f31 f25; omega) (by clear f31 f25; omega)
  have f15 : X / 32768 % 32 = rs1.toNat :=
    field_eq (r := 1048576) (hi := a * 2048 + b * 32 + rs2.toNat * 1) (low := funct3 * 4096 + c * 256 + d * 128 + opcode) rfl
      (by clear f31 f25 f20; linarith) (by clear f31 f25 f20; omega) (by clear f31 f25 f20; omega)
  have f12 : X / 4096 % 8 = funct3 :=
    field_eq (r := 32768) (hi := a * 65536 + b * 1024 + rs2.toNat * 32 + rs1.toNat * 1) (low := c * 256 + d * 128 + opcode) rfl
      (by clear f31 f25 f20 f15; linarith) (by clear f31 f25 f20 f15; omega) (by clear f31 f25 f20 f15; omega)
  have f8 : X / 256 % 16 = c :=
    field_eq (r := 4096) (hi := a * 524288 + b * 8192 + rs2.toNat * 256 + rs1.toNat * 8 + funct3 * 1) (low := d * 128 + opcode) rfl
      (by clear f31 f25 f20 f15 f12; linarith) (by clear f31 f25 f20 f15 f12; omega) (by clear f31 f25 f20 f15 f12; omega)
  have f7 : X / 128 % 2 = d :=
    field_eq (r := 256) (hi := a * 8388608 + b * 131072 + rs2.toNat * 4096 + rs1.toNat * 128 + funct3 * 16 + c * 1) (low := opcode) rfl
      (by clear f31 f25 f20 f15 f12 f8; linarith) (by clear f31 f25 f20 f15 f12 f8; omega) (by clear f31 f25 f20 f15 f12 f8; omega)
  have f0 : X / 1 % 128 = opcode :=
    field_eq (r := 128) (hi := a * 16777216 + b * 262144 + rs2.toNat * 8192 + rs1.toNat * 256 + funct3 * 32 + c * 2 + d * 1) (low := 0) rfl
      (by clear f31 f25 f20 f15 f12 f8 f7; linarith) (by clear f31 f25 f20 f15 f12 f8 f7; omega) (by clear f31 f25 f20 f15 f12 f8 f7; omega)
  exact ⟨f0, f12, f15, f20, by rw [f31, f7, f25, f8]⟩

theorem encU_fields (imm : BitVec 20) (rd : Reg) {opcode : Nat} (ho : opcode < 128) :
    bits (encU imm rd opcode) 6 0 = opcode ∧ bits (encU imm rd opcode) 11 7 = rd.toNat ∧
    bits (encU imm rd opcode) 31 12 = imm.toNat := by
  have := imm.isLt; have := rd.isLt
  simp only [bits, encU, BitVec.toNat_ofNat]
  omega

theorem encJ_fields (offset : BitVec 21) (rd : Reg) {opcode : Nat} (ho : opcode < 128) :
    bits (encJ offset rd opcode) 6 0 = opcode ∧ bits (encJ offset rd opcode) 11 7 = rd.toNat ∧
    bits (encJ offset rd opcode) 31 31 * 1048576 + bits (encJ offset rd opcode) 19 12 * 4096 +
      bits (encJ offset rd opcode) 20 20 * 2048 + bits (encJ offset rd opcode) 30 21 * 2 = offset.toNat / 2 * 2 := by
  have := offset.isLt; have := rd.isLt
  have h1 : offset.toNat / 1048576 < 2 := by omega
  have h2 : offset.toNat / 2 % 1024 < 1024 := Nat.mod_lt _ (by decide)
  have h3 : offset.toNat / 2048 % 2 < 2 := Nat.mod_lt _ (by decide)
  have h4 : offset.toNat / 4096 % 256 < 256 := Nat.mod_lt _ (by decide)
  have e : offset.toNat / 2 * 2 = offset.toNat / 1048576 * 1048576 + offset.toNat / 4096 % 256 * 4096 +
      offset.toNat / 2048 % 2 * 2048 + offset.toNat / 2 % 1024 * 2 := by
    have e1 := Nat.div_add_mod (offset.toNat / 2) 1024
    have e2 := Nat.div_add_mod (offset.toNat / 2048) 2
    have e3 := Nat.div_add_mod (offset.toNat / 4096) 256
    rw [Nat.div_div_eq_div_mul] at e1 e2 e3
    norm_num only at e1 e2 e3
    linarith
  rw [e]
  simp only [bits, encJ, BitVec.toNat_ofNat]
  generalize offset.toNat / 1048576 = a at *
  generalize offset.toNat / 2 % 1024 = b at *
  generalize offset.toNat / 2048 % 2 = c at *
  generalize offset.toNat / 4096 % 256 = d at *
  rw [Nat.mod_eq_of_lt (b := 2 ^ 32) (a := a * 2 ^ 31 + b * 2 ^ 21 + c * 2 ^ 20 + d * 2 ^ 12 + rd.toNat * 2 ^ 7 + opcode) (by omega)]
  obtain ⟨X, hX⟩ : ∃ X, X = a * 2 ^ 31 + b * 2 ^ 21 + c * 2 ^ 20 + d * 2 ^ 12 + rd.toNat * 2 ^ 7 + opcode := ⟨_, rfl⟩
  rw [← hX]
  norm_num only at hX ⊢
  have f31 : X / 2147483648 % 2 = a :=
    field_eq (r := 4294967296) (hi := 0) (low := b * 2097152 + c * 1048576 + d * 4096 + rd.toNat * 128 + opcode) rfl
      (by linarith) (by omega) (by omega)
  have f21 : X / 2097152 % 1024 = b :=
    field_eq (r := 2147483648) (hi := a * 1) (low := c * 1048576 + d * 4096 + rd.toNat * 128 + opcode) rfl
      (by clear f31; linarith) (by clear f31; omega) (by clear f31; omega)
  have f20 : X / 1048576 % 2 = c :=
    field_eq (r := 2097152) (hi := a * 1024 + b * 1) (low := d * 4096 + rd.toNat * 128 + opcode) rfl
      (by clear f31 f21; linarith) (by clear f31 f21; omega) (by clear f31 f21; omega)
  have f12 : X / 4096 % 256 = d :=
    field_eq (r := 1048576) (hi := a * 2048 + b * 2 + c * 1) (low := rd.toNat * 128 + opcode) rfl
      (by clear f31 f21 f20; linarith) (by clear f31 f21 f20; omega) (by clear f31 f21 f20; omega)
  have f7 : X / 128 % 32 = rd.toNat :=
    field_eq (r := 4096) (hi := a * 524288 + b * 512 + c * 256 + d * 1) (low := opcode) rfl
      (by clear f31 f21 f20 f12; linarith) (by clear f31 f21 f20 f12; omega) (by clear f31 f21 f20 f12; omega)
  have f0 : X / 1 % 128 = opcode :=
    field_eq (r := 128) (hi := a * 16777216 + b * 16384 + c * 8192 + d * 32 + rd.toNat * 1) (low := 0) rfl
      (by clear f31 f21 f20 f12 f7; linarith) (by clear f31 f21 f20 f12 f7; omega) (by clear f31 f21 f20 f12 f7; omega)
  exact ⟨f0, f7, by rw [f31, f12, f20, f21]⟩

theorem encFence_fields (fm pred succ : BitVec 4) (rs1 rd : Reg) :
    bits (encFence fm pred succ rs1 rd) 6 0 = 0x0f ∧ bits (encFence fm pred succ rs1 rd) 11 7 = rd.toNat ∧
    bits (encFence fm pred succ rs1 rd) 14 12 = 0 ∧ bits (encFence fm pred succ rs1 rd) 19 15 = rs1.toNat ∧
    bits (encFence fm pred succ rs1 rd) 23 20 = succ.toNat ∧ bits (encFence fm pred succ rs1 rd) 27 24 = pred.toNat ∧
    bits (encFence fm pred succ rs1 rd) 31 28 = fm.toNat := by
  have := fm.isLt; have := pred.isLt; have := succ.isLt; have := rs1.isLt; have := rd.isLt
  simp only [bits, encFence, BitVec.toNat_ofNat]
  omega

theorem encASlot_fields (funct5 : BitVec 5) (aq rl : BitVec 1) (rs2 rs1 : Reg) (funct3 : BitVec 3) (rd : Reg) :
    bits (encASlot funct5 aq rl rs2 rs1 funct3 rd) 6 0 = 0x2f ∧
    bits (encASlot funct5 aq rl rs2 rs1 funct3 rd) 11 7 = rd.toNat ∧
    bits (encASlot funct5 aq rl rs2 rs1 funct3 rd) 14 12 = funct3.toNat ∧
    bits (encASlot funct5 aq rl rs2 rs1 funct3 rd) 19 15 = rs1.toNat ∧
    bits (encASlot funct5 aq rl rs2 rs1 funct3 rd) 24 20 = rs2.toNat ∧
    bits (encASlot funct5 aq rl rs2 rs1 funct3 rd) 25 25 = rl.toNat ∧
    bits (encASlot funct5 aq rl rs2 rs1 funct3 rd) 26 26 = aq.toNat ∧
    bits (encASlot funct5 aq rl rs2 rs1 funct3 rd) 31 27 = funct5.toNat := by
  have := funct5.isLt; have := aq.isLt; have := rl.isLt; have := rs2.isLt; have := rs1.isLt; have := funct3.isLt
  have := rd.isLt
  simp only [bits, encASlot, BitVec.toNat_ofNat]
  omega

/-! ## The masks of the opcode table -/

/-- Masking with a run of ones from bit `lo` to bit `hi` keeps that field in place. -/
theorem and_run (x lo n : Nat) : x &&& ((2 ^ n - 1) * 2 ^ lo) = x / 2 ^ lo % 2 ^ n * 2 ^ lo := by
  rw [← Nat.shiftLeft_eq, ← Nat.shiftLeft_eq, ← Nat.and_two_pow_sub_one_eq_mod, Nat.shiftLeft_and_distrib,
    ← Nat.shiftRight_eq_div_pow]
  apply Nat.eq_of_testBit_eq
  intro i
  simp only [Nat.testBit_and, Nat.testBit_shiftLeft, Nat.testBit_shiftRight]
  by_cases h : lo ≤ i
  · simp [h, Nat.add_sub_cancel' h]
  · simp [h]

/-- The mask 0x7f tests the major opcode. -/
theorem and_opcode (w : IWord) : (w &&& 0x7f).toNat = bits w 6 0 := by
  have h := and_run w.toNat 0 7
  simpa [bits] using h

/-- The mask 0x707f tests the major opcode and `funct3`. -/
theorem and_funct3 (w : IWord) : (w &&& 0x707f).toNat = bits w 14 12 * 2 ^ 12 + bits w 6 0 := by
  have h0 := and_run w.toNat 0 7
  have h1 := and_run w.toNat 12 3
  have e : (0x707f : Nat) = (2 ^ 3 - 1) * 2 ^ 12 ||| (2 ^ 7 - 1) * 2 ^ 0 := by decide
  rw [BitVec.toNat_and, show (0x707f : IWord).toNat = 0x707f from rfl, e, Nat.and_or_distrib_left, h0, h1, Nat.pow_zero,
    Nat.div_one, Nat.mul_one, Nat.mul_comm, ← Nat.two_pow_add_eq_or_of_lt (by omega)]
  simp only [bits]
  omega

/-- The mask 0xfe00707f tests `funct7` as well. -/
theorem and_funct7 (w : IWord) :
    (w &&& 0xfe00707f).toNat = bits w 31 25 * 2 ^ 25 + bits w 14 12 * 2 ^ 12 + bits w 6 0 := by
  have h0 := and_funct3 w
  have h1 := and_run w.toNat 25 7
  have e : (0xfe00707f : Nat) = (2 ^ 7 - 1) * 2 ^ 25 ||| 0x707f := by decide
  rw [BitVec.toNat_and, show (0x707f : IWord).toNat = 0x707f from rfl] at h0
  have hlt : bits w 14 12 * 2 ^ 12 + bits w 6 0 < 2 ^ 25 := by simp only [bits]; omega
  rw [BitVec.toNat_and, show (0xfe00707f : IWord).toNat = 0xfe00707f from rfl, e, Nat.and_or_distrib_left, h0, h1,
    Nat.mul_comm, ← Nat.two_pow_add_eq_or_of_lt hlt]
  simp only [bits]
  omega

/-- The mask 0xfc00707f tests `funct6` as well. -/
theorem and_funct6 (w : IWord) :
    (w &&& 0xfc00707f).toNat = bits w 31 26 * 2 ^ 26 + bits w 14 12 * 2 ^ 12 + bits w 6 0 := by
  have h0 := and_funct3 w
  have h1 := and_run w.toNat 26 6
  have e : (0xfc00707f : Nat) = (2 ^ 6 - 1) * 2 ^ 26 ||| 0x707f := by decide
  rw [BitVec.toNat_and, show (0x707f : IWord).toNat = 0x707f from rfl] at h0
  have hlt : bits w 14 12 * 2 ^ 12 + bits w 6 0 < 2 ^ 26 := by simp only [bits]; omega
  rw [BitVec.toNat_and, show (0xfc00707f : IWord).toNat = 0xfc00707f from rfl, e, Nat.and_or_distrib_left, h0, h1,
    Nat.mul_comm, ← Nat.two_pow_add_eq_or_of_lt hlt]
  simp only [bits]
  omega

/-- The whole-word mask tests the whole word. -/
theorem and_whole (w : IWord) : w &&& 0xffffffff = w := by
  have : (0xffffffff : IWord) = BitVec.allOnes 32 := by decide
  rw [this, BitVec.and_allOnes]

end Sys2Proof
end

