-- ==== Sys2Proof/Laws/Memory.lean ====
section
/-! SUPPORT. The laws of the memory (spec/20_memory.md R51, R71, R83 to R85): reading after writing, and that every memory
operation keeps the canonical form `Memory.wf`. -/

namespace Sys2Proof.Machine

/-! ## Lists of cells -/

theorem cellsGet_eq_zero {a : Nat} {cs : List Host.Cell} (h : ∀ c ∈ cs, c.1 ≠ a) : cellsGet a cs = 0 := by
  induction cs with
  | nil => rfl
  | cons c cs ih =>
    rw [cellsGet, if_neg (h c (by simp)).symm]
    exact ih fun d hd => h d (by simp [hd])

/-- A write leaves every other address alone. -/
theorem cellsGet_cellsSet_ne {a a' : Nat} (h : a' ≠ a) (b : Byte) (cs : List Host.Cell) :
    cellsGet a' (cellsSet a b cs) = cellsGet a' cs := by
  induction cs with
  | nil => unfold cellsSet; split <;> simp [cellsGet, h]
  | cons c cs ih =>
    unfold cellsSet
    split
    · split <;> simp [cellsGet, h]
    · split
      · rename_i e; subst e; split <;> simp [cellsGet, h]
      · simp [cellsGet, ih]

/-- A written byte reads back, in a list in canonical order. -/
theorem cellsGet_cellsSet_self {a : Nat} {cs : List Host.Cell} (hs : cs.Pairwise fun c d => c.1 < d.1) (b : Byte) :
    cellsGet a (cellsSet a b cs) = b := by
  induction cs with
  | nil => unfold cellsSet; split <;> simp [cellsGet, *]
  | cons c cs ih =>
    rw [List.pairwise_cons] at hs
    have hz (h : a ≤ c.1) : cellsGet a cs = 0 := cellsGet_eq_zero fun d hd => by have := hs.1 d hd; omega
    unfold cellsSet
    split
    · split
      · rw [cellsGet, if_neg (by omega), hz (by omega)]; exact Eq.symm ‹_›
      · simp [cellsGet]
    · split
      · split
        · rw [hz (by omega)]; exact Eq.symm ‹_›
        · simp [cellsGet]
      · rw [cellsGet, if_neg ‹_›, ih hs.2]

/-- What a list of cells holds after a write: the written cell, unless it is a 0, and cells it held before. -/
theorem mem_cellsSet {a : Nat} {b : Byte} {cs : List Host.Cell} {c : Host.Cell} (h : c ∈ cellsSet a b cs) :
    (c = (a, b) ∧ b ≠ 0) ∨ c ∈ cs := by
  induction cs with
  | nil => unfold cellsSet at h; split at h <;> simp_all
  | cons d cs ih =>
    unfold cellsSet at h
    split at h
    · split at h
      · exact .inr h
      · rcases List.mem_cons.1 h with h | h
        · exact .inl ⟨h, ‹_›⟩
        · exact .inr h
    · split at h
      · split at h
        · exact .inr (List.mem_cons_of_mem _ h)
        · rcases List.mem_cons.1 h with h | h
          · exact .inl ⟨h, ‹_›⟩
          · exact .inr (List.mem_cons_of_mem _ h)
      · rcases List.mem_cons.1 h with h | h
        · exact .inr (by simp [h])
        · exact (ih h).imp_right (List.mem_cons_of_mem _)

theorem cellsSet_pairwise {a : Nat} {cs : List Host.Cell} (hs : cs.Pairwise fun c d => c.1 < d.1) (b : Byte) :
    (cellsSet a b cs).Pairwise fun c d => c.1 < d.1 := by
  induction cs with
  | nil => unfold cellsSet; split <;> simp
  | cons c cs ih =>
    have hc := hs
    rw [List.pairwise_cons] at hs
    unfold cellsSet
    split
    · split
      · exact hc
      · refine List.pairwise_cons.2 ⟨fun d hd => ?_, hc⟩
        rcases List.mem_cons.1 hd with rfl | hd
        · assumption
        · have := hs.1 d hd; simp only; omega
    · split
      · split
        · exact hs.2
        · exact List.pairwise_cons.2 ⟨fun d hd => by have := hs.1 d hd; simp only; omega, hs.2⟩
      · refine List.pairwise_cons.2 ⟨fun d hd => ?_, ih hs.2⟩
        rcases mem_cellsSet hd with ⟨rfl, -⟩ | hd
        · simp only; omega
        · exact hs.1 d hd

/-! ## Rising lists -/

theorem mem_insertRising {l k : Nat} {ks : List Nat} : k ∈ insertRising l ks ↔ k = l ∨ k ∈ ks := by
  induction ks with
  | nil => simp [insertRising]
  | cons j ks ih =>
    unfold insertRising
    split
    · simp
    · split
      · rename_i e; subst e; simp
      · simp only [List.mem_cons, ih]; tauto

theorem insertRising_pairwise {l : Nat} {ks : List Nat} (h : ks.Pairwise fun l k => l < k) :
    (insertRising l ks).Pairwise fun l k => l < k := by
  induction ks with
  | nil => simp [insertRising]
  | cons j ks ih =>
    have hc := h
    rw [List.pairwise_cons] at h
    unfold insertRising
    split
    · refine List.pairwise_cons.2 ⟨fun d hd => ?_, hc⟩
      rcases List.mem_cons.1 hd with rfl | hd
      · assumption
      · have := h.1 d hd; omega
    · split
      · exact hc
      · refine List.pairwise_cons.2 ⟨fun d hd => ?_, ih h.2⟩
        rcases mem_insertRising.1 hd with rfl | hd
        · omega
        · exact h.1 d hd

/-! ## Bytes of memory -/

theorem Memory.byte_empty (a : Nat) : Memory.empty.byte a = 0 := rfl

theorem Memory.empty_wf : Memory.empty.wf := ⟨.nil, by simp [Memory.empty], .nil, by simp [Memory.empty]⟩

theorem State.reset_mem_wf : State.reset.mem.wf := Memory.empty_wf

theorem Memory.byte_setByte_ne {a a' : Nat} (h : a' ≠ a) (m : Memory) (b : Byte) :
    (m.setByte a b).byte a' = m.byte a' := cellsGet_cellsSet_ne h b m.cells

theorem Memory.byte_setByte_self {m : Memory} (hm : m.wf) (a : Nat) (b : Byte) : (m.setByte a b).byte a = b :=
  cellsGet_cellsSet_self hm.1 b

theorem Memory.setByte_wf {m : Memory} (hm : m.wf) {a : Nat} (ha : a < 2 ^ 64) (b : Byte) : (m.setByte a b).wf := by
  obtain ⟨h1, h2, h3, h4⟩ := hm
  refine ⟨cellsSet_pairwise h1 b, fun c hc => ?_, insertRising_pairwise h3, fun l hl => ?_⟩
  · rcases mem_cellsSet hc with ⟨rfl, hb⟩ | hc
    · exact ⟨hb, ha, mem_insertRising.2 (.inl rfl)⟩
    · have := h2 c hc
      exact ⟨this.1, this.2.1, mem_insertRising.2 (.inr this.2.2)⟩
  · rcases mem_insertRising.1 hl with rfl | hl
    · omega
    · exact h4 l hl

/-- A write of several bytes leaves every address outside them alone. -/
theorem Memory.byte_setBytesAt_outside {a c : Nat} {b : List Byte} (h : c < a ∨ a + b.length ≤ c) (m : Memory) :
    (m.setBytesAt a b).byte c = m.byte c := by
  induction b generalizing a m with
  | nil => rfl
  | cons x xs ih =>
    simp only [List.length_cons] at h
    rw [setBytesAt, ih (by omega), byte_setByte_ne (by omega)]

theorem Memory.setBytesAt_wf {m : Memory} (hm : m.wf) {a : Nat} {b : List Byte} (h : b = [] ∨ a + b.length ≤ 2 ^ 64) :
    (m.setBytesAt a b).wf := by
  induction b generalizing a m with
  | nil => exact hm
  | cons x xs ih =>
    have h : a + (xs.length + 1) ≤ 2 ^ 64 := by simpa using h
    exact ih (setByte_wf hm (by omega) x) (.inr (by omega))

/-- The bytes written read back. -/
theorem Memory.byte_setBytesAt {m : Memory} (hm : m.wf) {a : Nat} {b : List Byte} (h : a + b.length ≤ 2 ^ 64) {k : Nat}
    (hk : k < b.length) : (m.setBytesAt a b).byte (a + k) = b[k] := by
  induction b generalizing a m k with
  | nil => simp at hk
  | cons x xs ih =>
    simp only [List.length_cons] at h hk
    have hw := setByte_wf hm (a := a) (by omega) x
    cases k with
    | zero => rw [setBytesAt, byte_setBytesAt_outside (by omega)]; exact byte_setByte_self hm a x
    | succ k =>
      rw [setBytesAt, show a + (k + 1) = a + 1 + k by omega, ih hw (by omega) (by omega)]
      rfl

/-- The touched leaves after a write: those before it and those of the bytes written. -/
theorem Memory.mem_touched_setBytesAt {m : Memory} {a l : Nat} {b : List Byte} :
    l ∈ (m.setBytesAt a b).touched ↔ l ∈ m.touched ∨ ∃ k < b.length, l = (a + k) / 32 := by
  induction b generalizing a m with
  | nil => simp [setBytesAt]
  | cons x xs ih =>
    rw [setBytesAt, ih, setByte, mem_insertRising]
    constructor
    · rintro ((rfl | h) | ⟨k, hk, rfl⟩)
      · exact .inr ⟨0, by simp, rfl⟩
      · exact .inl h
      · exact .inr ⟨k + 1, by simpa using hk, by congr 1; omega⟩
    · rintro (h | ⟨k, hk, rfl⟩)
      · exact .inl (.inr h)
      · cases k with
        | zero => exact .inl (.inl rfl)
        | succ k => exact .inr ⟨k, by simpa using hk, by congr 1; omega⟩

/-! ## Byte strings of memory -/

@[simp] theorem Memory.length_bytesAt (m : Memory) (a n : Nat) : (m.bytesAt a n).length = n := by
  induction n generalizing a with
  | zero => rfl
  | succ n ih => simp [bytesAt, ih]

theorem Memory.getElem_bytesAt (m : Memory) {a n k : Nat} (h : k < (m.bytesAt a n).length) :
    (m.bytesAt a n)[k] = m.byte (a + k) := by
  induction n generalizing a k with
  | zero => simp at h
  | succ n ih =>
    cases k with
    | zero => rfl
    | succ k =>
      simp only [bytesAt, List.getElem_cons_succ]
      rw [ih (by simpa [bytesAt] using h)]
      congr 1; omega

/-- Byte strings depend on the bytes alone. -/
theorem Memory.bytesAt_congr {m m' : Memory} {a n : Nat} (h : ∀ k < n, m'.byte (a + k) = m.byte (a + k)) :
    m'.bytesAt a n = m.bytesAt a n := by
  apply List.ext_getElem (by simp)
  intro k h1 h2
  rw [getElem_bytesAt, getElem_bytesAt]
  exact h k (by simpa using h1)

/-- A byte string written reads back. -/
theorem Memory.bytesAt_setBytesAt {m : Memory} (hm : m.wf) {a : Nat} {b : List Byte} (h : a + b.length ≤ 2 ^ 64) :
    (m.setBytesAt a b).bytesAt a b.length = b := by
  apply List.ext_getElem (by simp)
  intro k h1 h2
  rw [getElem_bytesAt, byte_setBytesAt hm h h2]

/-! ## The memory primitives -/

theorem inRange_iff {a : Word} {n : Nat} : inRange a n = true ↔ n = 0 ∨ a.toNat + n ≤ 2 ^ 64 := by simp [inRange]

/-- Everything `MemBytes` can do (R85). -/
theorem memBytes_cases (m : Memory) (a : Word) (n : Nat) :
    (inRange a n = true ∧ memBytes m a n = .ok (m.bytesAt a.toNat n)) ∨
      (inRange a n = false ∧ memBytes m a n = .error (.addressRange a n)) := by
  unfold memBytes
  cases h : inRange a n
  · exact .inr ⟨rfl, if_neg (by simp)⟩
  · exact .inl ⟨rfl, if_pos rfl⟩

/-- Everything `MemSetBytes` can do (R85). -/
theorem memSetBytes_cases (m : Memory) (a : Word) (b : List Byte) :
    (inRange a b.length = true ∧ memSetBytes m a b = .ok (m.setBytesAt a.toNat b)) ∨
      (inRange a b.length = false ∧ memSetBytes m a b = .error (.addressRange a b.length)) := by
  unfold memSetBytes
  cases h : inRange a b.length
  · exact .inr ⟨rfl, if_neg (by simp)⟩
  · exact .inl ⟨rfl, if_pos rfl⟩

/-- Everything `MemRead` can do (R83). -/
theorem memRead_cases (m : Memory) (a : Word) (n : Nat) :
    (inRange a n = true ∧ memRead m a n = .ok (BitVec.ofNat 64 (leNat (m.bytesAt a.toNat n)))) ∨
      (inRange a n = false ∧ memRead m a n = .error (.addressRange a n)) := by
  unfold memRead
  rcases memBytes_cases m a n with ⟨h, e⟩ | ⟨h, e⟩
  · exact .inl ⟨h, by rw [e]⟩
  · exact .inr ⟨h, by rw [e]⟩

@[simp] theorem length_leBytes (n : Nat) (v : Word) : (leBytes n v).length = n := by
  induction n generalizing v with
  | zero => rfl
  | succ n ih => simp [leBytes, ih]

/-- Everything `MemWrite` can do (R84). -/
theorem memWrite_cases (m : Memory) (a : Word) (n : Nat) (v : Word) :
    (inRange a n = true ∧ memWrite m a n v = .ok (m.setBytesAt a.toNat (leBytes n v))) ∨
      (inRange a n = false ∧ memWrite m a n v = .error (.addressRange a n)) := by
  unfold memWrite
  have := memSetBytes_cases m a (leBytes n v)
  rwa [length_leBytes] at this

theorem memSetBytes_wf {m m' : Memory} (hm : m.wf) {a : Word} {b : List Byte} (h : memSetBytes m a b = .ok m') :
    m'.wf := by
  rcases memSetBytes_cases m a b with ⟨hr, e⟩ | ⟨_, e⟩ <;> rw [e] at h
  · cases h
    apply Memory.setBytesAt_wf hm
    rcases inRange_iff.1 hr with h0 | h0
    · exact .inl (List.length_eq_zero_iff.1 h0)
    · exact .inr h0
  · cases h

theorem memWrite_wf {m m' : Memory} (hm : m.wf) {a : Word} {n : Nat} {v : Word} (h : memWrite m a n v = .ok m') :
    m'.wf := memSetBytes_wf hm h

/-! ## The image -/

/-- The pages an accepted image describes lie in the address space (R170). -/
theorem readPages_range {pageBits n : Nat} {prev : Option Nat} {b : List Byte} {ps : List (Nat × List Byte)}
    (h : readPages pageBits n prev b = .ok ps) :
    ∀ p ∈ ps, p.1 < 2 ^ (64 - pageBits) ∧ p.2.length ≤ 2 ^ pageBits := by
  induction n generalizing prev b ps with
  | zero => cases h; simp
  | succ n ih =>
    unfold readPages at h
    dsimp only at h
    split at h
    · cases h
    · split at h
      · cases h
      · split at h
        · rename_i h1 _ qs hq
          cases h
          intro p hp
          rcases List.mem_cons.1 hp with rfl | hp
          · exact ⟨by omega, by simp⟩
          · exact ih hq p hp
        · cases h

/-- The memory an accepted image describes is in canonical form. -/
theorem deserialize_wf {pageBits : Nat} (hp : pageBits ≤ 64) {b : List Byte} {m : Memory}
    (h : deserialize pageBits b = .ok m) : m.wf := by
  unfold deserialize at h
  split at h
  · cases h
  split at h
  · cases h
  split at h
  · rename_i ps hps
    cases h
    have hr := readPages_range hps
    have : ∀ (ps : List (Nat × List Byte)) (m : Memory), m.wf →
        (∀ p ∈ ps, p.1 < 2 ^ (64 - pageBits) ∧ p.2.length ≤ 2 ^ pageBits) →
        (ps.foldl (fun m p => m.setBytesAt (p.1 * 2 ^ pageBits) p.2) m).wf := by
      intro ps
      induction ps with
      | nil => exact fun m hm _ => hm
      | cons p ps ih =>
        intro m hm h
        obtain ⟨h1, h2⟩ := h p (by simp)
        refine ih _ (Memory.setBytesAt_wf hm (.inr ?_)) fun q hq => h q (by simp [hq])
        have e : 2 ^ (64 - pageBits) * 2 ^ pageBits = 2 ^ 64 := by
          rw [← Nat.pow_add]; congr 1; omega
        calc p.1 * 2 ^ pageBits + p.2.length ≤ p.1 * 2 ^ pageBits + 2 ^ pageBits := by omega
          _ = (p.1 + 1) * 2 ^ pageBits := by ring
          _ ≤ 2 ^ (64 - pageBits) * 2 ^ pageBits := Nat.mul_le_mul_right _ h1
          _ = 2 ^ 64 := e
    exact this ps _ Memory.empty_wf hr
  · cases h

theorem pageBits_le : Config.pageBits ≤ 64 := by
  have := Config.pageBitsAboveFive.isLt
  unfold Config.pageBits; omega

theorem five_le_pageBits : 5 ≤ Config.pageBits := Nat.le_add_right ..

end Sys2Proof.Machine
end

