-- ==== Sys2Proof/Laws/State.lean ====
section
/-! SUPPORT. What each named update of the state does to each field, so that no proof unfolds a record update; and what a
register reads after a write (spec/00_scope.md R16). -/

namespace Sys2Proof.Machine

/-! ## Field by field -/

@[simp] theorem State.setPc_regs (s : State) (t : Word) : (s.setPc t).regs = s.regs := rfl
@[simp] theorem State.setPc_pc (s : State) (t : Word) : (s.setPc t).pc = t := rfl
@[simp] theorem State.setPc_preimageKey (s : State) (t : Word) : (s.setPc t).preimageKey = s.preimageKey := rfl
@[simp] theorem State.setPc_preimageOffset (s : State) (t : Word) : (s.setPc t).preimageOffset = s.preimageOffset := rfl
@[simp] theorem State.setPc_exitCode (s : State) (t : Word) : (s.setPc t).exitCode = s.exitCode := rfl
@[simp] theorem State.setPc_exited (s : State) (t : Word) : (s.setPc t).exited = s.exited := rfl
@[simp] theorem State.setPc_stepCount (s : State) (t : Word) : (s.setPc t).stepCount = s.stepCount := rfl
@[simp] theorem State.setPc_heap (s : State) (t : Word) : (s.setPc t).heap = s.heap := rfl
@[simp] theorem State.setPc_loadReservation (s : State) (t : Word) : (s.setPc t).loadReservation = s.loadReservation := rfl
@[simp] theorem State.setPc_mem (s : State) (t : Word) : (s.setPc t).mem = s.mem := rfl
@[simp] theorem State.setPc_requests (s : State) (t : Word) : (s.setPc t).requests = s.requests := rfl
@[simp] theorem State.setPc_reply (s : State) (t : Word) : (s.setPc t).reply = s.reply := rfl
@[simp] theorem State.setPc_output (s : State) (t : Word) : (s.setPc t).output = s.output := rfl

@[simp] theorem State.advance_regs (s : State) : (s.advance).regs = s.regs := rfl
@[simp] theorem State.advance_pc (s : State) : (s.advance).pc = s.pc + 4 := rfl
@[simp] theorem State.advance_preimageKey (s : State) : (s.advance).preimageKey = s.preimageKey := rfl
@[simp] theorem State.advance_preimageOffset (s : State) : (s.advance).preimageOffset = s.preimageOffset := rfl
@[simp] theorem State.advance_exitCode (s : State) : (s.advance).exitCode = s.exitCode := rfl
@[simp] theorem State.advance_exited (s : State) : (s.advance).exited = s.exited := rfl
@[simp] theorem State.advance_stepCount (s : State) : (s.advance).stepCount = s.stepCount := rfl
@[simp] theorem State.advance_heap (s : State) : (s.advance).heap = s.heap := rfl
@[simp] theorem State.advance_loadReservation (s : State) : (s.advance).loadReservation = s.loadReservation := rfl
@[simp] theorem State.advance_mem (s : State) : (s.advance).mem = s.mem := rfl
@[simp] theorem State.advance_requests (s : State) : (s.advance).requests = s.requests := rfl
@[simp] theorem State.advance_reply (s : State) : (s.advance).reply = s.reply := rfl
@[simp] theorem State.advance_output (s : State) : (s.advance).output = s.output := rfl

@[simp] theorem State.accept_regs (s : State) : (s.accept).regs = s.regs := rfl
@[simp] theorem State.accept_pc (s : State) : (s.accept).pc = s.pc := rfl
@[simp] theorem State.accept_preimageKey (s : State) : (s.accept).preimageKey = s.preimageKey := rfl
@[simp] theorem State.accept_preimageOffset (s : State) : (s.accept).preimageOffset = s.preimageOffset := rfl
@[simp] theorem State.accept_exitCode (s : State) : (s.accept).exitCode = s.exitCode := rfl
@[simp] theorem State.accept_exited (s : State) : (s.accept).exited = s.exited := rfl
@[simp] theorem State.accept_stepCount (s : State) : (s.accept).stepCount = s.stepCount := rfl
@[simp] theorem State.accept_heap (s : State) : (s.accept).heap = s.heap := rfl
@[simp] theorem State.accept_loadReservation (s : State) : (s.accept).loadReservation = s.loadReservation := rfl
@[simp] theorem State.accept_mem (s : State) : (s.accept).mem = s.mem := rfl
@[simp] theorem State.accept_requests (s : State) : (s.accept).requests = s.requests.tail := rfl
@[simp] theorem State.accept_reply (s : State) : (s.accept).reply = s.reply := rfl
@[simp] theorem State.accept_output (s : State) : (s.accept).output = s.output := rfl

@[simp] theorem State.answer_regs (s : State) (r : Reply) : (s.answer r).regs = s.regs := rfl
@[simp] theorem State.answer_pc (s : State) (r : Reply) : (s.answer r).pc = s.pc := rfl
@[simp] theorem State.answer_preimageKey (s : State) (r : Reply) : (s.answer r).preimageKey = s.preimageKey := rfl
@[simp] theorem State.answer_preimageOffset (s : State) (r : Reply) : (s.answer r).preimageOffset = s.preimageOffset := rfl
@[simp] theorem State.answer_exitCode (s : State) (r : Reply) : (s.answer r).exitCode = s.exitCode := rfl
@[simp] theorem State.answer_exited (s : State) (r : Reply) : (s.answer r).exited = s.exited := rfl
@[simp] theorem State.answer_stepCount (s : State) (r : Reply) : (s.answer r).stepCount = s.stepCount := rfl
@[simp] theorem State.answer_heap (s : State) (r : Reply) : (s.answer r).heap = s.heap := rfl
@[simp] theorem State.answer_loadReservation (s : State) (r : Reply) : (s.answer r).loadReservation = s.loadReservation := rfl
@[simp] theorem State.answer_mem (s : State) (r : Reply) : (s.answer r).mem = s.mem := rfl
@[simp] theorem State.answer_requests (s : State) (r : Reply) : (s.answer r).requests = s.requests := rfl
@[simp] theorem State.answer_reply (s : State) (r : Reply) : (s.answer r).reply = r := rfl
@[simp] theorem State.answer_output (s : State) (r : Reply) : (s.answer r).output = s.output := rfl

@[simp] theorem State.writeReg_pc (s : State) (rd : Reg) (v : Word) : (s.writeReg rd v).pc = s.pc := by
  unfold State.writeReg; split <;> rfl
@[simp] theorem State.writeReg_preimageKey (s : State) (rd : Reg) (v : Word) : (s.writeReg rd v).preimageKey = s.preimageKey := by
  unfold State.writeReg; split <;> rfl
@[simp] theorem State.writeReg_preimageOffset (s : State) (rd : Reg) (v : Word) : (s.writeReg rd v).preimageOffset = s.preimageOffset := by
  unfold State.writeReg; split <;> rfl
@[simp] theorem State.writeReg_exitCode (s : State) (rd : Reg) (v : Word) : (s.writeReg rd v).exitCode = s.exitCode := by
  unfold State.writeReg; split <;> rfl
@[simp] theorem State.writeReg_exited (s : State) (rd : Reg) (v : Word) : (s.writeReg rd v).exited = s.exited := by
  unfold State.writeReg; split <;> rfl
@[simp] theorem State.writeReg_stepCount (s : State) (rd : Reg) (v : Word) : (s.writeReg rd v).stepCount = s.stepCount := by
  unfold State.writeReg; split <;> rfl
@[simp] theorem State.writeReg_heap (s : State) (rd : Reg) (v : Word) : (s.writeReg rd v).heap = s.heap := by
  unfold State.writeReg; split <;> rfl
@[simp] theorem State.writeReg_loadReservation (s : State) (rd : Reg) (v : Word) : (s.writeReg rd v).loadReservation = s.loadReservation := by
  unfold State.writeReg; split <;> rfl
@[simp] theorem State.writeReg_mem (s : State) (rd : Reg) (v : Word) : (s.writeReg rd v).mem = s.mem := by
  unfold State.writeReg; split <;> rfl
@[simp] theorem State.writeReg_requests (s : State) (rd : Reg) (v : Word) : (s.writeReg rd v).requests = s.requests := by
  unfold State.writeReg; split <;> rfl
@[simp] theorem State.writeReg_reply (s : State) (rd : Reg) (v : Word) : (s.writeReg rd v).reply = s.reply := by
  unfold State.writeReg; split <;> rfl
@[simp] theorem State.writeReg_output (s : State) (rd : Reg) (v : Word) : (s.writeReg rd v).output = s.output := by
  unfold State.writeReg; split <;> rfl

/-! ## Registers -/

@[simp] theorem State.readReg_zero (s : State) : s.readReg 0#5 = 0 := rfl

theorem State.readReg_of_ne {s : State} {r : Reg} (h : r ≠ 0) : s.readReg r = s.regs[r.toNat]'(r.isLt) := if_neg h

theorem State.writeReg_of_ne {s : State} {r : Reg} (h : r ≠ 0) (v : Word) :
    s.writeReg r v = { s with regs := s.regs.set r.toNat v r.isLt } := if_neg h

/-- A write to register 0 is discarded (R21). -/
theorem State.writeReg_zero (s : State) (v : Word) : s.writeReg 0 v = s := rfl

/-- Reading after a write: the written value at `rd`, unless `rd` is register 0 (R16, R21). -/
theorem State.readReg_writeReg (s : State) (rd r : Reg) (v : Word) :
    (s.writeReg rd v).readReg r = if r = rd ∧ r ≠ 0 then v else s.readReg r := by
  by_cases h0 : r = 0
  · rw [if_neg (fun c => c.2 h0), h0]; rfl
  by_cases hz : rd = 0
  · subst hz; rw [writeReg_zero, if_neg (fun h => h.2 h.1)]
  rw [readReg_of_ne h0, readReg_of_ne h0, writeReg_of_ne hz]
  by_cases h : r = rd
  · subst h; rw [if_pos ⟨rfl, h0⟩]; exact Vector.getElem_set_self ..
  · rw [if_neg (fun c => h c.1)]
    exact Vector.getElem_set_ne rd.isLt _ (fun e => h (BitVec.eq_of_toNat_eq e.symm))

theorem State.readReg_writeReg_self (s : State) (rd : Reg) (v : Word) (h : rd ≠ 0) :
    (s.writeReg rd v).readReg rd = v := by rw [readReg_writeReg, if_pos ⟨rfl, h⟩]

theorem State.readReg_writeReg_ne (s : State) (rd r : Reg) (v : Word) (h : r ≠ rd) :
    (s.writeReg rd v).readReg r = s.readReg r := by rw [readReg_writeReg, if_neg (fun c => h c.1)]

/-- Registers are read from `regs` alone. -/
theorem State.readReg_congr {s t : State} (h : t.regs = s.regs) (r : Reg) : t.readReg r = s.readReg r := by
  simp [readReg, h]

@[simp] theorem State.readReg_setPc (s : State) (t : Word) (r : Reg) : (s.setPc t).readReg r = s.readReg r := rfl
@[simp] theorem State.readReg_advance (s : State) (r : Reg) : s.advance.readReg r = s.readReg r := rfl
@[simp] theorem State.readReg_accept (s : State) (r : Reg) : s.accept.readReg r = s.readReg r := rfl
@[simp] theorem State.readReg_answer (s : State) (a : Reply) (r : Reg) : (s.answer a).readReg r = s.readReg r := rfl

/-- Slot 0 of the register file is never written (R21). -/
theorem State.writeReg_slotZero (s : State) (rd : Reg) (v : Word) : (s.writeReg rd v).regs[0] = s.regs[0] := by
  by_cases h : rd = 0
  · subst h; rfl
  · rw [writeReg_of_ne h]
    exact Vector.getElem_set_ne rd.isLt _ (fun e => h (BitVec.eq_of_toNat_eq e))

end Sys2Proof.Machine
end

