-- ==== Sys2Proof/Laws/Ops.lean ====
section
/-! SUPPORT. For each shared operation of the machine, one lemma that says everything it can do; and what a completed one
leaves unchanged. -/

namespace Sys2Proof.Machine

/-! ## Frames -/

theorem SameRegs.of_eq {s t : State} (h : t.regs = s.regs) : SameRegs s t := fun r => State.readReg_congr h r

theorem SameMemory.of_eq {s t : State} (h : t.mem = s.mem) : SameMemory s t := ⟨fun a => by rw [h], by rw [h]⟩

theorem writeReg_writes (s : State) (rd : Reg) (v : Word) : WritesReg s (s.writeReg rd v) rd v :=
  fun r => State.readReg_writeReg s rd r v

/-- Retiring writes the value and advances, and nothing else (R210, R284). -/
theorem retire_writes (s : State) (rd : Reg) (v : Word) : Completes (retire s rd v) fun t => WritesAndAdvances s t rd v :=
  ⟨_, rfl, fun r => by simpa using State.readReg_writeReg s rd r v, by simp, .of_eq (by simp),
    by simp [SameSystem, SamePreimage, SameStatus, SamePort]⟩

theorem retire_next {s t : State} {rd : Reg} {v : Word} (h : retire s rd v = .next t) :
    t = (s.writeReg rd v).advance := by cases h; rfl

theorem retire_ne_fault {s : State} {rd : Reg} {v : Word} {f : Fault} : retire s rd v ≠ .fault f := fun h => by cases h

/-! ## Checked operations -/

theorem orRaise_next {α : Type} {r : Except Fault α} {k : α → Result} {t : State} (h : orRaise r k = .next t) :
    ∃ a, r = .ok a ∧ k a = .next t := by
  cases r with
  | ok a => exact ⟨a, rfl, h⟩
  | error f => cases h

theorem orRaise_fault {α : Type} {r : Except Fault α} {k : α → Result} {f : Fault} (h : orRaise r k = .fault f) :
    r = .error f ∨ ∃ a, r = .ok a ∧ k a = .fault f := by
  cases r with
  | ok a => exact .inr ⟨a, rfl, h⟩
  | error g => cases h; exact .inl rfl

/-! ## Control transfers -/

theorem aligned4_iff {a : Word} : aligned4 a = true ↔ a.toNat % 4 = 0 := by simp [aligned4]

/-- Everything a transfer can do (R201, R262). -/
theorem transfer_cases (s : State) (t : Word) :
    (t.toNat % 4 = 0 ∧ transfer s t = .next (s.setPc t)) ∨
      (t.toNat % 4 ≠ 0 ∧ transfer s t = .fault (.misalignedTarget t)) := by
  unfold transfer raise
  by_cases h : aligned4 t = true
  · exact .inl ⟨aligned4_iff.1 h, if_pos h⟩
  · exact .inr ⟨fun e => h (aligned4_iff.2 e), if_neg h⟩

/-- Everything a jump can do (R260, R262). -/
theorem jumpOp_cases (rd : Reg) (t : Word) (s : State) :
    (t.toNat % 4 = 0 ∧ jumpOp rd t s = .next ((s.writeReg rd (s.pc + 4)).setPc t)) ∨
      (t.toNat % 4 ≠ 0 ∧ jumpOp rd t s = .fault (.misalignedTarget t)) := by
  unfold jumpOp raise
  by_cases h : aligned4 t = true
  · exact .inl ⟨aligned4_iff.1 h, if_pos h⟩
  · exact .inr ⟨fun e => h (aligned4_iff.2 e), if_neg h⟩

/-- Everything a branch can do (R200, R201). -/
theorem branchOp_cases (cond : Word → Word → Bool) (rs1 rs2 : Reg) (o : BitVec 13) (s : State) :
    (cond (s.readReg rs1) (s.readReg rs2) = true ∧ (branchTarget s o).toNat % 4 = 0 ∧
        branchOp cond rs1 rs2 o s = .next (s.setPc (branchTarget s o))) ∨
      (cond (s.readReg rs1) (s.readReg rs2) = true ∧ (branchTarget s o).toNat % 4 ≠ 0 ∧
        branchOp cond rs1 rs2 o s = .fault (.misalignedTarget (branchTarget s o))) ∨
      (cond (s.readReg rs1) (s.readReg rs2) = false ∧ branchOp cond rs1 rs2 o s = .next s.advance) := by
  unfold branchOp
  cases h : cond (s.readReg rs1) (s.readReg rs2)
  · exact .inr (.inr ⟨rfl, if_neg (by simp)⟩)
  · rw [if_pos rfl]
    rcases transfer_cases s (branchTarget s o) with ⟨ha, e⟩ | ⟨ha, e⟩
    · exact .inl ⟨rfl, ha, e⟩
    · exact .inr (.inl ⟨rfl, ha, e⟩)

theorem setPc_onlyPc (s : State) (t : Word) : OnlyPc s (s.setPc t) t :=
  ⟨rfl, .of_eq rfl, .of_eq rfl, by simp [SameSystem, SamePreimage, SameStatus, SamePort]⟩

theorem advance_onlyPc (s : State) : OnlyPc s s.advance (s.pc + 4) := setPc_onlyPc s _

/-! ## Loads and stores -/

/-- Everything a load can do (R181). -/
theorem loadOp_cases (n : Nat) (ext : Word → Word) (rd rs1 : Reg) (imm : BitVec 12) (s : State) :
    (inRange (effAddr s rs1 imm) n = true ∧ loadOp n ext rd rs1 imm s =
        retire s rd (ext (BitVec.ofNat 64 (leNat (s.mem.bytesAt (effAddr s rs1 imm).toNat n))))) ∨
      (inRange (effAddr s rs1 imm) n = false ∧
        loadOp n ext rd rs1 imm s = .fault (.addressRange (effAddr s rs1 imm) n)) := by
  unfold loadOp orRaise
  rcases memRead_cases s.mem (effAddr s rs1 imm) n with ⟨h, e⟩ | ⟨h, e⟩ <;> rw [e]
  · exact .inl ⟨h, rfl⟩
  · exact .inr ⟨h, rfl⟩

/-- Everything a store can do (R181). -/
theorem storeOp_cases (n : Nat) (rs2 rs1 : Reg) (imm : BitVec 12) (s : State) :
    (inRange (effAddr s rs1 imm) n = true ∧ storeOp n rs2 rs1 imm s =
        .next { s with mem := s.mem.setBytesAt (effAddr s rs1 imm).toNat (leBytes n (s.readReg rs2)) }.advance) ∨
      (inRange (effAddr s rs1 imm) n = false ∧
        storeOp n rs2 rs1 imm s = .fault (.addressRange (effAddr s rs1 imm) n)) := by
  unfold storeOp orRaise
  rcases memWrite_cases s.mem (effAddr s rs1 imm) n (s.readReg rs2) with ⟨h, e⟩ | ⟨h, e⟩ <;> rw [e]
  · exact .inl ⟨h, rfl⟩
  · exact .inr ⟨h, rfl⟩

/-! ## Fetch -/

/-- With `pc` aligned the fetch succeeds (R346). -/
theorem fetch_ok {s : State} (h : s.pc.toNat % 4 = 0) :
    fetch s = .ok ((BitVec.ofNat 64 (leNat (s.mem.bytesAt s.pc.toNat 4))).setWidth 32) := by
  have hr : inRange s.pc 4 = true := inRange_iff.2 (.inr (by have := s.pc.isLt; omega))
  unfold fetch
  rcases memRead_cases s.mem s.pc 4 with ⟨_, e⟩ | ⟨hf, _⟩
  · rw [e]
  · rw [hr] at hf; cases hf

/-- The fetched word is the one the decoder reads from the bytes at `pc` (R65). -/
theorem fetch_eq_wordOfBytes {s : State} (h : s.pc.toNat % 4 = 0) :
    fetch s = .ok (wordOfBytes (s.mem.byte s.pc.toNat) (s.mem.byte (s.pc.toNat + 1)) (s.mem.byte (s.pc.toNat + 2))
      (s.mem.byte (s.pc.toNat + 3))) := by
  rw [fetch_ok h]
  congr 1
  apply BitVec.eq_of_toNat_eq
  simp only [Memory.bytesAt, leNat, wordOfBytes, BitVec.toNat_setWidth, BitVec.toNat_ofNat]
  rw [Nat.mod_mod_of_dvd _ (by decide)]
  congr 1
  ring

/-! ## The port -/

@[simp] theorem State.report_next (s t : State) : s.report (.next t) = .next t := rfl

@[simp] theorem State.report_refused (s : State) (r : Refusal) : s.report (.refused r) = .refused r := rfl

/-- A fault at the port: the outcome of the step where nothing was presented, else the result of the command taken (R420). -/
theorem State.report_fault (s : State) (f : Fault) :
    (s.requests = [] ∧ s.report (.fault f) = .fault f) ∨
      (s.requests ≠ [] ∧ s.report (.fault f) = .next { s with requests := s.requests.tail, reply := .fault f }) := by
  by_cases h : s.requests = []
  · exact .inl ⟨h, if_pos h⟩
  · exact .inr ⟨h, if_neg h⟩

/-- A step that goes on is a command that completed, or a fault reported with nothing else changed. -/
theorem State.report_eq_next {s t : State} {r : Result} (h : s.report r = .next t) :
    r = .next t ∨ ∃ f, r = .fault f ∧ s.requests ≠ [] ∧ t = { s with requests := s.requests.tail, reply := .fault f } := by
  cases r with
  | next u => exact .inl h
  | fault f =>
    rcases s.report_fault f with ⟨_, e⟩ | ⟨hr, e⟩ <;> rw [e] at h <;> cases h
    exact .inr ⟨f, rfl, hr, rfl⟩
  | refused => cases h

/-! ## Syscalls -/

/-- A syscall that returns writes its two results and advances, and nothing else (R300). -/
theorem sysReturn_returns (s : State) (v e : Word) : Completes (sysReturn s v e) fun t => SysReturnsOnly s t v e := by
  refine ⟨_, rfl, ⟨fun r => ?_, by simp⟩, .of_eq (by simp), by simp [SameSystem, SamePreimage, SameStatus, SamePort]⟩
  simp only [State.readReg_advance, State.readReg_writeReg]
  by_cases h0 : r = a0
  · subst h0; simp [a0, a1]
  · by_cases h1 : r = a1
    · subst h1; simp [a0, a1]
    · simp [h0, h1]

theorem sysReturn_next {s t : State} {v e : Word} (h : sysReturn s v e = .next t) :
    t = ((s.writeReg a0 v).writeReg a1 e).advance := by cases h; rfl

theorem sysReturn_ne_fault {s : State} {v e : Word} {f : Fault} : sysReturn s v e ≠ .fault f := fun h => by cases h

/-- The bytes a preimage read or a key write moves lie in one leaf, so they are in range (R311, R313). -/
theorem leafClamp_le (a c : Word) : leafClamp a c ≤ 32 - a.toNat % 32 := Nat.min_le_right ..

theorem inRange_of_le_leaf {a : Word} {n : Nat} (h : n ≤ 32 - a.toNat % 32) : inRange a n = true :=
  inRange_iff.2 (.inr (by have := a.isLt; omega))

/-- What one syscall does, by its number and descriptor. -/
inductive SyscallCase (params : SyscallParams) (oracle : OracleFn) (s : State) : Prop
  | exit (h : s.readReg a7 = 93 ∨ s.readReg a7 = 94) (e : syscall params oracle s = sysExit s)
  | brk (h : s.readReg a7 = 214) (e : syscall params oracle s = sysReturn s Config.brkValue 0)
  | mmapNew (h : s.readReg a7 = 222) (h0 : s.readReg a0 = 0)
      (e : syscall params oracle s = sysReturn { s with heap := s.heap + params.round (s.readReg a1) }
        (if params.returnsNew then s.heap + params.round (s.readReg a1) else s.heap) 0)
  | mmapHint (h : s.readReg a7 = 222) (h0 : s.readReg a0 ≠ 0)
      (e : syscall params oracle s = sysReturn s (s.readReg a0) 0)
  | stdin (h : s.readReg a7 = 63) (h0 : s.readReg a0 = 0) (e : syscall params oracle s = sysReturn s 0 0)
  | hintRead (h : s.readReg a7 = 63) (h0 : s.readReg a0 = 3) (e : syscall params oracle s = sysReturn s (s.readReg a2) 0)
  | preimageRead (h : s.readReg a7 = 63) (h0 : s.readReg a0 = 5) (e : syscall params oracle s = sysPreimageRead oracle s)
  | badRead (h : s.readReg a7 = 63) (h0 : s.readReg a0 ≠ 0) (h3 : s.readReg a0 ≠ 3) (h5 : s.readReg a0 ≠ 5)
      (e : syscall params oracle s = sysBadDescriptor params s)
  | emit (h : s.readReg a7 = 64) (h0 : s.readReg a0 = 1 ∨ s.readReg a0 = 2 ∨ s.readReg a0 = 4)
      (e : syscall params oracle s = sysEmit s)
  | keyWrite (h : s.readReg a7 = 64) (h0 : s.readReg a0 = 6) (e : syscall params oracle s = sysKeyWrite s)
  | badWrite (h : s.readReg a7 = 64) (h0 : ¬(s.readReg a0 = 1 ∨ s.readReg a0 = 2 ∨ s.readReg a0 = 4))
      (h6 : s.readReg a0 ≠ 6) (e : syscall params oracle s = sysBadDescriptor params s)
  | noop (h : s.readReg a7 ∈ params.noop) (e : syscall params oracle s = sysReturn s 0 0)
  | unsupported (h : s.readReg a7 ≠ 63 ∧ s.readReg a7 ≠ 64 ∧ s.readReg a7 ≠ 93 ∧ s.readReg a7 ≠ 94 ∧
        s.readReg a7 ≠ 214 ∧ s.readReg a7 ≠ 222 ∧ s.readReg a7 ∉ params.noop)
      (e : syscall params oracle s = .fault (.unsupportedSyscall (s.readReg a7)))

/-- Every syscall is one of these (R301). -/
theorem syscall_cases (params : SyscallParams) (oracle : OracleFn) (s : State) : SyscallCase params oracle s := by
  by_cases h93 : s.readReg a7 = 93 ∨ s.readReg a7 = 94
  · exact .exit h93 (by rw [syscall, if_pos h93])
  by_cases h214 : s.readReg a7 = 214
  · exact .brk h214 (by rw [syscall, if_neg h93, if_pos h214]; rfl)
  by_cases h222 : s.readReg a7 = 222
  · have e : syscall params oracle s = sysMmap params s := by rw [syscall, if_neg h93, if_neg h214, if_pos h222]
    by_cases h0 : s.readReg a0 = 0
    · exact .mmapNew h222 h0 (by rw [e, sysMmap, if_pos h0])
    · exact .mmapHint h222 h0 (by rw [e, sysMmap, if_neg h0])
  by_cases h63 : s.readReg a7 = 63
  · have e : syscall params oracle s = sysRead params oracle s := by
      rw [syscall, if_neg h93, if_neg h214, if_neg h222, if_pos h63]
    by_cases h0 : s.readReg a0 = 0
    · exact .stdin h63 h0 (by rw [e, sysRead, if_pos h0])
    by_cases h3 : s.readReg a0 = 3
    · exact .hintRead h63 h3 (by rw [e, sysRead, if_neg h0, if_pos h3])
    by_cases h5 : s.readReg a0 = 5
    · exact .preimageRead h63 h5 (by rw [e, sysRead, if_neg h0, if_neg h3, if_pos h5])
    · exact .badRead h63 h0 h3 h5 (by rw [e, sysRead, if_neg h0, if_neg h3, if_neg h5])
  by_cases h64 : s.readReg a7 = 64
  · have e : syscall params oracle s = sysWrite params s := by
      rw [syscall, if_neg h93, if_neg h214, if_neg h222, if_neg h63, if_pos h64]
    by_cases h0 : s.readReg a0 = 1 ∨ s.readReg a0 = 2 ∨ s.readReg a0 = 4
    · exact .emit h64 h0 (by rw [e, sysWrite, if_pos h0])
    by_cases h6 : s.readReg a0 = 6
    · exact .keyWrite h64 h6 (by rw [e, sysWrite, if_neg h0, if_pos h6])
    · exact .badWrite h64 h0 h6 (by rw [e, sysWrite, if_neg h0, if_neg h6])
  by_cases hn : s.readReg a7 ∈ params.noop
  · exact .noop hn (by rw [syscall, if_neg h93, if_neg h214, if_neg h222, if_neg h63, if_neg h64, if_pos hn])
  · exact .unsupported ⟨h63, h64, fun h => h93 (.inl h), fun h => h93 (.inr h), h214, h222, hn⟩
      (by rw [syscall, if_neg h93, if_neg h214, if_neg h222, if_neg h63, if_neg h64, if_neg hn]; rfl)

/-- Everything a preimage read can do (R311). -/
theorem sysPreimageRead_cases (oracle : OracleFn) (s : State) :
    (∃ r, oracle s.preimageKey = .fail r ∧
        sysPreimageRead oracle s = .fault (.oracleError s.preimageKey s.preimageOffset r)) ∨
      ∃ p, oracle s.preimageKey = .preimage p ∧
        (((prefixed p).length < s.preimageOffset.toNat ∧
            sysPreimageRead oracle s = .fault (.oracleError s.preimageKey s.preimageOffset .offsetBeyondValue)) ∨
          (s.preimageOffset.toNat ≤ (prefixed p).length ∧
            sysPreimageRead oracle s =
              sysReturn { s with
                mem := s.mem.setBytesAt (s.readReg a1).toNat
                  (((prefixed p).drop s.preimageOffset.toNat).take (preimageCount s (prefixed p)))
                preimageOffset := s.preimageOffset + BitVec.ofNat 64 (preimageCount s (prefixed p)) }
              (BitVec.ofNat 64 (preimageCount s (prefixed p))) 0)) := by
  unfold sysPreimageRead
  cases ho : oracle s.preimageKey with
  | fail r => exact .inl ⟨r, rfl, rfl⟩
  | preimage p =>
    refine .inr ⟨p, rfl, ?_⟩
    by_cases h : (prefixed p).length < s.preimageOffset.toNat
    · exact .inl ⟨h, if_pos h⟩
    · refine .inr ⟨by omega, ?_⟩
      simp only [if_neg h]
      have hr : inRange (s.readReg a1)
          (((prefixed p).drop s.preimageOffset.toNat).take (preimageCount s (prefixed p))).length = true := by
        apply inRange_of_le_leaf
        have h1 := leafClamp_le (s.readReg a1) (s.readReg a2)
        have h2 : preimageCount s (prefixed p) ≤ leafClamp (s.readReg a1) (s.readReg a2) := Nat.min_le_left ..
        exact (List.length_take_le ..).trans (h2.trans h1)
      rcases memSetBytes_cases s.mem (s.readReg a1)
        (((prefixed p).drop s.preimageOffset.toNat).take (preimageCount s (prefixed p))) with ⟨_, e⟩ | ⟨hf, _⟩
      · rw [e]; rfl
      · rw [hr] at hf; cases hf

/-- A key write always completes (R313). -/
theorem sysKeyWrite_eq (s : State) :
    sysKeyWrite s =
      sysReturn { s with
        preimageKey := bytes32 ((s.preimageKey.toList ++
          s.mem.bytesAt (s.readReg a1).toNat (leafClamp (s.readReg a1) (s.readReg a2))).drop
            (leafClamp (s.readReg a1) (s.readReg a2)))
        preimageOffset := 0 }
      (BitVec.ofNat 64 (leafClamp (s.readReg a1) (s.readReg a2))) 0 := by
  unfold sysKeyWrite
  have hr := inRange_of_le_leaf (leafClamp_le (s.readReg a1) (s.readReg a2))
  rcases memBytes_cases s.mem (s.readReg a1) (leafClamp (s.readReg a1) (s.readReg a2)) with ⟨_, e⟩ | ⟨hf, _⟩
  · simp only [e]; rfl
  · rw [hr] at hf; cases hf

/-- Everything a console or hint write can do (R314). -/
theorem sysEmit_cases (s : State) :
    (inRange (s.readReg a1) (s.readReg a2).toNat = true ∧
        sysEmit s = sysReturn { s with
          output := s.output ++ [⟨s.readReg a0, s.mem.bytesAt (s.readReg a1).toNat (s.readReg a2).toNat⟩] }
          (s.readReg a2) 0) ∨
      (inRange (s.readReg a1) (s.readReg a2).toNat = false ∧
        sysEmit s = .fault (.addressRange (s.readReg a1) (s.readReg a2).toNat)) := by
  unfold sysEmit orRaise
  rcases memBytes_cases s.mem (s.readReg a1) (s.readReg a2).toNat with ⟨h, e⟩ | ⟨h, e⟩ <;> rw [e]
  · exact .inl ⟨h, rfl⟩
  · exact .inr ⟨h, rfl⟩

end Sys2Proof.Machine
end

