-- ==== Sys2Proof/Laws/PerInstr.lean ====
section
/-! SUPPORT. One law per instruction: the encoder puts it in the row of the opcode table that bears its mnemonic
(spec/30_encoding.md R99, R100, R101), and a command at its code (R107). -/

namespace Sys2Proof.Laws.InRow

/-- The encoding of the instruction lies in the row of its mnemonic; a command's request bears one of the ten codes. -/
def Statement (i : Instr) : Prop :=
  match encode i with
  | .word w => ∃ r ∈ rows, r.mnemonic = mnemonicOf i ∧ r.matchesWord w = true
  | .request r => i.isCommand = true ∧ r.code.toNat < 10

theorem matches_of_toNat {r : Row} {w : IWord} {n : Nat} (h : (w &&& r.mask).toNat = n) (hn : r.pattern.toNat = n) :
    r.matchesWord w = true := by
  simp only [Row.matchesWord, beq_iff_eq]
  exact BitVec.eq_of_toNat_eq (h.trans hn.symm)

theorem lb (rd rs1 : Reg) (imm : BitVec 12) : Statement (.lb rd rs1 imm) := by
  have h := encI_fields imm rs1 rd (funct3 := 0) (opcode := 0x03) (by decide) (by decide)
  exact ⟨⟨"LB", 0x00000003, 0x0000707f⟩, by simp [rows, rowsLoads], rfl, matches_of_toNat (by rw [and_funct3 _, h.2.2.1, h.1]) (by decide)⟩

theorem lh (rd rs1 : Reg) (imm : BitVec 12) : Statement (.lh rd rs1 imm) := by
  have h := encI_fields imm rs1 rd (funct3 := 1) (opcode := 0x03) (by decide) (by decide)
  exact ⟨⟨"LH", 0x00001003, 0x0000707f⟩, by simp [rows, rowsLoads], rfl, matches_of_toNat (by rw [and_funct3 _, h.2.2.1, h.1]) (by decide)⟩

theorem lw (rd rs1 : Reg) (imm : BitVec 12) : Statement (.lw rd rs1 imm) := by
  have h := encI_fields imm rs1 rd (funct3 := 2) (opcode := 0x03) (by decide) (by decide)
  exact ⟨⟨"LW", 0x00002003, 0x0000707f⟩, by simp [rows, rowsLoads], rfl, matches_of_toNat (by rw [and_funct3 _, h.2.2.1, h.1]) (by decide)⟩

theorem ld (rd rs1 : Reg) (imm : BitVec 12) : Statement (.ld rd rs1 imm) := by
  have h := encI_fields imm rs1 rd (funct3 := 3) (opcode := 0x03) (by decide) (by decide)
  exact ⟨⟨"LD", 0x00003003, 0x0000707f⟩, by simp [rows, rowsLoads], rfl, matches_of_toNat (by rw [and_funct3 _, h.2.2.1, h.1]) (by decide)⟩

theorem lbu (rd rs1 : Reg) (imm : BitVec 12) : Statement (.lbu rd rs1 imm) := by
  have h := encI_fields imm rs1 rd (funct3 := 4) (opcode := 0x03) (by decide) (by decide)
  exact ⟨⟨"LBU", 0x00004003, 0x0000707f⟩, by simp [rows, rowsLoads], rfl, matches_of_toNat (by rw [and_funct3 _, h.2.2.1, h.1]) (by decide)⟩

theorem lhu (rd rs1 : Reg) (imm : BitVec 12) : Statement (.lhu rd rs1 imm) := by
  have h := encI_fields imm rs1 rd (funct3 := 5) (opcode := 0x03) (by decide) (by decide)
  exact ⟨⟨"LHU", 0x00005003, 0x0000707f⟩, by simp [rows, rowsLoads], rfl, matches_of_toNat (by rw [and_funct3 _, h.2.2.1, h.1]) (by decide)⟩

theorem lwu (rd rs1 : Reg) (imm : BitVec 12) : Statement (.lwu rd rs1 imm) := by
  have h := encI_fields imm rs1 rd (funct3 := 6) (opcode := 0x03) (by decide) (by decide)
  exact ⟨⟨"LWU", 0x00006003, 0x0000707f⟩, by simp [rows, rowsLoads], rfl, matches_of_toNat (by rw [and_funct3 _, h.2.2.1, h.1]) (by decide)⟩

theorem sb (rs2 rs1 : Reg) (imm : BitVec 12) : Statement (.sb rs2 rs1 imm) := by
  have h := encS_fields imm rs2 rs1 (funct3 := 0) (opcode := 0x23) (by decide) (by decide)
  exact ⟨⟨"SB", 0x00000023, 0x0000707f⟩, by simp [rows, rowsStores], rfl, matches_of_toNat (by rw [and_funct3 _, h.2.1, h.1]) (by decide)⟩

theorem sh (rs2 rs1 : Reg) (imm : BitVec 12) : Statement (.sh rs2 rs1 imm) := by
  have h := encS_fields imm rs2 rs1 (funct3 := 1) (opcode := 0x23) (by decide) (by decide)
  exact ⟨⟨"SH", 0x00001023, 0x0000707f⟩, by simp [rows, rowsStores], rfl, matches_of_toNat (by rw [and_funct3 _, h.2.1, h.1]) (by decide)⟩

theorem sw (rs2 rs1 : Reg) (imm : BitVec 12) : Statement (.sw rs2 rs1 imm) := by
  have h := encS_fields imm rs2 rs1 (funct3 := 2) (opcode := 0x23) (by decide) (by decide)
  exact ⟨⟨"SW", 0x00002023, 0x0000707f⟩, by simp [rows, rowsStores], rfl, matches_of_toNat (by rw [and_funct3 _, h.2.1, h.1]) (by decide)⟩

theorem sd (rs2 rs1 : Reg) (imm : BitVec 12) : Statement (.sd rs2 rs1 imm) := by
  have h := encS_fields imm rs2 rs1 (funct3 := 3) (opcode := 0x23) (by decide) (by decide)
  exact ⟨⟨"SD", 0x00003023, 0x0000707f⟩, by simp [rows, rowsStores], rfl, matches_of_toNat (by rw [and_funct3 _, h.2.1, h.1]) (by decide)⟩

theorem beq (rs1 rs2 : Reg) (offset : BitVec 13) : Statement (.beq rs1 rs2 offset) := by
  have h := encB_fields offset rs2 rs1 (funct3 := 0) (opcode := 0x63) (by decide) (by decide)
  exact ⟨⟨"BEQ", 0x00000063, 0x0000707f⟩, by simp [rows, rowsBranches], rfl, matches_of_toNat (by rw [and_funct3 _, h.2.1, h.1]) (by decide)⟩

theorem bne (rs1 rs2 : Reg) (offset : BitVec 13) : Statement (.bne rs1 rs2 offset) := by
  have h := encB_fields offset rs2 rs1 (funct3 := 1) (opcode := 0x63) (by decide) (by decide)
  exact ⟨⟨"BNE", 0x00001063, 0x0000707f⟩, by simp [rows, rowsBranches], rfl, matches_of_toNat (by rw [and_funct3 _, h.2.1, h.1]) (by decide)⟩

theorem blt (rs1 rs2 : Reg) (offset : BitVec 13) : Statement (.blt rs1 rs2 offset) := by
  have h := encB_fields offset rs2 rs1 (funct3 := 4) (opcode := 0x63) (by decide) (by decide)
  exact ⟨⟨"BLT", 0x00004063, 0x0000707f⟩, by simp [rows, rowsBranches], rfl, matches_of_toNat (by rw [and_funct3 _, h.2.1, h.1]) (by decide)⟩

theorem bge (rs1 rs2 : Reg) (offset : BitVec 13) : Statement (.bge rs1 rs2 offset) := by
  have h := encB_fields offset rs2 rs1 (funct3 := 5) (opcode := 0x63) (by decide) (by decide)
  exact ⟨⟨"BGE", 0x00005063, 0x0000707f⟩, by simp [rows, rowsBranches], rfl, matches_of_toNat (by rw [and_funct3 _, h.2.1, h.1]) (by decide)⟩

theorem bltu (rs1 rs2 : Reg) (offset : BitVec 13) : Statement (.bltu rs1 rs2 offset) := by
  have h := encB_fields offset rs2 rs1 (funct3 := 6) (opcode := 0x63) (by decide) (by decide)
  exact ⟨⟨"BLTU", 0x00006063, 0x0000707f⟩, by simp [rows, rowsBranches], rfl, matches_of_toNat (by rw [and_funct3 _, h.2.1, h.1]) (by decide)⟩

theorem bgeu (rs1 rs2 : Reg) (offset : BitVec 13) : Statement (.bgeu rs1 rs2 offset) := by
  have h := encB_fields offset rs2 rs1 (funct3 := 7) (opcode := 0x63) (by decide) (by decide)
  exact ⟨⟨"BGEU", 0x00007063, 0x0000707f⟩, by simp [rows, rowsBranches], rfl, matches_of_toNat (by rw [and_funct3 _, h.2.1, h.1]) (by decide)⟩

theorem addi (rd rs1 : Reg) (imm : BitVec 12) : Statement (.addi rd rs1 imm) := by
  have h := encI_fields imm rs1 rd (funct3 := 0) (opcode := 0x13) (by decide) (by decide)
  exact ⟨⟨"ADDI", 0x00000013, 0x0000707f⟩, by simp [rows, rowsOpImm], rfl, matches_of_toNat (by rw [and_funct3 _, h.2.2.1, h.1]) (by decide)⟩

theorem slti (rd rs1 : Reg) (imm : BitVec 12) : Statement (.slti rd rs1 imm) := by
  have h := encI_fields imm rs1 rd (funct3 := 2) (opcode := 0x13) (by decide) (by decide)
  exact ⟨⟨"SLTI", 0x00002013, 0x0000707f⟩, by simp [rows, rowsOpImm], rfl, matches_of_toNat (by rw [and_funct3 _, h.2.2.1, h.1]) (by decide)⟩

theorem sltiu (rd rs1 : Reg) (imm : BitVec 12) : Statement (.sltiu rd rs1 imm) := by
  have h := encI_fields imm rs1 rd (funct3 := 3) (opcode := 0x13) (by decide) (by decide)
  exact ⟨⟨"SLTIU", 0x00003013, 0x0000707f⟩, by simp [rows, rowsOpImm], rfl, matches_of_toNat (by rw [and_funct3 _, h.2.2.1, h.1]) (by decide)⟩

theorem xori (rd rs1 : Reg) (imm : BitVec 12) : Statement (.xori rd rs1 imm) := by
  have h := encI_fields imm rs1 rd (funct3 := 4) (opcode := 0x13) (by decide) (by decide)
  exact ⟨⟨"XORI", 0x00004013, 0x0000707f⟩, by simp [rows, rowsOpImm], rfl, matches_of_toNat (by rw [and_funct3 _, h.2.2.1, h.1]) (by decide)⟩

theorem ori (rd rs1 : Reg) (imm : BitVec 12) : Statement (.ori rd rs1 imm) := by
  have h := encI_fields imm rs1 rd (funct3 := 6) (opcode := 0x13) (by decide) (by decide)
  exact ⟨⟨"ORI", 0x00006013, 0x0000707f⟩, by simp [rows, rowsOpImm], rfl, matches_of_toNat (by rw [and_funct3 _, h.2.2.1, h.1]) (by decide)⟩

theorem andi (rd rs1 : Reg) (imm : BitVec 12) : Statement (.andi rd rs1 imm) := by
  have h := encI_fields imm rs1 rd (funct3 := 7) (opcode := 0x13) (by decide) (by decide)
  exact ⟨⟨"ANDI", 0x00007013, 0x0000707f⟩, by simp [rows, rowsOpImm], rfl, matches_of_toNat (by rw [and_funct3 _, h.2.2.1, h.1]) (by decide)⟩

theorem slli (rd rs1 : Reg) (shamt : BitVec 6) : Statement (.slli rd rs1 shamt) := by
  have h := encShift6_fields shamt rs1 rd (funct6 := 0x00) (funct3 := 1) (opcode := 0x13) (by decide) (by decide) (by decide)
  exact ⟨⟨"SLLI", 0x00001013, 0xfc00707f⟩, by simp [rows, rowsOpImm], rfl, matches_of_toNat (by rw [and_funct6 _, h.2.2.2.2.2, h.2.2.1, h.1]) (by decide)⟩

theorem srli (rd rs1 : Reg) (shamt : BitVec 6) : Statement (.srli rd rs1 shamt) := by
  have h := encShift6_fields shamt rs1 rd (funct6 := 0x00) (funct3 := 5) (opcode := 0x13) (by decide) (by decide) (by decide)
  exact ⟨⟨"SRLI", 0x00005013, 0xfc00707f⟩, by simp [rows, rowsOpImm], rfl, matches_of_toNat (by rw [and_funct6 _, h.2.2.2.2.2, h.2.2.1, h.1]) (by decide)⟩

theorem srai (rd rs1 : Reg) (shamt : BitVec 6) : Statement (.srai rd rs1 shamt) := by
  have h := encShift6_fields shamt rs1 rd (funct6 := 0x10) (funct3 := 5) (opcode := 0x13) (by decide) (by decide) (by decide)
  exact ⟨⟨"SRAI", 0x40005013, 0xfc00707f⟩, by simp [rows, rowsOpImm], rfl, matches_of_toNat (by rw [and_funct6 _, h.2.2.2.2.2, h.2.2.1, h.1]) (by decide)⟩

theorem add (rd rs1 rs2 : Reg) : Statement (.add rd rs1 rs2) := by
  have h := encR_fields rs2 rs1 rd (funct7 := 0x00) (funct3 := 0) (opcode := 0x33) (by decide) (by decide) (by decide)
  exact ⟨⟨"ADD", 0x00000033, 0xfe00707f⟩, by simp [rows, rowsOp], rfl, matches_of_toNat (by rw [and_funct7 _, h.2.2.2.2.2, h.2.2.1, h.1]) (by decide)⟩

theorem sub (rd rs1 rs2 : Reg) : Statement (.sub rd rs1 rs2) := by
  have h := encR_fields rs2 rs1 rd (funct7 := 0x20) (funct3 := 0) (opcode := 0x33) (by decide) (by decide) (by decide)
  exact ⟨⟨"SUB", 0x40000033, 0xfe00707f⟩, by simp [rows, rowsOp], rfl, matches_of_toNat (by rw [and_funct7 _, h.2.2.2.2.2, h.2.2.1, h.1]) (by decide)⟩

theorem sll (rd rs1 rs2 : Reg) : Statement (.sll rd rs1 rs2) := by
  have h := encR_fields rs2 rs1 rd (funct7 := 0x00) (funct3 := 1) (opcode := 0x33) (by decide) (by decide) (by decide)
  exact ⟨⟨"SLL", 0x00001033, 0xfe00707f⟩, by simp [rows, rowsOp], rfl, matches_of_toNat (by rw [and_funct7 _, h.2.2.2.2.2, h.2.2.1, h.1]) (by decide)⟩

theorem slt (rd rs1 rs2 : Reg) : Statement (.slt rd rs1 rs2) := by
  have h := encR_fields rs2 rs1 rd (funct7 := 0x00) (funct3 := 2) (opcode := 0x33) (by decide) (by decide) (by decide)
  exact ⟨⟨"SLT", 0x00002033, 0xfe00707f⟩, by simp [rows, rowsOp], rfl, matches_of_toNat (by rw [and_funct7 _, h.2.2.2.2.2, h.2.2.1, h.1]) (by decide)⟩

theorem sltu (rd rs1 rs2 : Reg) : Statement (.sltu rd rs1 rs2) := by
  have h := encR_fields rs2 rs1 rd (funct7 := 0x00) (funct3 := 3) (opcode := 0x33) (by decide) (by decide) (by decide)
  exact ⟨⟨"SLTU", 0x00003033, 0xfe00707f⟩, by simp [rows, rowsOp], rfl, matches_of_toNat (by rw [and_funct7 _, h.2.2.2.2.2, h.2.2.1, h.1]) (by decide)⟩

theorem srl (rd rs1 rs2 : Reg) : Statement (.srl rd rs1 rs2) := by
  have h := encR_fields rs2 rs1 rd (funct7 := 0x00) (funct3 := 5) (opcode := 0x33) (by decide) (by decide) (by decide)
  exact ⟨⟨"SRL", 0x00005033, 0xfe00707f⟩, by simp [rows, rowsOp], rfl, matches_of_toNat (by rw [and_funct7 _, h.2.2.2.2.2, h.2.2.1, h.1]) (by decide)⟩

theorem sra (rd rs1 rs2 : Reg) : Statement (.sra rd rs1 rs2) := by
  have h := encR_fields rs2 rs1 rd (funct7 := 0x20) (funct3 := 5) (opcode := 0x33) (by decide) (by decide) (by decide)
  exact ⟨⟨"SRA", 0x40005033, 0xfe00707f⟩, by simp [rows, rowsOp], rfl, matches_of_toNat (by rw [and_funct7 _, h.2.2.2.2.2, h.2.2.1, h.1]) (by decide)⟩

theorem xor (rd rs1 rs2 : Reg) : Statement (.xor rd rs1 rs2) := by
  have h := encR_fields rs2 rs1 rd (funct7 := 0x00) (funct3 := 4) (opcode := 0x33) (by decide) (by decide) (by decide)
  exact ⟨⟨"XOR", 0x00004033, 0xfe00707f⟩, by simp [rows, rowsOp], rfl, matches_of_toNat (by rw [and_funct7 _, h.2.2.2.2.2, h.2.2.1, h.1]) (by decide)⟩

theorem or (rd rs1 rs2 : Reg) : Statement (.or rd rs1 rs2) := by
  have h := encR_fields rs2 rs1 rd (funct7 := 0x00) (funct3 := 6) (opcode := 0x33) (by decide) (by decide) (by decide)
  exact ⟨⟨"OR", 0x00006033, 0xfe00707f⟩, by simp [rows, rowsOp], rfl, matches_of_toNat (by rw [and_funct7 _, h.2.2.2.2.2, h.2.2.1, h.1]) (by decide)⟩

theorem and (rd rs1 rs2 : Reg) : Statement (.and rd rs1 rs2) := by
  have h := encR_fields rs2 rs1 rd (funct7 := 0x00) (funct3 := 7) (opcode := 0x33) (by decide) (by decide) (by decide)
  exact ⟨⟨"AND", 0x00007033, 0xfe00707f⟩, by simp [rows, rowsOp], rfl, matches_of_toNat (by rw [and_funct7 _, h.2.2.2.2.2, h.2.2.1, h.1]) (by decide)⟩

theorem addiw (rd rs1 : Reg) (imm : BitVec 12) : Statement (.addiw rd rs1 imm) := by
  have h := encI_fields imm rs1 rd (funct3 := 0) (opcode := 0x1b) (by decide) (by decide)
  exact ⟨⟨"ADDIW", 0x0000001b, 0x0000707f⟩, by simp [rows, rowsOp32], rfl, matches_of_toNat (by rw [and_funct3 _, h.2.2.1, h.1]) (by decide)⟩

theorem slliw (rd rs1 : Reg) (shamt : BitVec 5) : Statement (.slliw rd rs1 shamt) := by
  have h := encR_fields shamt rs1 rd (funct7 := 0x00) (funct3 := 1) (opcode := 0x1b) (by decide) (by decide) (by decide)
  exact ⟨⟨"SLLIW", 0x0000101b, 0xfe00707f⟩, by simp [rows, rowsOp32], rfl, matches_of_toNat (by rw [and_funct7 _, h.2.2.2.2.2, h.2.2.1, h.1]) (by decide)⟩

theorem srliw (rd rs1 : Reg) (shamt : BitVec 5) : Statement (.srliw rd rs1 shamt) := by
  have h := encR_fields shamt rs1 rd (funct7 := 0x00) (funct3 := 5) (opcode := 0x1b) (by decide) (by decide) (by decide)
  exact ⟨⟨"SRLIW", 0x0000501b, 0xfe00707f⟩, by simp [rows, rowsOp32], rfl, matches_of_toNat (by rw [and_funct7 _, h.2.2.2.2.2, h.2.2.1, h.1]) (by decide)⟩

theorem sraiw (rd rs1 : Reg) (shamt : BitVec 5) : Statement (.sraiw rd rs1 shamt) := by
  have h := encR_fields shamt rs1 rd (funct7 := 0x20) (funct3 := 5) (opcode := 0x1b) (by decide) (by decide) (by decide)
  exact ⟨⟨"SRAIW", 0x4000501b, 0xfe00707f⟩, by simp [rows, rowsOp32], rfl, matches_of_toNat (by rw [and_funct7 _, h.2.2.2.2.2, h.2.2.1, h.1]) (by decide)⟩

theorem addw (rd rs1 rs2 : Reg) : Statement (.addw rd rs1 rs2) := by
  have h := encR_fields rs2 rs1 rd (funct7 := 0x00) (funct3 := 0) (opcode := 0x3b) (by decide) (by decide) (by decide)
  exact ⟨⟨"ADDW", 0x0000003b, 0xfe00707f⟩, by simp [rows, rowsOp32], rfl, matches_of_toNat (by rw [and_funct7 _, h.2.2.2.2.2, h.2.2.1, h.1]) (by decide)⟩

theorem subw (rd rs1 rs2 : Reg) : Statement (.subw rd rs1 rs2) := by
  have h := encR_fields rs2 rs1 rd (funct7 := 0x20) (funct3 := 0) (opcode := 0x3b) (by decide) (by decide) (by decide)
  exact ⟨⟨"SUBW", 0x4000003b, 0xfe00707f⟩, by simp [rows, rowsOp32], rfl, matches_of_toNat (by rw [and_funct7 _, h.2.2.2.2.2, h.2.2.1, h.1]) (by decide)⟩

theorem sllw (rd rs1 rs2 : Reg) : Statement (.sllw rd rs1 rs2) := by
  have h := encR_fields rs2 rs1 rd (funct7 := 0x00) (funct3 := 1) (opcode := 0x3b) (by decide) (by decide) (by decide)
  exact ⟨⟨"SLLW", 0x0000103b, 0xfe00707f⟩, by simp [rows, rowsOp32], rfl, matches_of_toNat (by rw [and_funct7 _, h.2.2.2.2.2, h.2.2.1, h.1]) (by decide)⟩

theorem srlw (rd rs1 rs2 : Reg) : Statement (.srlw rd rs1 rs2) := by
  have h := encR_fields rs2 rs1 rd (funct7 := 0x00) (funct3 := 5) (opcode := 0x3b) (by decide) (by decide) (by decide)
  exact ⟨⟨"SRLW", 0x0000503b, 0xfe00707f⟩, by simp [rows, rowsOp32], rfl, matches_of_toNat (by rw [and_funct7 _, h.2.2.2.2.2, h.2.2.1, h.1]) (by decide)⟩

theorem sraw (rd rs1 rs2 : Reg) : Statement (.sraw rd rs1 rs2) := by
  have h := encR_fields rs2 rs1 rd (funct7 := 0x20) (funct3 := 5) (opcode := 0x3b) (by decide) (by decide) (by decide)
  exact ⟨⟨"SRAW", 0x4000503b, 0xfe00707f⟩, by simp [rows, rowsOp32], rfl, matches_of_toNat (by rw [and_funct7 _, h.2.2.2.2.2, h.2.2.1, h.1]) (by decide)⟩

theorem lui (rd : Reg) (imm : BitVec 20) : Statement (.lui rd imm) := by
  have h := encU_fields imm rd (opcode := 0x37) (by decide)
  exact ⟨⟨"LUI", 0x00000037, 0x0000007f⟩, by simp [rows, rowsJumps], rfl, matches_of_toNat (by rw [and_opcode _, h.1]) (by decide)⟩

theorem auipc (rd : Reg) (imm : BitVec 20) : Statement (.auipc rd imm) := by
  have h := encU_fields imm rd (opcode := 0x17) (by decide)
  exact ⟨⟨"AUIPC", 0x00000017, 0x0000007f⟩, by simp [rows, rowsJumps], rfl, matches_of_toNat (by rw [and_opcode _, h.1]) (by decide)⟩

theorem jal (rd : Reg) (offset : BitVec 21) : Statement (.jal rd offset) := by
  have h := encJ_fields offset rd (opcode := 0x6f) (by decide)
  exact ⟨⟨"JAL", 0x0000006f, 0x0000007f⟩, by simp [rows, rowsJumps], rfl, matches_of_toNat (by rw [and_opcode _, h.1]) (by decide)⟩

theorem jalr (rd rs1 : Reg) (imm : BitVec 12) : Statement (.jalr rd rs1 imm) := by
  have h := encI_fields imm rs1 rd (funct3 := 0) (opcode := 0x67) (by decide) (by decide)
  exact ⟨⟨"JALR", 0x00000067, 0x0000707f⟩, by simp [rows, rowsJumps], rfl, matches_of_toNat (by rw [and_funct3 _, h.2.2.1, h.1]) (by decide)⟩

theorem mul (rd rs1 rs2 : Reg) : Statement (.mul rd rs1 rs2) := by
  have h := encR_fields rs2 rs1 rd (funct7 := 0x01) (funct3 := 0) (opcode := 0x33) (by decide) (by decide) (by decide)
  exact ⟨⟨"MUL", 0x02000033, 0xfe00707f⟩, by simp [rows, rowsMulDiv], rfl, matches_of_toNat (by rw [and_funct7 _, h.2.2.2.2.2, h.2.2.1, h.1]) (by decide)⟩

theorem mulh (rd rs1 rs2 : Reg) : Statement (.mulh rd rs1 rs2) := by
  have h := encR_fields rs2 rs1 rd (funct7 := 0x01) (funct3 := 1) (opcode := 0x33) (by decide) (by decide) (by decide)
  exact ⟨⟨"MULH", 0x02001033, 0xfe00707f⟩, by simp [rows, rowsMulDiv], rfl, matches_of_toNat (by rw [and_funct7 _, h.2.2.2.2.2, h.2.2.1, h.1]) (by decide)⟩

theorem mulhsu (rd rs1 rs2 : Reg) : Statement (.mulhsu rd rs1 rs2) := by
  have h := encR_fields rs2 rs1 rd (funct7 := 0x01) (funct3 := 2) (opcode := 0x33) (by decide) (by decide) (by decide)
  exact ⟨⟨"MULHSU", 0x02002033, 0xfe00707f⟩, by simp [rows, rowsMulDiv], rfl, matches_of_toNat (by rw [and_funct7 _, h.2.2.2.2.2, h.2.2.1, h.1]) (by decide)⟩

theorem mulhu (rd rs1 rs2 : Reg) : Statement (.mulhu rd rs1 rs2) := by
  have h := encR_fields rs2 rs1 rd (funct7 := 0x01) (funct3 := 3) (opcode := 0x33) (by decide) (by decide) (by decide)
  exact ⟨⟨"MULHU", 0x02003033, 0xfe00707f⟩, by simp [rows, rowsMulDiv], rfl, matches_of_toNat (by rw [and_funct7 _, h.2.2.2.2.2, h.2.2.1, h.1]) (by decide)⟩

theorem div (rd rs1 rs2 : Reg) : Statement (.div rd rs1 rs2) := by
  have h := encR_fields rs2 rs1 rd (funct7 := 0x01) (funct3 := 4) (opcode := 0x33) (by decide) (by decide) (by decide)
  exact ⟨⟨"DIV", 0x02004033, 0xfe00707f⟩, by simp [rows, rowsMulDiv], rfl, matches_of_toNat (by rw [and_funct7 _, h.2.2.2.2.2, h.2.2.1, h.1]) (by decide)⟩

theorem divu (rd rs1 rs2 : Reg) : Statement (.divu rd rs1 rs2) := by
  have h := encR_fields rs2 rs1 rd (funct7 := 0x01) (funct3 := 5) (opcode := 0x33) (by decide) (by decide) (by decide)
  exact ⟨⟨"DIVU", 0x02005033, 0xfe00707f⟩, by simp [rows, rowsMulDiv], rfl, matches_of_toNat (by rw [and_funct7 _, h.2.2.2.2.2, h.2.2.1, h.1]) (by decide)⟩

theorem rem (rd rs1 rs2 : Reg) : Statement (.rem rd rs1 rs2) := by
  have h := encR_fields rs2 rs1 rd (funct7 := 0x01) (funct3 := 6) (opcode := 0x33) (by decide) (by decide) (by decide)
  exact ⟨⟨"REM", 0x02006033, 0xfe00707f⟩, by simp [rows, rowsMulDiv], rfl, matches_of_toNat (by rw [and_funct7 _, h.2.2.2.2.2, h.2.2.1, h.1]) (by decide)⟩

theorem remu (rd rs1 rs2 : Reg) : Statement (.remu rd rs1 rs2) := by
  have h := encR_fields rs2 rs1 rd (funct7 := 0x01) (funct3 := 7) (opcode := 0x33) (by decide) (by decide) (by decide)
  exact ⟨⟨"REMU", 0x02007033, 0xfe00707f⟩, by simp [rows, rowsMulDiv], rfl, matches_of_toNat (by rw [and_funct7 _, h.2.2.2.2.2, h.2.2.1, h.1]) (by decide)⟩

theorem mulw (rd rs1 rs2 : Reg) : Statement (.mulw rd rs1 rs2) := by
  have h := encR_fields rs2 rs1 rd (funct7 := 0x01) (funct3 := 0) (opcode := 0x3b) (by decide) (by decide) (by decide)
  exact ⟨⟨"MULW", 0x0200003b, 0xfe00707f⟩, by simp [rows, rowsMulDivW], rfl, matches_of_toNat (by rw [and_funct7 _, h.2.2.2.2.2, h.2.2.1, h.1]) (by decide)⟩

theorem divw (rd rs1 rs2 : Reg) : Statement (.divw rd rs1 rs2) := by
  have h := encR_fields rs2 rs1 rd (funct7 := 0x01) (funct3 := 4) (opcode := 0x3b) (by decide) (by decide) (by decide)
  exact ⟨⟨"DIVW", 0x0200403b, 0xfe00707f⟩, by simp [rows, rowsMulDivW], rfl, matches_of_toNat (by rw [and_funct7 _, h.2.2.2.2.2, h.2.2.1, h.1]) (by decide)⟩

theorem divuw (rd rs1 rs2 : Reg) : Statement (.divuw rd rs1 rs2) := by
  have h := encR_fields rs2 rs1 rd (funct7 := 0x01) (funct3 := 5) (opcode := 0x3b) (by decide) (by decide) (by decide)
  exact ⟨⟨"DIVUW", 0x0200503b, 0xfe00707f⟩, by simp [rows, rowsMulDivW], rfl, matches_of_toNat (by rw [and_funct7 _, h.2.2.2.2.2, h.2.2.1, h.1]) (by decide)⟩

theorem remw (rd rs1 rs2 : Reg) : Statement (.remw rd rs1 rs2) := by
  have h := encR_fields rs2 rs1 rd (funct7 := 0x01) (funct3 := 6) (opcode := 0x3b) (by decide) (by decide) (by decide)
  exact ⟨⟨"REMW", 0x0200603b, 0xfe00707f⟩, by simp [rows, rowsMulDivW], rfl, matches_of_toNat (by rw [and_funct7 _, h.2.2.2.2.2, h.2.2.1, h.1]) (by decide)⟩

theorem remuw (rd rs1 rs2 : Reg) : Statement (.remuw rd rs1 rs2) := by
  have h := encR_fields rs2 rs1 rd (funct7 := 0x01) (funct3 := 7) (opcode := 0x3b) (by decide) (by decide) (by decide)
  exact ⟨⟨"REMUW", 0x0200703b, 0xfe00707f⟩, by simp [rows, rowsMulDivW], rfl, matches_of_toNat (by rw [and_funct7 _, h.2.2.2.2.2, h.2.2.1, h.1]) (by decide)⟩

theorem ecall : Statement .ecall :=
  ⟨⟨"ECALL", 0x00000073, 0xffffffff⟩, by simp [rows, rowsSystem], rfl, by decide⟩

theorem ebreak : Statement .ebreak :=
  ⟨⟨"EBREAK", 0x00100073, 0xffffffff⟩, by simp [rows, rowsSystem], rfl, by decide⟩

theorem fence (fm pred succ : BitVec 4) (rs1 rd : Reg) : Statement (.fence fm pred succ rs1 rd) := by
  have h := encFence_fields fm pred succ rs1 rd
  exact ⟨⟨"FENCE", 0x0000000f, 0x0000707f⟩, by simp [rows, rowsSystem], rfl, matches_of_toNat (by rw [and_funct3 _, h.2.2.1, h.1]) (by decide)⟩

theorem fenceI (imm : BitVec 12) (rs1 rd : Reg) : Statement (.fenceI imm rs1 rd) := by
  have h := encI_fields imm rs1 rd (funct3 := 1) (opcode := 0x0f) (by decide) (by decide)
  exact ⟨⟨"FENCE.I", 0x0000100f, 0x0000707f⟩, by simp [rows, rowsSystem], rfl, matches_of_toNat (by rw [and_funct3 _, h.2.2.1, h.1]) (by decide)⟩

theorem aSlot (funct5 : BitVec 5) (aq rl : BitVec 1) (rs2 rs1 : Reg) (funct3 : BitVec 3) (rd : Reg) : Statement (.aSlot funct5 aq rl rs2 rs1 funct3 rd) := by
  have h := encASlot_fields funct5 aq rl rs2 rs1 funct3 rd
  exact ⟨⟨"A-SLOT", 0x0000002f, 0x0000007f⟩, by simp [rows, rowsSystem], rfl, matches_of_toNat (by rw [and_opcode _, h.1]) (by decide)⟩

theorem cmdRead (addr : Word) (len : Nat) : Statement (.cmdRead addr len) := ⟨rfl, Nat.le_of_ble_eq_true rfl⟩

theorem cmdWrite (addr : Word) (bytes : List Byte) : Statement (.cmdWrite addr bytes) := ⟨rfl, Nat.le_of_ble_eq_true rfl⟩

theorem cmdRoot : Statement .cmdRoot := ⟨rfl, Nat.le_of_ble_eq_true rfl⟩

theorem cmdProof (addr : Word) : Statement (.cmdProof addr) := ⟨rfl, Nat.le_of_ble_eq_true rfl⟩

theorem cmdSerialize : Statement .cmdSerialize := ⟨rfl, Nat.le_of_ble_eq_true rfl⟩

theorem cmdDeserialize (bytes : List Byte) : Statement (.cmdDeserialize bytes) := ⟨rfl, Nat.le_of_ble_eq_true rfl⟩

theorem cmdEncodeState : Statement .cmdEncodeState := ⟨rfl, Nat.le_of_ble_eq_true rfl⟩

theorem cmdDecodeState (bytes : List Byte) : Statement (.cmdDecodeState bytes) := ⟨rfl, Nat.le_of_ble_eq_true rfl⟩

theorem cmdStateHash : Statement .cmdStateHash := ⟨rfl, Nat.le_of_ble_eq_true rfl⟩

theorem cmdStep (proofMode : Bool) : Statement (.cmdStep proofMode) := ⟨rfl, Nat.le_of_ble_eq_true rfl⟩

end Sys2Proof.Laws.InRow
end

