-- ==== Sys2Proof/Laws/Stepper.lean ====
section
/-! SUPPORT. The stepper: a fetched word decodes to no command, the stepper runs what the dispatch runs, and everything a
`STEP` and an instruction can do (spec/49_step_codec_witness.md R340). -/

namespace Sys2Proof.Machine

/-- No word decodes to a command. -/
theorem decodeWord_not_command {w : IWord} {i : Instr} (h : decodeWord w = .ok i) : i.isCommand = false := by
  have hf : decodeFields w = some i := by
    unfold decodeWord at h
    split at h
    · cases h; assumption
    · cases h
  revert hf
  unfold decodeFields decodeLoad decodeMiscMem decodeOpImm decodeOpImm32 decodeStore decodeASlot decodeOp decodeOp32
    decodeBranch decodeJalr decodeSystem
  intro hf
  repeat' split at hf
  all_goals first
    | (cases hf; rfl)
    | cases hf

/-- The stepper runs what the dispatch runs. -/
theorem runInstr_eq_exec {i : Instr} (h : i.isCommand = false) (s : State) : runInstr i s = exec i s := by
  cases i <;> first | rfl | cases h

/-- What an instruction word can do: the effect of its class, or its class's own fault. -/
inductive WordCase (i : Instr) (s : State) : Prop
  | retires (rd : Reg) (v : Word) (e : exec i s = retire s rd v)
  | stores (a : Word) (n : Nat) (v : Word) (ha : accessOf s i = some (a, n)) (hr : inRange a n = true)
      (e : exec i s = .next { s with mem := s.mem.setBytesAt a.toNat (leBytes n v) }.advance)
  | jumps (rd : Reg) (t : Word) (ht : t.toNat % 4 = 0) (e : exec i s = .next ((s.writeReg rd (s.pc + 4)).setPc t))
  | branches (t : Word) (ht : t.toNat % 4 = 0) (e : exec i s = .next (s.setPc t))
  | advances (e : exec i s = .next s.advance)
  | calls (h : i = .ecall) (e : exec i s = syscall syscallDefaults Config.oracle s)
  | faults (f : Fault) (h : OwnFault i s f) (e : exec i s = .fault f)

theorem wordCase_load {i : Instr} {s : State} {n : Nat} {ext : Word → Word} {rd rs1 : Reg} {imm : BitVec 12}
    (ha : accessOf s i = some (effAddr s rs1 imm, n)) (e : exec i s = loadOp n ext rd rs1 imm s) : WordCase i s := by
  rcases loadOp_cases n ext rd rs1 imm s with ⟨_, h⟩ | ⟨_, h⟩
  · exact .retires _ _ (e.trans h)
  · exact .faults _ (.inl ⟨_, _, ha, rfl⟩) (e.trans h)

theorem wordCase_store {i : Instr} {s : State} {n : Nat} {rs2 rs1 : Reg} {imm : BitVec 12}
    (ha : accessOf s i = some (effAddr s rs1 imm, n)) (e : exec i s = storeOp n rs2 rs1 imm s) : WordCase i s := by
  rcases storeOp_cases n rs2 rs1 imm s with ⟨hr, h⟩ | ⟨_, h⟩
  · exact .stores _ _ _ ha hr (e.trans h)
  · exact .faults _ (.inl ⟨_, _, ha, rfl⟩) (e.trans h)

theorem wordCase_branch {i : Instr} {s : State} {cond : Word → Word → Bool} {rs1 rs2 : Reg} {o : BitVec 13}
    (hi : transfersControl i = true) (e : exec i s = branchOp cond rs1 rs2 o s) : WordCase i s := by
  rcases branchOp_cases cond rs1 rs2 o s with ⟨_, ht, h⟩ | ⟨_, _, h⟩ | ⟨_, h⟩
  · exact .branches _ ht (e.trans h)
  · exact .faults _ (.inr (.inl ⟨hi, _, rfl⟩)) (e.trans h)
  · exact .advances (e.trans h)

theorem wordCase_jump {i : Instr} {s : State} {rd : Reg} {t : Word} (hi : transfersControl i = true)
    (e : exec i s = jumpOp rd t s) : WordCase i s := by
  rcases jumpOp_cases rd t s with ⟨ht, h⟩ | ⟨_, h⟩
  · exact .jumps _ _ ht (e.trans h)
  · exact .faults _ (.inr (.inl ⟨hi, _, rfl⟩)) (e.trans h)

theorem exec_cases {i : Instr} (hi : i.isCommand = false) (s : State) : WordCase i s := by
  cases i with
  | lb | lh | lw | ld | lbu | lhu | lwu => exact wordCase_load rfl rfl
  | sb | sh | sw | sd => exact wordCase_store rfl rfl
  | beq | bne | blt | bge | bltu | bgeu => exact wordCase_branch rfl rfl
  | jal | jalr => exact wordCase_jump rfl rfl
  | ecall => exact .calls rfl rfl
  | ebreak | fence | fenceI => exact .advances rfl
  | aSlot f5 aq rl rs2 rs1 f3 rd =>
    exact .faults _ (.inr (.inr (.inr ⟨_, rfl, (encASlot_fields f5 aq rl rs2 rs1 f3 rd).1, rfl⟩))) rfl
  | cmdRead | cmdWrite | cmdRoot | cmdProof | cmdSerialize | cmdDeserialize | cmdEncodeState | cmdDecodeState
  | cmdStateHash | cmdStep => cases hi
  | _ => exact .retires _ _ rfl

/-- Everything a `STEP` can do (R340, R344, R346). -/
theorem execCmdStep_cases (p : Bool) (s : State) :
    (s.exited = true ∧
        execCmdStep p s = .next (s.answer (stepReply p (idleWitness Config.hash s)))) ∨
      (s.exited = false ∧ s.pc.toNat % 4 ≠ 0 ∧ execCmdStep p s = .fault (.misalignedFetch s.pc)) ∨
      (s.exited = false ∧ s.pc.toNat % 4 = 0 ∧ ∃ w, fetch s = .ok w ∧
        ((decodeWord w = .error (.unrecognized w) ∧ execCmdStep p s = .fault (.decodeError w)) ∨
          ∃ i, decodeWord w = .ok i ∧ i.isCommand = false ∧
            ((∃ t, exec i s = .next t ∧ execCmdStep p s = .next (finishStep p s i t)) ∨
              (∃ f, exec i s = .fault f ∧ execCmdStep p s = .fault f) ∨
              ∃ r, exec i s = .refused r ∧ execCmdStep p s = .refused r))) := by
  unfold execCmdStep
  cases he : s.exited
  · refine .inr ?_
    by_cases ha : s.pc.toNat % 4 = 0
    · refine .inr ⟨rfl, ha, _, fetch_ok ha, ?_⟩
      rw [if_neg (by simp), if_pos (aligned4_iff.2 ha), fetch_ok ha]
      generalize (BitVec.ofNat 64 (leNat (s.mem.bytesAt s.pc.toNat 4))).setWidth 32 = w
      simp only [orRaise]
      cases hd : decodeWord w with
      | ok i =>
        refine .inr ⟨i, rfl, decodeWord_not_command hd, ?_⟩
        simp only [runStep]
        rw [runInstr_eq_exec (decodeWord_not_command hd)]
        cases hx : exec i s with
        | next t => exact .inl ⟨t, rfl, rfl⟩
        | fault f => exact .inr (.inl ⟨f, rfl, rfl⟩)
        | refused r => exact .inr (.inr ⟨r, rfl, rfl⟩)
      | error e =>
        refine .inl ⟨?_, rfl⟩
        unfold decodeWord at hd
        split at hd <;> cases hd
        rfl
    · exact .inl ⟨rfl, ha, by rw [if_neg (by simp), if_neg (fun h => ha (aligned4_iff.1 h))]; rfl⟩
  · exact .inl ⟨rfl, if_pos rfl⟩

/-- A completed `STEP` of a machine that had not exited is a completed instruction, finished. -/
theorem execCmdStep_next {p : Bool} {s t : State} (he : s.exited = false) (h : execCmdStep p s = .next t) :
    ∃ w i u, fetch s = .ok w ∧ decodeWord w = .ok i ∧ i.isCommand = false ∧ exec i s = .next u ∧
      t = finishStep p s i u := by
  rcases execCmdStep_cases p s with ⟨hx, _⟩ | ⟨_, _, e⟩ | ⟨_, _, w, hw, h'⟩
  · rw [hx] at he; cases he
  · rw [e] at h; cases h
  · rcases h' with ⟨_, e⟩ | ⟨i, hd, hi, ⟨u, hu, e⟩ | ⟨_, _, e⟩ | ⟨_, _, e⟩⟩
    · rw [e] at h; cases h
    · rw [e] at h; cases h; exact ⟨w, i, u, hw, hd, hi, hu, rfl⟩
    · rw [e] at h; cases h
    · rw [e] at h; cases h

/-- Everything a step of the machine can do (R107, R412). -/
theorem step_cases (s : State) :
    (∃ i, decodeRequest s.pendingRequest = .ok i ∧ i.isCommand = true ∧ step s = s.report (exec i s.accept)) ∨
      (10 ≤ s.pendingRequest.code.toNat ∧ s.requests ≠ [] ∧
        step s = .next { s with requests := s.requests.tail, reply := .fault (.badCommand s.pendingRequest.code) }) := by
  have hp : 10 ≤ s.pendingRequest.code.toNat → s.requests ≠ [] := by
    intro h e
    rw [State.pendingRequest, e] at h
    exact absurd h (by decide)
  unfold step
  generalize s.pendingRequest = r at hp ⊢
  unfold decodeRequest
  split
  all_goals first
    | exact .inl ⟨_, rfl, rfl, rfl⟩
    | (rename_i h0 h1 h2 h3 h4 h5 h6 h7 h8 h9
       change ¬_ at h0 h1 h2 h3 h4 h5 h6 h7 h8 h9
       have h : 10 ≤ r.code.toNat := by omega
       exact .inr ⟨h, hp h, if_neg (hp h)⟩)

end Sys2Proof.Machine
end

