-- ==== Sys2Proof/Tests/Slice0.lean ====
section
/-! SUPPORT. Tests of one step each and the witnesses of the obligations' hypotheses. Every expected value is the spec's: the
worked example of the rule named in the comment, or hand calculation from the rule. -/

namespace Sys2Proof.Tests

open Sys2Proof.Machine

/-! ## Helpers -/

/-- A machine whose `pc` is `pc`, with the registers given and the word `w` standing at `pc`. -/
def machine (pc : Word) (regs : List (Reg × Word)) (w : IWord) : State :=
  (regs.foldl (fun (s : State) r => s.writeReg r.1 r.2) { State.reset with pc := pc }).placeWord w.toNat

/-- The machine with the bytes `b` at `a`. -/
def withBytes (s : State) (a : Nat) (b : List Byte) : State := { s with mem := s.mem.setBytesAt a b }

def regAfter (r : Result) (rd : Reg) : Option Word :=
  match r with
  | .next t => some (t.readReg rd)
  | _ => none

def pcAfter (r : Result) : Option Word :=
  match r with
  | .next t => some t.pc
  | _ => none

def bytesAfter (r : Result) (a n : Nat) : Option (List Byte) :=
  match r with
  | .next t => some (t.mem.bytesAt a n)
  | _ => none

def faultOf (r : Result) : Option Fault :=
  match r with
  | .fault f => some f
  | _ => none

/-- `x7` after one step of the word `w` at 0x100, with `x5` and `x6` as given. -/
def x7After (x5 x6 : Word) (w : IWord) : Option Word := regAfter (step (machine 0x100 [(5, x5), (6, x6)] w)) 7

/-- `pc` after the same step. -/
def pcOf (x5 x6 : Word) (w : IWord) : Option Word := pcAfter (step (machine 0x100 [(5, x5), (6, x6)] w))

/-- The fault of the same step. -/
def faultAt (x5 x6 : Word) (w : IWord) : Option Fault := faultOf (step (machine 0x100 [(5, x5), (6, x6)] w))

/-- The memory of the load examples (spec/42_loads_stores.md, opening): the bytes at 0x1000 to 0x100F. -/
def loadAfter (w : IWord) : Option Word :=
  regAfter (step (withBytes (machine 0x100 [(5, 0x1000)] w) 0x1000
    [0x80, 0xff, 0x7f, 0x01, 0x80, 0, 0, 0, 0xff, 0xff, 0xff, 0xff, 0xff, 0xff, 0xff, 0x7f])) 7

/-- Memory after a store example: `x5` as given, `x6 = 0x1122334455667788`. -/
def storeAfter (x5 : Word) (w : IWord) (a n : Nat) : Option (List Byte) :=
  bytesAfter (step (machine 0x100 [(5, x5), (6, 0x1122334455667788)] w)) a n

/-- A machine about to execute ECALL at 0x100 with the four argument registers as given (R300). -/
def calling (n x10 x11 x12 : Word) : State := machine 0x100 [(17, n), (10, x10), (11, x11), (12, x12)] 0x00000073

/-! ## Well-formedness: an ill-formed term for each check -/

theorem test_wellFormed_even : (Instr.beq 5 6 0x1ffe).wellFormed = true ∧ (Instr.jal 7 0x1ffffe).wellFormed = true := by decide

theorem test_wellFormed_oddBranch :
    (Instr.beq 5 6 1).wellFormed = false ∧ (Instr.bne 5 6 3).wellFormed = false ∧ (Instr.blt 5 6 0x1fff).wellFormed = false ∧
    (Instr.bge 5 6 1).wellFormed = false ∧ (Instr.bltu 5 6 1).wellFormed = false ∧ (Instr.bgeu 5 6 1).wellFormed = false := by
  decide

theorem test_wellFormed_oddJump : (Instr.jal 0 1).wellFormed = false ∧ (Instr.jal 0 0x1fffff).wellFormed = false := by decide

/-! ## Decoding: every constructor, from a word of the spec's examples -/

/-- R182 to R188 -/
theorem test_decode_loads :
    decodeWord 0x00228383 = .ok (.lb 7 5 2) ∧ decodeWord 0x00129383 = .ok (.lh 7 5 1) ∧
    decodeWord 0xffc02383 = .ok (.lw 7 0 0xffc) ∧ decodeWord 0x03d03383 = .ok (.ld 7 0 0x3d) ∧
    decodeWord 0x0002c383 = .ok (.lbu 7 5 0) ∧ decodeWord 0x0022d383 = .ok (.lhu 7 5 2) ∧
    decodeWord 0x0042e383 = .ok (.lwu 7 5 4) := by refine ⟨?_, ?_, ?_, ?_, ?_, ?_, ?_⟩ <;> rfl

/-- R189 to R192 -/
theorem test_decode_stores :
    decodeWord 0xfe600fa3 = .ok (.sb 6 0 0xfff) ∧ decodeWord 0x00629123 = .ok (.sh 6 5 2) ∧
    decodeWord 0x00602223 = .ok (.sw 6 0 4) ∧ decodeWord 0x0062bea3 = .ok (.sd 6 5 0x1d) := by
  refine ⟨?_, ?_, ?_, ?_⟩ <;> rfl

/-- R202 to R207 -/
theorem test_decode_branches :
    decodeWord 0xf06280e3 = .ok (.beq 5 6 0x1f00) ∧ decodeWord 0xfe029ce3 = .ok (.bne 5 0 0x1ff8) ∧
    decodeWord 0x0062c863 = .ok (.blt 5 6 16) ∧ decodeWord 0x0062d863 = .ok (.bge 5 6 16) ∧
    decodeWord 0x0062e863 = .ok (.bltu 5 6 16) ∧ decodeWord 0x0062f863 = .ok (.bgeu 5 6 16) := by
  refine ⟨?_, ?_, ?_, ?_, ?_, ?_⟩ <;> rfl

/-- R211 to R219 -/
theorem test_decode_opImm :
    decodeWord 0x7ff28393 = .ok (.addi 7 5 0x7ff) ∧ decodeWord 0xfff2a393 = .ok (.slti 7 5 0xfff) ∧
    decodeWord 0x0012b393 = .ok (.sltiu 7 5 1) ∧ decodeWord 0xfff2c393 = .ok (.xori 7 5 0xfff) ∧
    decodeWord 0x00f2e393 = .ok (.ori 7 5 15) ∧ decodeWord 0xff02f393 = .ok (.andi 7 5 0xff0) ∧
    decodeWord 0x03f29393 = .ok (.slli 7 5 63) ∧ decodeWord 0x03f2d393 = .ok (.srli 7 5 63) ∧
    decodeWord 0x4042d393 = .ok (.srai 7 5 4) := by refine ⟨?_, ?_, ?_, ?_, ?_, ?_, ?_, ?_, ?_⟩ <;> rfl

/-- R220 to R229 -/
theorem test_decode_op :
    decodeWord 0x006283b3 = .ok (.add 7 5 6) ∧ decodeWord 0x406283b3 = .ok (.sub 7 5 6) ∧
    decodeWord 0x006293b3 = .ok (.sll 7 5 6) ∧ decodeWord 0x0062a3b3 = .ok (.slt 7 5 6) ∧
    decodeWord 0x0062b3b3 = .ok (.sltu 7 5 6) ∧ decodeWord 0x0062d3b3 = .ok (.srl 7 5 6) ∧
    decodeWord 0x4062d3b3 = .ok (.sra 7 5 6) ∧ decodeWord 0x0062c3b3 = .ok (.xor 7 5 6) ∧
    decodeWord 0x0062e3b3 = .ok (.or 7 5 6) ∧ decodeWord 0x0062f3b3 = .ok (.and 7 5 6) := by
  refine ⟨?_, ?_, ?_, ?_, ?_, ?_, ?_, ?_, ?_, ?_⟩ <;> rfl

/-- R230 to R238 -/
theorem test_decode_word :
    decodeWord 0x0012839b = .ok (.addiw 7 5 1) ∧ decodeWord 0x01f2939b = .ok (.slliw 7 5 31) ∧
    decodeWord 0x01f2d39b = .ok (.srliw 7 5 31) ∧ decodeWord 0x41f2d39b = .ok (.sraiw 7 5 31) ∧
    decodeWord 0x006283bb = .ok (.addw 7 5 6) ∧ decodeWord 0x406283bb = .ok (.subw 7 5 6) ∧
    decodeWord 0x006293bb = .ok (.sllw 7 5 6) ∧ decodeWord 0x0062d3bb = .ok (.srlw 7 5 6) ∧
    decodeWord 0x4062d3bb = .ok (.sraw 7 5 6) := by refine ⟨?_, ?_, ?_, ?_, ?_, ?_, ?_, ?_, ?_⟩ <;> rfl

/-- R239, R240, R261, R263 -/
theorem test_decode_upper_jumps :
    decodeWord 0x123453b7 = .ok (.lui 7 0x12345) ∧ decodeWord 0x80000397 = .ok (.auipc 7 0x80000) ∧
    decodeWord 0x7fdff3ef = .ok (.jal 7 0xffffc) ∧ decodeWord 0xffc28067 = .ok (.jalr 0 5 0xffc) := by
  refine ⟨?_, ?_, ?_, ?_⟩ <;> rfl

/-- R270 to R282 -/
theorem test_decode_mulDiv :
    decodeWord 0x026283b3 = .ok (.mul 7 5 6) ∧ decodeWord 0x026293b3 = .ok (.mulh 7 5 6) ∧
    decodeWord 0x0262a3b3 = .ok (.mulhsu 7 5 6) ∧ decodeWord 0x0262b3b3 = .ok (.mulhu 7 5 6) ∧
    decodeWord 0x0262c3b3 = .ok (.div 7 5 6) ∧ decodeWord 0x0262d3b3 = .ok (.divu 7 5 6) ∧
    decodeWord 0x0262e3b3 = .ok (.rem 7 5 6) ∧ decodeWord 0x0262f3b3 = .ok (.remu 7 5 6) ∧
    decodeWord 0x026283bb = .ok (.mulw 7 5 6) ∧ decodeWord 0x0262c3bb = .ok (.divw 7 5 6) ∧
    decodeWord 0x0262d3bb = .ok (.divuw 7 5 6) ∧ decodeWord 0x0262e3bb = .ok (.remw 7 5 6) ∧
    decodeWord 0x0262f3bb = .ok (.remuw 7 5 6) := by
  refine ⟨?_, ?_, ?_, ?_, ?_, ?_, ?_, ?_, ?_, ?_, ?_, ?_, ?_⟩ <;> rfl

/-- R300, R317 to R319, R290 -/
theorem test_decode_system :
    decodeWord 0x00000073 = .ok .ecall ∧ decodeWord 0x00100073 = .ok .ebreak ∧
    decodeWord 0x0ff0000f = .ok (.fence 0 15 15 0 0) ∧ decodeWord 0x0000100f = .ok (.fenceI 0 0 0) ∧
    decodeWord 0x1002a3af = .ok (.aSlot 2 0 0 0 5 2 7) := by refine ⟨?_, ?_, ?_, ?_, ?_⟩ <;> rfl

/-- R102, R217, R231, R263, R318: words the spec names as decode faults. -/
theorem test_decode_reserved :
    decodeWord 0x80129393 = .error (.unrecognized 0x80129393) ∧ decodeWord 0x0202939b = .error (.unrecognized 0x0202939b) ∧
    decodeWord 0x000293e7 = .error (.unrecognized 0x000293e7) ∧ decodeWord 0x0000200f = .error (.unrecognized 0x0000200f) ∧
    decodeWord 0x00000000 = .error (.unrecognized 0) ∧ decodeWord 0xffffffff = .error (.unrecognized 0xffffffff) := by
  refine ⟨?_, ?_, ?_, ?_, ?_, ?_⟩ <;> rfl

/-- R107: the ten codes, and the six that name no command. -/
theorem test_decode_commands :
    decodeRequest ⟨0, 7, 3, [], false⟩ = .ok (.cmdRead 7 3) ∧ decodeRequest ⟨1, 7, 0, [1, 2], false⟩ = .ok (.cmdWrite 7 [1, 2]) ∧
    decodeRequest (bareRequest 2) = .ok .cmdRoot ∧ decodeRequest ⟨3, 7, 0, [], false⟩ = .ok (.cmdProof 7) ∧
    decodeRequest (bareRequest 4) = .ok .cmdSerialize ∧ decodeRequest ⟨5, 0, 0, [1], false⟩ = .ok (.cmdDeserialize [1]) ∧
    decodeRequest (bareRequest 6) = .ok .cmdEncodeState ∧ decodeRequest ⟨7, 0, 0, [1], false⟩ = .ok (.cmdDecodeState [1]) ∧
    decodeRequest (bareRequest 8) = .ok .cmdStateHash ∧ decodeRequest ⟨9, 0, 0, [], true⟩ = .ok (.cmdStep true) ∧
    decodeRequest (bareRequest 10) = .error (.badCommand 10) ∧ decodeRequest (bareRequest 15) = .error (.badCommand 15) := by
  refine ⟨?_, ?_, ?_, ?_, ?_, ?_, ?_, ?_, ?_, ?_, ?_, ?_⟩ <;> rfl

/-! ## Loads and stores (spec/42_loads_stores.md) -/

/-- R182 -/
theorem test_lb : loadAfter 0x00028383 = some 0xffffffffffffff80 ∧ loadAfter 0x00228383 = some 0x7f := by decide

/-- R183 -/
theorem test_lh : loadAfter 0x00029383 = some 0xffffffffffffff80 ∧ loadAfter 0x00129383 = some 0x7fff := by decide

/-- R184 -/
theorem test_lw : loadAfter 0x0002a383 = some 0x17fff80 ∧ loadAfter 0x0082a383 = some 0xffffffffffffffff := by decide

/-- R185 -/
theorem test_ld : loadAfter 0x0002b383 = some 0x80017fff80 ∧ loadAfter 0x0082b383 = some 0x7fffffffffffffff := by decide

/-- R185: the doubleword runs past the last address, the word at the same place does not. -/
theorem test_ld_range : faultAt 0 0 0xffc03383 = some (.addressRange 0xfffffffffffffffc 8) ∧ faultAt 0 0 0xffc02383 = none := by
  decide

/-- R186 -/
theorem test_lbu : loadAfter 0x0002c383 = some 0x80 := by decide

/-- R187 -/
theorem test_lhu : loadAfter 0x0002d383 = some 0xff80 ∧ loadAfter 0x0022d383 = some 0x17f := by decide

/-- R188 -/
theorem test_lwu : loadAfter 0x0082e383 = some 0xffffffff ∧ loadAfter 0x0042e383 = some 0x80 := by decide

/-- R189 -/
theorem test_sb : storeAfter 0x2000 0x00628023 0x2000 2 = some [0x88, 0] ∧
    storeAfter 0 0xfe600fa3 (2 ^ 64 - 1) 1 = some [0x88] := by decide

/-- R190 -/
theorem test_sh : storeAfter 0x2000 0x00629123 0x2001 4 = some [0, 0x88, 0x77, 0] := by decide

/-- R191 -/
theorem test_sw : storeAfter 0x2004 0xfe62ae23 0x2000 5 = some [0x88, 0x77, 0x66, 0x55, 0] := by decide

/-- R192 -/
theorem test_sd : storeAfter 0x2000 0x0062bea3 0x201d 8 = some [0x88, 0x77, 0x66, 0x55, 0x44, 0x33, 0x22, 0x11] := by decide

/-- R192: a store that would run past the last address. -/
theorem test_sd_range : faultAt 0 5 0xfe603fa3 = some (.addressRange 0xffffffffffffffff 8) := by decide

/-! ## Branches and jumps (spec/43_branches.md, spec/45_jumps.md) -/

/-- R202 -/
theorem test_beq : pcOf 5 5 0x00628863 = some 0x110 ∧ pcOf 5 6 0x00628863 = some 0x104 ∧ pcOf 5 5 0xf06280e3 = some 0 := by
  decide

/-- R201, R202: a misaligned target faults only when the branch is taken. -/
theorem test_beq_misaligned : faultAt 5 5 0x00628163 = some (.misalignedTarget 0x102) ∧ pcOf 5 6 0x00628163 = some 0x104 := by
  decide

/-- R203 -/
theorem test_bne : pcOf 5 6 0x00629863 = some 0x110 ∧ pcOf 5 5 0x00629863 = some 0x104 := by decide

/-- R204 -/
theorem test_blt : pcOf 0xffffffffffffffff 1 0x0062c863 = some 0x110 ∧ pcOf 3 3 0x0062c863 = some 0x104 := by decide

/-- R205 -/
theorem test_bge : pcOf 3 3 0x0062d863 = some 0x110 ∧ pcOf 0x8000000000000000 0 0x0062d863 = some 0x104 := by decide

/-- R206 -/
theorem test_bltu : pcOf 0xffffffffffffffff 1 0x0062e863 = some 0x104 ∧ pcOf 1 0xffffffffffffffff 0x0062e863 = some 0x110 := by
  decide

/-- R207 -/
theorem test_bgeu : pcOf 0x8000000000000000 0 0x0062f863 = some 0x110 ∧ pcOf 0 1 0x0062f863 = some 0x104 := by decide

/-- R261 -/
theorem test_jal : x7After 0 0 0xffdff3ef = some 0x104 ∧ pcOf 0 0 0xffdff3ef = some 0xfc ∧ pcOf 0 0 0x7fdff3ef = some 0x1000fc := by
  decide

/-- R262 -/
theorem test_jump_misaligned : faultAt 0 0 0x002003ef = some (.misalignedTarget 0x102) ∧
    faultAt 0x200 0 0x003283e7 = some (.misalignedTarget 0x202) := by decide

/-- R263: bit 0 of the sum is cleared; the base register may be the link register. -/
theorem test_jalr : pcOf 0x200 0 0x001283e7 = some 0x200 ∧ x7After 0x200 0 0x001283e7 = some 0x104 ∧
    pcAfter (step (machine 0x100 [(7, 0x400)] 0x000383e7)) = some 0x400 ∧
    regAfter (step (machine 0x100 [(7, 0x400)] 0x000383e7)) 7 = some 0x104 ∧
    pcOf 0 0 0xffc28067 = some 0xfffffffffffffffc := by decide

/-! ## The ALU (spec/44_alu.md) -/

/-- R211, with the source's own example. -/
theorem test_addi : x7After 0 0 0xfff28393 = some 0xffffffffffffffff ∧ x7After 0xffffffffffffffff 0 0x7ff28393 = some 0x7fe ∧
    regAfter (step (machine 0 [] 0x00500093)) 1 = some 5 ∧ pcAfter (step (machine 0 [] 0x00500093)) = some 4 := by decide

/-- R212 -/
theorem test_slti : x7After 0xfffffffffffffffe 0 0xfff2a393 = some 1 := by decide

/-- R213 -/
theorem test_sltiu : x7After 5 0 0xfff2b393 = some 1 ∧ x7After 0 0 0x0012b393 = some 1 ∧ x7After 1 0 0x0012b393 = some 0 := by
  decide

/-- R214 to R216 -/
theorem test_xori_ori_andi : x7After 0xf0 0 0xfff2c393 = some 0xffffffffffffff0f ∧ x7After 0xf0 0 0x00f2e393 = some 0xff ∧
    x7After 0xff 0 0xff02f393 = some 0xf0 := by decide

/-- R217 to R219 -/
theorem test_slli_srli_srai : x7After 1 0 0x03f29393 = some 0x8000000000000000 ∧
    x7After 0x8000000000000000 0 0x03f2d393 = some 1 ∧
    x7After 0x8000000000000000 0 0x43f2d393 = some 0xffffffffffffffff ∧
    x7After 0xffffffffffffff00 0 0x4042d393 = some 0xfffffffffffffff0 := by decide

/-- R220, R221 -/
theorem test_add_sub : x7After 0xffffffffffffffff 1 0x006283b3 = some 0 ∧ x7After 0 1 0x406283b3 = some 0xffffffffffffffff := by
  decide

/-- R222, R225, R226: only six bits of the amount count. -/
theorem test_sll_srl_sra : x7After 1 65 0x006293b3 = some 2 ∧
    x7After 0x8000000000000000 64 0x0062d3b3 = some 0x8000000000000000 ∧
    x7After 0x8000000000000000 127 0x4062d3b3 = some 0xffffffffffffffff := by decide

/-- R223, R224: the same operands, signed and unsigned. -/
theorem test_slt_sltu : x7After 0xffffffffffffffff 1 0x0062a3b3 = some 1 ∧ x7After 0xffffffffffffffff 1 0x0062b3b3 = some 0 := by
  decide

/-- R227 to R229 -/
theorem test_xor_or_and : x7After 0xff00 0x0ff0 0x0062c3b3 = some 0xf0f0 ∧ x7After 0xff00 0x0ff0 0x0062e3b3 = some 0xfff0 ∧
    x7After 0xff00 0x0ff0 0x0062f3b3 = some 0x0f00 := by decide

/-- R230 -/
theorem test_addiw : x7After 0x7fffffff 0 0x0012839b = some 0xffffffff80000000 ∧
    x7After 0x180000000 0 0x0002839b = some 0xffffffff80000000 := by decide

/-- R231 to R233 -/
theorem test_slliw_srliw_sraiw : x7After 1 0 0x01f2939b = some 0xffffffff80000000 ∧ x7After 0x80000000 0 0x01f2d39b = some 1 ∧
    x7After 0xffffffff 0 0x0002d39b = some 0xffffffffffffffff ∧ x7After 0x80000000 0 0x41f2d39b = some 0xffffffffffffffff := by
  decide

/-- R234, R235 -/
theorem test_addw_subw : x7After 0x7fffffff 1 0x006283bb = some 0xffffffff80000000 ∧
    x7After 0 1 0x406283bb = some 0xffffffffffffffff := by decide

/-- R236 to R238: only five bits of the amount count, and only the low word is shifted. -/
theorem test_sllw_srlw_sraw : x7After 1 33 0x006293bb = some 2 ∧ x7After 0xffffffff80000000 4 0x0062d3bb = some 0x08000000 ∧
    x7After 0xffffffff80000000 4 0x4062d3bb = some 0xfffffffff8000000 := by decide

/-- R239 -/
theorem test_lui : x7After 0 0 0x123453b7 = some 0x12345000 ∧ x7After 0 0 0x800003b7 = some 0xffffffff80000000 := by decide

/-- R240 -/
theorem test_auipc : regAfter (step (machine 0x1000 [] 0x00001397)) 7 = some 0x2000 ∧
    regAfter (step (machine 0x1000 [] 0x80000397)) 7 = some 0xffffffff80001000 := by decide

/-! ## Multiply and divide (spec/46_muldiv.md) -/

/-- R270 -/
theorem test_mul : x7After 0xffffffffffffffff 0xffffffffffffffff 0x026283b3 = some 1 := by decide

/-- R271 -/
theorem test_mulh : x7After 0xffffffffffffffff 0xffffffffffffffff 0x026293b3 = some 0 ∧
    x7After 0x8000000000000000 0x8000000000000000 0x026293b3 = some 0x4000000000000000 := by decide

/-- R272, R273 -/
theorem test_mulhsu_mulhu : x7After 0xffffffffffffffff 0xffffffffffffffff 0x0262a3b3 = some 0xffffffffffffffff ∧
    x7After 0xffffffffffffffff 0xffffffffffffffff 0x0262b3b3 = some 0xfffffffffffffffe := by decide

/-- R274 -/
theorem test_div : x7After 42 0 0x0262c3b3 = some 0xffffffffffffffff ∧
    x7After 0x8000000000000000 0xffffffffffffffff 0x0262c3b3 = some 0x8000000000000000 ∧
    x7After 0xfffffffffffffff9 2 0x0262c3b3 = some 0xfffffffffffffffd := by decide

/-- R275 -/
theorem test_divu : x7After 42 0 0x0262d3b3 = some 0xffffffffffffffff ∧
    x7After 0xffffffffffffffff 2 0x0262d3b3 = some 0x7fffffffffffffff := by decide

/-- R276; the last two by hand: the dividend for a zero divisor, 0 for the overflow pair. -/
theorem test_rem : x7After 0xfffffffffffffff9 2 0x0262e3b3 = some 0xffffffffffffffff ∧ x7After 42 0 0x0262e3b3 = some 42 ∧
    x7After 0x8000000000000000 0xffffffffffffffff 0x0262e3b3 = some 0 := by decide

/-- R277 -/
theorem test_remu : x7After 42 0 0x0262f3b3 = some 42 ∧ x7After 0xffffffffffffffff 10 0x0262f3b3 = some 5 := by decide

/-- R278 -/
theorem test_mulw : x7After 0x10000 0x10000 0x026283bb = some 0 ∧
    x7After 0xffff 0x10001 0x026283bb = some 0xffffffffffffffff := by decide

/-- R279: only the low word of the divisor is tested. -/
theorem test_divw : x7After 42 0x100000000 0x0262c3bb = some 0xffffffffffffffff ∧
    x7After 0x80000000 0xffffffff 0x0262c3bb = some 0xffffffff80000000 := by decide

/-- R280 -/
theorem test_divuw : x7After 0xffffffff 1 0x0262d3bb = some 0xffffffffffffffff ∧
    x7After 42 0 0x0262d3bb = some 0xffffffffffffffff := by decide

/-- R281 -/
theorem test_remw : x7After 0x80000001 0 0x0262e3bb = some 0xffffffff80000001 ∧ x7After 0x80000000 0xffffffff 0x0262e3bb = some 0 := by
  decide

/-- R282 -/
theorem test_remuw : x7After 0xffffffff 0 0x0262f3bb = some 0xffffffffffffffff ∧ x7After 0xffffffff 16 0x0262f3bb = some 15 := by
  decide

/-! ## System (spec/48_system.md, spec/47_atomics.md) -/

/-- R305: the source's scenario. -/
theorem test_exit :
    (match step (calling 93 7 0 0) with
    | .next t => some (t.exited, t.exitCode, t.pc, t.stepCount)
    | _ => none) = some (true, 7, 0x104, 1) := by decide

/-- R308: the source's scenario, and a hint. -/
theorem test_mmap :
    (match step (calling 222 0 0x1000 0) with
    | .next t => some (t.heap, t.readReg 10, t.readReg 11)
    | _ => none) = some (0x1000, 0x1000, 0) ∧
    (match step (calling 222 0x5000 0x1000 0) with
    | .next t => some (t.heap, t.readReg 10, t.readReg 11)
    | _ => none) = some (0, 0x5000, 0) := by decide

/-- R307, R309, R312, R315: brk, a bad descriptor, stdin, hint-read, a no-op. -/
theorem test_small_syscalls :
    regAfter (step (calling 214 9 0 0)) 10 = some 0x40000000 ∧ regAfter (step (calling 63 7 0 4)) 11 = some 0x4d ∧
    regAfter (step (calling 64 5 0 4)) 10 = some 0xffffffffffffffff ∧ regAfter (step (calling 63 0 0 4)) 10 = some 0 ∧
    regAfter (step (calling 63 3 0 4)) 10 = some 4 ∧ regAfter (step (calling 124 9 9 9)) 10 = some 0 := by decide

/-- R301, R316: the whole of `a7` is compared. -/
theorem test_unsupported : faultOf (step (calling 9999 0 0 0)) = some (.unsupportedSyscall 9999) ∧
    faultOf (step (calling 0x10000005d 0 0 0)) = some (.unsupportedSyscall 0x10000005d) := by decide

/-- R314: the spec's example. -/
theorem test_write_stdout :
    (match step (withBytes (calling 64 1 0x400 3) 0x400 [0x68, 0x69, 0x0a]) with
    | .next t => some (t.output, t.readReg 10, t.readReg 11)
    | _ => none) = some ([⟨1, [0x68, 0x69, 0x0a]⟩], 3, 0) := by decide

/-- R313: four bytes fit in the leaf from 0x21C; they are shifted in at the end of the key. -/
theorem test_key_write :
    (match step (withBytes (calling 64 6 0x21c 32) 0x21c [1, 2, 3, 4]) with
    | .next t => some (t.preimageKey.toList.drop 27, t.preimageOffset, t.readReg 10)
    | _ => none) = some ([0, 1, 2, 3, 4], 0, 4) := by decide

/-- R311: the source's scenario, with an oracle that knows one preimage. -/
theorem test_preimage_read :
    (match syscall syscallDefaults (fun _ => .preimage [0x68, 0x65, 0x6c, 0x6c, 0x6f]) { calling 63 5 0x80 4 with preimageOffset := 8 } with
    | .next t => some (t.mem.bytesAt 0x80 5, t.preimageOffset, t.readReg 10)
    | _ => none) = some ([0x68, 0x65, 0x6c, 0x6c, 0], 12, 4) := by decide

/-- R317 to R319 -/
theorem test_no_ops : pcOf 0 0 0x00100073 = some 0x104 ∧ pcOf 0 0 0x8330000f = some 0x104 ∧ pcOf 0 0 0x0000100f = some 0x104 := by
  decide

/-- R290: the two examples. -/
theorem test_a_slot : faultAt 0 0 0x0062b3af = some (.unimplementedAtomic 0x0062b3af) ∧
    faultAt 0 0 0x1002a3af = some (.unimplementedAtomic 0x1002a3af) := by decide

/-! ## The arithmetic unit (spec/40_arith_unit.md R121 to R131) -/

theorem test_au :
    auAdd (0xffffffffffffffff : Word) 1 = 0 ∧ auSub (0 : Word) 1 = 0xffffffffffffffff ∧
    auMul (0x100000000 : Word) 0x100000000 = 0 ∧ auDiv (7 : Word) 2 = 3 ∧ auDiv (7 : Word) 0 = 0 ∧ auMod (7 : Word) 2 = 1 ∧
    auSmod (0xfffffffffffffff9 : Word) 2 = 0xffffffffffffffff ∧ auSmod (7 : Word) 0xfffffffffffffffe = 1 ∧
    auShl (63 : Word) 1 = 0x8000000000000000 ∧ auShl (64 : Word) 1 = 0 ∧ auShr (63 : Word) 0x8000000000000000 = 1 ∧
    auSar (4 : Word) 0xffffffffffffff00 = 0xfffffffffffffff0 ∧ auSar (63 : Word) 0x8000000000000000 = ones 64 := by decide

/-! ## Commands (spec/41_engine_commands.md) -/

/-- R160, R162: the spec's example, a write across two leaves. -/
theorem test_write_read :
    (match exec (.cmdWrite 0x1e [1, 2, 3, 4]) State.reset with
    | .next t => some (memBytes t.mem 0x1c 8, t.mem.touched)
    | _ => none) = some (.ok [0, 0, 1, 2, 3, 4, 0, 0], [0, 1]) := rfl

/-- R168: an empty memory, and a page of 32 bytes. -/
theorem test_serialize : serialize 12 Memory.empty = List.replicate 8 0 ∧
    serialize 5 (Memory.empty.setBytesAt 0x21 [0x11]) =
      [0, 0, 0, 0, 0, 0, 0, 1, 0, 0, 0, 0, 0, 0, 0, 1, 0, 0x11] ++ List.replicate 30 0 := by decide

/-- R346, R101: the faults before any instruction. -/
theorem test_step_faults : faultOf (step { State.reset with pc := 2 }) = some (.misalignedFetch 2) ∧
    faultOf (step State.reset) = some (.decodeError 0) := by decide

/-- R412, R420: a bad code, a `READ` of 33 bytes and a faulting `STEP` change nothing, the fault of each is its result, and
the command behind it is served. -/
theorem test_faulted_commands :
    step { State.reset with requests := [bareRequest 12, bareRequest 4] } =
      .next { State.reset with requests := [bareRequest 4], reply := .fault (.badCommand 12) } ∧
    step { State.reset with requests := [⟨0, 0, 33, [], false⟩, bareRequest 4] } =
      .next { State.reset with requests := [bareRequest 4], reply := .fault (.engineArg 33) } ∧
    step { State.reset with requests := [bareRequest 9, bareRequest 4] } =
      .next { State.reset with requests := [bareRequest 4], reply := .fault (.decodeError 0) } ∧
    step { State.reset with requests := [bareRequest 4], reply := .fault (.engineArg 33) } =
      .next { State.reset with requests := [], reply := .bytes (List.replicate 8 0) } := ⟨rfl, rfl, rfl, rfl⟩

/-- R315: the set of no-op syscalls is an argument: with a set that does not hold 124 that number is not supported. -/
theorem test_noop_parameter :
    faultOf (syscall { syscallDefaults with noop := [1] } Config.oracle (calling 124 0 0 0)) =
      some (.unsupportedSyscall 124) ∧
    regAfter (syscall { syscallDefaults with noop := [1] } Config.oracle (calling 1 9 0 0)) 10 = some 0 := by decide

/-! ## The host's view of the table -/

theorem test_table_word : decodeTableWord 32 0x00500093 = some (.addi 1 0 5) ∧ decodeTableWord 8 9 = some (.cmdStep false) ∧
    decodeTableWord 8 10 = none ∧ decodeTableWord 32 0 = none := by decide

theorem test_fetch_word : regAfter (step (State.reset.withFetchWord 32 0x00500093)) 1 = some 5 ∧
    (∃ t, step (State.reset.withFetchWord 8 2) = .next t) ∧
    regAfter (step ({ State.reset with pc := 6, requests := [bareRequest 2] }.withFetchWord 32 0x00500093)) 1 = some 5 := by
  refine ⟨by decide, ⟨_, rfl⟩, by decide⟩

/-! ## Witnesses of the obligations' hypotheses

One theorem for each obligation that has hypotheses: concrete states and operands that meet them, for each clause, at the
ends of its range where it has a range. -/

/-- A `STEP` state: the word `w` stands at the aligned `pc` 0x100 of a machine that has not exited. -/
def stepping (w : IWord) : State := machine 0x100 [(5, 0x40), (6, 7)] w

theorem witness_EncodeThenDecode : (Instr.bgeu 31 0 0x1ffe).wellFormed = true ∧ (Instr.cmdStep true).wellFormed = true := by
  decide

theorem witness_AcceptedWordReencodes : decodeWord 0xffffffaf = .ok (.aSlot 31 1 1 31 31 7 31) := rfl

theorem witness_DecodeIsTheTable :
    (∃ r ∈ rows, r.matchesWord 0x0000707f = false) ∧ (∃ r ∈ rows, r.matchesWord 0xffffffaf = true) ∧
    (State.reset.exited = false ∧ State.reset.pc.toNat % 4 = 0 ∧ ∀ r ∈ rows, r.matchesWord 0 = false) ∧
    fetch State.reset = .ok 0 := ⟨by decide, by decide, by decide, rfl⟩

/-- One word for each of R102 (a) to (h), and a word outside them. -/
theorem witness_ReservedWordsRejected :
    ReservedWord 0x80129393 ∧ ReservedWord 0x0202939b ∧ ReservedWord 0x406293b3 ∧ ReservedWord 0x0262a3bb ∧
    ReservedWord 0x000293e7 ∧ ReservedWord 0x0000200f ∧ ReservedWord 0x00200073 ∧ ReservedWord 0x0002f383 ∧
    ReservedWord 0x0062c023 ∧ ReservedWord 0x0062a063 ∧ ReservedWord 0 ∧ ¬ReservedWord 0x00000013 := by
  refine ⟨?_, ?_, ?_, ?_, ?_, ?_, ?_, ?_, ?_, ?_, ?_, ?_⟩ <;> (unfold ReservedWord; decide)

theorem witness_ImmediateOperands : decodeWord 0x80028383 = .ok (.lb 7 5 0x800) ∧
    decodeWord 0x80628023 = .ok (.sb 6 5 0x800) ∧ decodeWord 0x80628063 = .ok (.beq 5 6 0x1000) ∧
    decodeWord 0x800003ef = .ok (.jal 7 0x100000) ∧ decodeWord 0xfffff3b7 = .ok (.lui 7 0xfffff) ∧
    decodeWord 0x006283b3 = .ok (.add 7 5 6) := by refine ⟨?_, ?_, ?_, ?_, ?_, ?_⟩ <;> rfl

theorem witness_CommandPortCodes : 10 ≤ (bareRequest 10).code.toNat ∧ 10 ≤ (bareRequest 15).code.toNat ∧
    10 ≤ { State.reset with requests := [bareRequest 15] }.pendingRequest.code.toNat ∧
    (bareRequest 0).code = 0x0 ∧ (bareRequest 9).code = 0x9 ∧ (Instr.cmdRead 1 2).isCommand = true := by decide

theorem witness_StepRunsDecodedInstruction :
    decodeRequest State.reset.pendingRequest = .ok (.cmdStep false) ∧
    ((stepping 0x006283b3).pendingRequest.code = 0x9 ∧ (stepping 0x006283b3).exited = false ∧
      (stepping 0x006283b3).pc.toNat % 4 = 0) ∧
    decodeBytes ((stepping 0x006283b3).mem.bytesAt (stepping 0x006283b3).pc.toNat 4) = .ok (.add 7 5 6, []) :=
  ⟨rfl, by decide, rfl⟩

theorem witness_StepCompletes :
    ((stepping 0x0262c3b3).exited = false ∧ (stepping 0x0262c3b3).pc.toNat % 4 = 0 ∧ neverFaults (.div 7 5 6) = true) ∧
    decodeBytes ((stepping 0x0262c3b3).mem.bytesAt (stepping 0x0262c3b3).pc.toNat 4) = .ok (.div 7 5 6, []) :=
  ⟨by decide, rfl⟩

theorem witness_FaultPriority_fetch :
    ({ State.reset with pc := 1 }.exited = false ∧ { State.reset with pc := 1 }.pc.toNat % 4 ≠ 0) ∧
    ({ State.reset with pc := 0xfffffffffffffffc }.pc.toNat % 4 = 0) := by decide

theorem witness_FaultPriority_decode :
    (State.reset.exited = false ∧ State.reset.pc.toNat % 4 = 0) ∧ fetch State.reset = .ok 0 ∧
    (∀ i, decodeWord 0 ≠ .ok i) ∧ fetch (stepping 0x0062b3af) = .ok 0x0062b3af ∧ bits 0x0062b3af 6 0 = 0x2f := by
  refine ⟨by decide, rfl, fun i h => ?_, rfl, by decide⟩
  exact absurd ((show decodeWord 0 = .error (.unrecognized 0) from rfl).symm.trans h) (by simp)

theorem witness_FaultPriority_own :
    fetch (machine 0x100 [(5, 0xffffffffffffffff)] 0x00029383) = .ok 0x00029383 ∧
    decodeWord 0x00029383 = .ok (.lh 7 5 0) ∧ (Instr.lh 7 5 0).isCommand = false ∧
    exec (.lh 7 5 0) (machine 0x100 [(5, 0xffffffffffffffff)] 0x00029383) =
      .fault (.addressRange 0xffffffffffffffff 2) := ⟨rfl, rfl, rfl, rfl⟩

theorem witness_FaultPriority_oracle :
    (calling 63 5 0 0).readReg a7 = 63 ∧ (calling 63 5 0 0).readReg a0 = 5 ∧
    (fun _ => OracleAnswer.fail .timeout : OracleFn) (calling 63 5 0 0).preimageKey = .fail .timeout :=
  ⟨by decide, by decide, rfl⟩

/-- A command of the host that fails (a `READ` of 33 bytes), and the driver's `STEP` that does (nothing placed at `pc`). -/
theorem witness_FaultedCommand :
    (let s := { State.reset with requests := [⟨0, 0, 33, [], false⟩] }
     decodeRequest s.pendingRequest = .ok (.cmdRead 0 33) ∧ exec (.cmdRead 0 33) s.accept = .fault (.engineArg 33) ∧
       s.requests ≠ []) ∧
    (decodeRequest State.reset.pendingRequest = .ok (.cmdStep false) ∧
      exec (.cmdStep false) State.reset.accept = .fault (.decodeError 0) ∧ State.reset.requests = []) ∧
    Instr.cmdRoot.isCommand = true := ⟨⟨rfl, rfl, by decide⟩, ⟨rfl, rfl, rfl⟩, rfl⟩

theorem witness_ExitedStepChangesNothing : { State.reset with exited := true, exitCode := 7 }.exited = true := rfl

theorem witness_StepCounter :
    { stepping 0x006283b3 with stepCount := 0xffffffffffffffff }.exited = false ∧
    ∃ t, exec (.cmdStep false) { stepping 0x006283b3 with stepCount := 0xffffffffffffffff } = .next t := ⟨rfl, _, rfl⟩

theorem witness_ProofModeChangesOnlyTheReply :
    (∃ t, exec (.cmdStep true) (stepping 0x006283b3) = .next t) ∧ (∃ t, exec (.cmdStep false) (stepping 0x006283b3) = .next t) ∧
    ∃ f, exec (.cmdStep true) State.reset = .fault f := ⟨⟨_, rfl⟩, ⟨_, rfl⟩, _, rfl⟩

theorem witness_ResetObservables : 32 ≤ 32 ∧ (0xffffffffffffffe0 : Word).toNat + 32 ≤ 2 ^ 64 := by decide

theorem witness_StepKeepsInvariant :
    (stepping 0x00628023).Inv ∧ ∃ t, step (stepping 0x00628023) = .next t := by
  refine ⟨⟨?_, by decide⟩, _, rfl⟩
  unfold State.Valid; decide

theorem witness_StepKeepsValidState :
    (stepping 0x006283b3).Valid ∧ (stepping 0x006283b3).OffsetValid Config.oracle ∧
    ∃ t, exec (.cmdStep true) (stepping 0x006283b3) = .next t := by
  refine ⟨?_, fun h => absurd rfl h, _, rfl⟩
  unfold State.Valid; decide

theorem witness_ReservationCarried :
    ((∀ b, Instr.sb 6 5 0 ≠ .cmdDecodeState b) ∧ ∃ t, exec (.sb 6 5 0) (stepping 0x00628023) = .next t) ∧
    State.reset.Valid := by
  refine ⟨⟨fun b h => Instr.noConfusion h, _, rfl⟩, ?_⟩
  unfold State.Valid; decide

/-- The witness of the last clause of `SystemStateOnlyByEcall` for a call of each kind: exit, mmap, key write. -/
theorem witness_SystemStateOnlyByEcall :
    ((Instr.addi 1 0 5).isCommand = false ∧ Instr.addi 1 0 5 ≠ .ecall) ∧
    (∃ t, exec (.addi 1 0 5) State.reset = .next t) ∧ (∃ t, exec .ecall (calling 93 1 0 0) = .next t) ∧
    (∃ t, exec .ecall (calling 222 0 1 0) = .next t) ∧ (∃ t, exec .ecall (calling 64 6 0 1) = .next t) ∧
    ((calling 214 0 0 0).readReg a7 ≠ 93 ∧ (calling 214 0 0 0).readReg a7 ≠ 94 ∧ (calling 214 0 0 0).readReg a7 ≠ 222) :=
  ⟨by decide, ⟨_, rfl⟩, ⟨_, rfl⟩, ⟨_, rfl⟩, ⟨_, rfl⟩, by decide⟩

theorem witness_RegisterZero : (31 : Reg) ≠ 0 ∧
    (List.replicate 362 (1 : Byte)).length = 362 ∧ (List.replicate 362 (1 : Byte)).getD 81 0 = 1 ∧
    slice (List.replicate 362 (1 : Byte)) 106 8 ≠ List.replicate 8 0 := by decide +kernel

theorem witness_MemoryPrimitives : ((0xfffffffffffffff8 : Word).toNat + 8 ≤ 2 ^ 64 ∧
      2 ^ 64 < (0xfffffffffffffff9 : Word).toNat + 8 ∧ 2 ^ 64 < (0xffffffffffffffff : Word).toNat + 2) ∧
    (0xffffffffffffffff : Word).toNat + 1 ≤ 2 ^ 64 ∧ ([] : List Byte) = [] ∧
    2 ^ 64 < (0xffffffffffffffff : Word).toNat + ([1, 2] : List Byte).length := by decide

theorem witness_ReadAfterWrite : State.reset.mem.wf ∧ (List.replicate 32 (1 : Byte)).length ≤ 32 ∧
    (0xffffffffffffffe0 : Word).toNat + (List.replicate 32 (1 : Byte)).length ≤ 2 ^ 64 := by decide

theorem witness_FetchSeesStores :
    (stepping 0x0062a023).mem.wf ∧
    ∃ t, exec (.sw 6 5 0) (stepping 0x0062a023) = .next t ∧
      ∃ u : State, u.mem = t.mem ∧ u.pc = (stepping 0x0062a023).readReg 5 + immIS 0 :=
  ⟨by decide, _, rfl, { State.reset with
    mem := (stepping 0x0062a023).mem.setBytesAt 0x40 [7, 0, 0, 0], pc := 0x40 }, rfl, rfl⟩

theorem witness_NodeEquations : (2 ^ 59 ≤ 2 ^ 60 - 1 ∧ 2 ^ 60 - 1 < 2 ^ 60) ∧ (1 ≤ 2 ^ 59 - 1 ∧ 2 ^ 59 - 1 < 2 ^ 59) ∧
    2 ^ 60 ≤ 2 ^ 60 := by decide

theorem witness_ZeroHashes : 59 ≤ 59 ∧ 2 ^ 59 - 1 < 2 ^ 59 ∧
    (∀ a, (2 ^ 59 - 1) * 2 ^ (64 - 59) ≤ a → a < (2 ^ 59 - 1 + 1) * 2 ^ (64 - 59) →
      (Memory.empty.setBytesAt 0 [1]).byte a = 0) := by
  refine ⟨by decide, by decide, fun a h _ => ?_⟩
  have : a ≠ 0 := by rintro rfl; exact absurd h (by decide)
  show cellsGet a [(0, 1)] = 0
  simp [cellsGet, this]

theorem witness_RootProperties :
    (∀ a, a < 2 ^ 64 → (Memory.empty.setBytesAt 5 [0]).byte a = Memory.empty.byte a) ∧
    (2 ^ 64 - 2 + 2 ≤ 2 ^ 64 ∧ (Memory.empty.setBytesAt 5 [9]).wf) ∧
    (∀ x, x < 2 ^ 64 → ((Memory.empty.setBytesAt 1 [0]).setBytesAt 9 [0]).byte x =
      ((Memory.empty.setBytesAt 9 [0]).setBytesAt 1 [0]).byte x) :=
  ⟨fun _ _ => rfl, by decide, fun _ _ => rfl⟩

theorem witness_ReadCommand : 32 < 33 ∧ (0 < 32 ∧ 2 ^ 64 < (0xffffffffffffffe1 : Word).toNat + 32) ∧
    (0xffffffffffffffe0 : Word).toNat + 32 ≤ 2 ^ 64 := by decide

theorem witness_WriteCommand : 32 < (List.replicate 33 (0 : Byte)).length ∧
    (0 < (List.replicate 32 (0 : Byte)).length ∧ (List.replicate 32 (0 : Byte)).length ≤ 32 ∧
      2 ^ 64 < (0xffffffffffffffe1 : Word).toNat + (List.replicate 32 (0 : Byte)).length) ∧
    (0xffffffffffffffe0 : Word).toNat + (List.replicate 32 (0 : Byte)).length ≤ 2 ^ 64 := by decide

theorem witness_SerializeFormat : (5 ≤ 5 ∧ 5 ≤ 64) ∧ (Memory.empty.setBytesAt 0x1f [1, 2]).wf ∧
    (Memory.empty.setBytesAt 0x1f [1, 2]).touched[1]? = some 1 := by decide

/-- A string for each clause: too short, of the wrong length, an index out of range, indices that do not rise, good. -/
theorem witness_DeserializeFormat : ([] : List Byte).length < 8 ∧
    (List.replicate 8 (1 : Byte)).length ≠ 8 + bigEndianAt (List.replicate 8 (1 : Byte)) 0 8 * (8 + 2 ^ 5) ∧
    (let b := be64 1 ++ be64 0xffffffffffffffff ++ List.replicate 32 0
     b.length = 8 + bigEndianAt b 0 8 * (8 + 2 ^ 5) ∧ ¬bigEndianAt b 8 8 < 2 ^ (64 - 5)) ∧
    (let b := be64 2 ++ be64 3 ++ List.replicate 32 0 ++ be64 3 ++ List.replicate 32 0
     b.length = 8 + bigEndianAt b 0 8 * (8 + 2 ^ 5) ∧ ¬bigEndianAt b 8 8 < bigEndianAt b 48 8) ∧
    (let b := be64 2 ++ be64 3 ++ List.replicate 32 9 ++ be64 0x7ffffffffffffff ++ List.replicate 32 0
     b.length = 8 + bigEndianAt b 0 8 * (8 + 2 ^ 5) ∧ bigEndianAt b 48 8 < 2 ^ (64 - 5) ∧
       bigEndianAt b 8 8 < bigEndianAt b 48 8) := by decide

theorem witness_SerializeRoundTrip : (5 ≤ 64 ∧ 64 ≤ 64) ∧ (Memory.empty.setBytesAt 0x1f [1, 0]).wf := by decide

/-- An encoding of zeros with the exited flag, the exit code, a byte of `x0` and the low byte of `pc` as given. -/
def zeroCode (flag code x0 pc : Byte) : List Byte :=
  List.replicate 79 0 ++ [pc, code, flag] ++ List.replicate 24 0 ++ [x0] ++ List.replicate 255 0

/-- A string for each of the checks before the memory root. -/
theorem witness_DecodeStateChecks :
    (zeroCode 0 0 0 0).tail.length ≠ 362 ∧ (zeroCode 2 0 0 0).length = 362 ∧
    ¬((zeroCode 2 0 0 0).getD 81 0 = 0 ∨ (zeroCode 2 0 0 0).getD 81 0 = 1) ∧
    ((zeroCode 0 5 0 0).getD 81 0 = 0 ∧ (zeroCode 0 5 0 0).getD 80 0 ≠ 0) ∧
    ((zeroCode 1 5 1 0).getD 81 0 = 1 ∧ slice (zeroCode 1 5 1 0) 106 8 ≠ List.replicate 8 0) ∧
    (slice (zeroCode 0 0 0 2) 106 8 = List.replicate 8 0 ∧ (zeroCode 0 0 0 2).getD 79 0 ≠ 0) := by decide +kernel

theorem zeros_getD (x : Bytes32) (k : Nat) (h : 32 ≤ k) : (x.toList ++ List.replicate 330 (0 : Byte)).getD k 0 = 0 := by
  rw [List.getD_append_right _ _ _ _ (by simpa using h)]
  simp only [List.getD_eq_getElem?_getD, List.getElem?_replicate]
  split <;> rfl

theorem zeros_slice (x : Bytes32) : slice (x.toList ++ List.replicate 330 (0 : Byte)) 0 32 = x.toList ∧
    slice (x.toList ++ List.replicate 330 (0 : Byte)) 106 8 = List.replicate 8 0 := by
  have e : x.toList.length = 32 := by simp
  constructor
  · unfold slice
    rw [List.drop_zero, List.take_append_of_le_length (by omega), List.take_of_length_le (by omega)]
  · unfold slice
    rw [List.drop_append, List.drop_of_length_le (by omega), e, List.nil_append, List.drop_replicate, List.take_replicate]
    rfl

theorem other_bytes (r : Bytes32) : (r.map (· + 1)).toList ≠ r.toList := by
  intro e
  have e0 : (r.map (· + 1))[0] = r[0] := by rw [Vector.toList_inj.mp e]
  rw [Vector.getElem_map] at e0
  simp at e0

/-- A string that passes all checks, and one that fails only the last, whatever the hash function. -/
theorem witness_DecodeStateChecks_root :
    ∃ good bad : List Byte, good.length = 362 ∧ bad.length = 362 ∧
      slice good 0 32 = (root Config.hash State.reset.mem).toList ∧
      slice bad 0 32 ≠ (root Config.hash State.reset.mem).toList ∧
      ∀ b ∈ [good, bad], b.getD 81 0 = 0 ∧ b.getD 80 0 = 0 ∧ slice b 106 8 = List.replicate 8 0 ∧ b.getD 79 0 = 0 := by
  generalize root Config.hash State.reset.mem = r
  refine ⟨r.toList ++ List.replicate 330 0, (r.map (· + 1)).toList ++ List.replicate 330 0,
    by rw [List.length_append, List.length_replicate, Vector.length_toList],
    by rw [List.length_append, List.length_replicate, Vector.length_toList], (zeros_slice r).1, ?_, ?_⟩
  · rw [(zeros_slice _).1]
    exact other_bytes r
  · intro b hb
    simp only [List.mem_cons, List.not_mem_nil, or_false] at hb
    rcases hb with rfl | rfl <;>
      exact ⟨zeros_getD _ _ (by decide), zeros_getD _ _ (by decide), (zeros_slice _).2, zeros_getD _ _ (by decide)⟩

theorem witness_CodecRoundTrip : { State.reset with exited := true, exitCode := 255, pc := 0xfffffffffffffffc }.Valid ∧
    encodeState Config.hash State.reset = encodeState Config.hash { State.reset with output := [⟨1, []⟩] } := by
  refine ⟨?_, rfl⟩
  unfold State.Valid; decide

/-- R181: the last address of an access in range, and the first out of it. -/
theorem witness_Loads_Stores : ((0xfffffffffffffff8 : Word).toNat + 8 ≤ 2 ^ 64 ∧ 2 ^ 64 < (0xfffffffffffffff9 : Word).toNat + 8) ∧
    (machine 0x100 [(5, 0xfffffffffffffff8)] 0).readReg 5 + immIS 0 = 0xfffffffffffffff8 := by decide

/-- R200: taken to an aligned target, taken to a misaligned one, not taken; the offset even. -/
theorem witness_Branches : (State.reset.readReg 5 = State.reset.readReg 6 ∧ (State.reset.pc + immB 0x1000).toNat % 4 = 0) ∧
    (State.reset.pc + immB 0xffe).toNat % 4 ≠ 0 ∧ ¬(State.reset.readReg 5 ≠ State.reset.readReg 6) ∧
    (0x1000 : BitVec 13).toNat % 2 = 0 := by decide

theorem witness_Jumps : (State.reset.pc + immJ 0x100000).toNat % 4 = 0 ∧ (State.reset.pc + immJ 0xffffe).toNat % 4 ≠ 0 ∧
    (0xffffe : BitVec 21).toNat % 2 = 0 ∧ ((State.reset.readReg 5).toNat + (immIS 0x7ff).toNat) % 2 ^ 64 / 2 * 2 % 4 ≠ 0 := by
  decide

theorem witness_EcallExit : (calling 93 0x100 0 0).readReg a7 = 93 ∧ (calling 94 0x1ff 0 0).readReg a7 = 94 := by decide

theorem witness_EcallBrkMmapNoop : (calling 214 0 0 0).readReg a7 = 214 ∧
    ((calling 222 0 0xffffffffffffffff 0).readReg a7 = 222 ∧ (calling 222 0 0xffffffffffffffff 0).readReg a0 = 0) ∧
    (calling 222 1 0 0).readReg a0 ≠ 0 ∧ (calling 233 0 0 0).readReg a7 ∈ syscallDefaults.noop ∧
    ((calling 233 0 0 0).readReg a7).toNat ∉ [63, 64, 93, 94, 214, 222] := by decide

theorem witness_EcallReadAndErrors :
    ((calling 63 0 0 9).readReg a7 = 63 ∧ (calling 63 0 0 9).readReg a0 = 0) ∧ (calling 63 3 0 9).readReg a0 = 3 ∧
    ((calling 63 4 0 9).readReg a0).toNat ∉ [0, 3, 5] ∧ ((calling 64 5 0 9).readReg a0).toNat ∉ [1, 2, 4, 6] ∧
    ((calling 0x10000003f 0 0 0).readReg a7).toNat ∉ [63, 64, 93, 94, 214, 222] ∧
    (calling 0x10000003f 0 0 0).readReg a7 ∉ syscallDefaults.noop := by decide

/-- A failing oracle; an empty preimage with the offset past its 8 prefix bytes, and with the offset at their end. -/
theorem witness_EcallPreimageRead :
    ((calling 63 5 0 0).readReg a7 = 63 ∧ (calling 63 5 0 0).readReg a0 = 5) ∧
    (fun _ => OracleAnswer.fail .fetchFailed : OracleFn) (calling 63 5 0 0).preimageKey = .fail .fetchFailed ∧
    (fun _ => OracleAnswer.preimage [] : OracleFn) (calling 63 5 0 0).preimageKey = .preimage [] ∧
    (be64 (lengthWord 0) ++ []).length < (9 : Word).toNat ∧ (8 : Word).toNat ≤ (be64 (lengthWord 0) ++ []).length ∧
    2 ^ 64 - 1 < 2 ^ 64 := ⟨by decide, rfl, rfl, by decide, by decide, by decide⟩

theorem witness_EcallKeyWrite : (calling 64 6 0x1f 32).readReg a7 = 64 ∧ (calling 64 6 0x1f 32).readReg a0 = 6 := by decide

theorem witness_EcallEmit : ((calling 64 1 0xffffffffffffffff 2).readReg a7 = 64 ∧ (calling 64 2 0 0).readReg a0 = 2 ∧
      (calling 64 4 0 0).readReg a0 = 4) ∧
    (0 < ((calling 64 1 0xffffffffffffffff 2).readReg a2).toNat ∧
      2 ^ 64 < ((calling 64 1 0xffffffffffffffff 2).readReg a1).toNat + ((calling 64 1 0xffffffffffffffff 2).readReg a2).toNat) ∧
    ((calling 64 1 0xffffffffffffffff 1).readReg a1).toNat + ((calling 64 1 0xffffffffffffffff 1).readReg a2).toNat ≤ 2 ^ 64 := by
  decide

theorem witness_ASlotStops : ((stepping 0x0062b3af).exited = false ∧ (stepping 0x0062b3af).pc.toNat % 4 = 0) ∧
    fetch (stepping 0x0062b3af) = .ok 0x0062b3af ∧ (0x0062b3af : IWord) &&& 0x0000007f = 0x0000002f :=
  ⟨by decide, rfl, by decide⟩

theorem witness_ArithmeticUnit : 0 < 1 ∧ 0 < 256 ∧ 256 % 8 = 0 := by decide

theorem witness_WitnessContents :
    ((stepping 0x0062b023).exited = false) ∧
    decodeBytes ((stepping 0x0062b023).mem.bytesAt (stepping 0x0062b023).pc.toNat 4) = .ok (.sd 6 5 0, []) ∧
    (∃ t, exec (.cmdStep true) (stepping 0x0062b023) = .next t) ∧
    accessOf (stepping 0x0062b023) (.sd 6 5 0x19) = some (0x59, 8) ∧ accessOf State.reset (.add 7 5 6) = none ∧
    ((calling 63 5 0 0).readReg a7 = 63 ∧ (calling 63 5 0 0).readReg a0 = 5) ∧
    ((calling 64 6 0 0).readReg a7 = 64 ∧ (calling 64 6 0 0).readReg a0 = 6) ∧
    (fun _ => OracleAnswer.preimage [1] : OracleFn) (calling 63 5 0 0).preimageKey = .preimage [1] ∧
    ((Vector.replicate 32 2 : Bytes32)[0] = 2 ∧ (Vector.replicate 32 1 : Bytes32)[0] = 1 ∧
      (Vector.replicate 32 3 : Bytes32)[0] ≠ 1 ∧ (Vector.replicate 32 3 : Bytes32)[0] ≠ 2) := by
  refine ⟨rfl, rfl, ⟨_, rfl⟩, rfl, rfl, by decide, by decide, rfl, by decide⟩

end Sys2Proof.Tests
end

section
/-! SUPPORT. The step counter (spec/49_step_codec_witness.md R345): no instruction's own rule counts the step, the big-endian
field of the encoding determines the counter (R350), and so a completed `STEP` encodes differently from the state before it
(R353). -/

namespace Sys2Proof.Machine

/-! ## Big-endian words (spec/00_scope.md R19, spec/20_memory.md R64) -/

/-- The little-endian bytes of a word carry its value modulo `256^n` (R64). -/
theorem leNat_leBytes (n : Nat) (v : Word) : leNat (leBytes n v) = v.toNat % 256 ^ n := by
  induction n generalizing v with
  | zero => simp [leBytes, leNat, Nat.mod_one]
  | succ n ih =>
    rw [leBytes, leNat, ih, BitVec.toNat_setWidth, BitVec.toNat_ushiftRight, Nat.shiftRight_eq_div_pow,
      pow_succ' 256 n, Nat.mod_mul]

@[simp] theorem beNat_be64 (v : Word) : beNat (be64 v) = v.toNat := by
  rw [beNat, be64, List.reverse_reverse, leNat_leBytes]
  exact Nat.mod_eq_of_lt v.isLt

@[simp] theorem beWord_be64 (v : Word) : beWord (be64 v) = v := by simp [beWord]

@[simp] theorem length_be64 (v : Word) : (be64 v).length = 8 := by simp [be64]

theorem be64_injective : Function.Injective be64 := Function.LeftInverse.injective beWord_be64

/-! ## The counter's field of the encoding (R350) -/

/-- A slice that starts past a prefix is a slice of the rest. -/
theorem slice_append_of_length_le {a : List Byte} {start : Nat} (h : a.length ≤ start) (b : List Byte) (n : Nat) :
    slice (a ++ b) start n = slice b (start - a.length) n := by
  rw [slice, slice, List.drop_append, List.drop_eq_nil_of_le h, List.nil_append]

theorem slice_cons_succ (x : Byte) (b : List Byte) (start n : Nat) : slice (x :: b) (start + 1) n = slice b start n := rfl

/-- A slice that ends where the first part ends does not see the second. -/
theorem slice_zero_append {a : List Byte} {n : Nat} (h : a.length = n) (b : List Byte) : slice (a ++ b) 0 n = a :=
  List.take_left' h

/-- The counter stands at bytes 82 to 89 of the encoding (R350). -/
theorem slice_encodeState_stepCount (H : HashFn) (s : State) : slice (encodeState H s) 82 8 = be64 s.stepCount := by
  simp [encodeState, slice_append_of_length_le, slice_cons_succ, slice_zero_append]

/-- States with one encoding have one counter (the counter's part of R352). -/
theorem stepCount_eq_of_encodeState_eq {H : HashFn} {s t : State} (h : encodeState H s = encodeState H t) :
    s.stepCount = t.stepCount :=
  be64_injective (by rw [← slice_encodeState_stepCount H s, h, slice_encodeState_stepCount])

/-! ## Instructions do not count the step -/

/-- A syscall that returns leaves the counter and the load reservation as they were (R300). -/
theorem syscall_next_carries {params : SyscallParams} {oracle : OracleFn} {s t : State}
    (h : syscall params oracle s = .next t) : t.stepCount = s.stepCount ∧ t.loadReservation = s.loadReservation := by
  cases syscall_cases params oracle s with
  | exit _ e => rw [e] at h; cases h; exact ⟨rfl, rfl⟩
  | brk _ e | mmapNew _ _ e | mmapHint _ _ e | stdin _ _ e | hintRead _ _ e | badRead _ _ _ _ e | badWrite _ _ _ e
  | noop _ e => rw [e] at h; cases sysReturn_next h; simp
  | preimageRead _ _ e =>
    rcases sysPreimageRead_cases oracle s with ⟨_, _, e'⟩ | ⟨_, _, ⟨_, e'⟩ | ⟨_, e'⟩⟩ <;> rw [e, e'] at h
    · cases h
    · cases h
    · cases sysReturn_next h; simp
  | emit _ _ e =>
    rcases sysEmit_cases s with ⟨_, e'⟩ | ⟨_, e'⟩ <;> rw [e, e'] at h
    · cases sysReturn_next h; simp
    · cases h
  | keyWrite _ _ e => rw [e, sysKeyWrite_eq] at h; cases sysReturn_next h; simp
  | unsupported _ e => rw [e] at h; cases h

/-- No instruction word's own rule changes the counter or the load reservation (R34, R292; log entry 22). -/
theorem exec_word_next_carries {i : Instr} {s t : State} (hi : i.isCommand = false) (h : exec i s = .next t) :
    t.stepCount = s.stepCount ∧ t.loadReservation = s.loadReservation := by
  cases exec_cases hi s with
  | retires _ _ e => rw [e] at h; cases retire_next h; simp
  | stores _ _ _ _ _ e | jumps _ _ _ e | branches _ _ e | advances e => rw [e] at h; cases h; simp
  | calls _ e => exact syscall_next_carries (e.symm.trans h)
  | faults _ _ e => rw [e] at h; cases h

/-- A completed `STEP` of a machine that had not exited counts exactly once (R345). -/
theorem execCmdStep_next_stepCount {p : Bool} {s t : State} (he : s.exited = false) (h : execCmdStep p s = .next t) :
    t.stepCount = s.stepCount + 1 := by
  obtain ⟨_, i, u, _, _, hi, hu, rfl⟩ := execCmdStep_next he h
  exact congrArg (· + 1) (exec_word_next_carries hi hu).1

/-- Settles O13: the instruction carries the counter, `STEP` adds 1, and the counter's field of the encoding tells the two
states apart. -/
theorem stepCounter : Obligations.StepCounter := by
  intro s t p he h
  have hc : t.stepCount = s.stepCount + 1 := execCmdStep_next_stepCount he h
  refine ⟨by rw [hc, BitVec.toNat_add]; rfl, fun heq => ?_⟩
  have hs : s.stepCount + 1 = s.stepCount := hc ▸ stepCount_eq_of_encodeState_eq heq
  bv_omega

end Sys2Proof.Machine
end

section
/-! SUPPORT. What a completed instruction word does to the system state (spec/10_state.md R27 to R33): everything a completed
syscall can have done before it returned, and that no other word touches a field of the system. -/

namespace Sys2Proof.Machine

/-! ## What a syscall does before it returns (R300) -/

/-- The state `u` in which a completed syscall of `s`, other than an exit, writes its two results and advances: each change
stands with the call that makes it. Which bytes and which key, `sysPreimageRead_cases` and `sysKeyWrite_eq` say. -/
inductive SyscallEffect (oracle : OracleFn) (s : State) : (u : State) → Prop
  | unchanged : SyscallEffect oracle s s
  | heapMoved (h : s.readReg a7 = 222) (h0 : s.readReg a0 = 0) (heap : Word) :
      SyscallEffect oracle s { s with heap := heap }
  | emitted (h : s.readReg a7 = 64) (h0 : s.readReg a0 = 1 ∨ s.readReg a0 = 2 ∨ s.readReg a0 = 4) (o : OutEvent) :
      SyscallEffect oracle s { s with output := s.output ++ [o] }
  | keyShifted (h : s.readReg a7 = 64) (h0 : s.readReg a0 = 6) (key : Bytes32) :
      SyscallEffect oracle s { s with preimageKey := key, preimageOffset := 0 }
  | delivered (h : s.readReg a7 = 63) (h0 : s.readReg a0 = 5) {p : List Byte} (b : List Byte)
      (ho : oracle s.preimageKey = .preimage p) (hr : inRange (s.readReg a1) b.length = true)
      (hb : s.preimageOffset.toNat + b.length ≤ p.length + 8) :
      SyscallEffect oracle s { s with
        mem := s.mem.setBytesAt (s.readReg a1).toNat b
        preimageOffset := s.preimageOffset + BitVec.ofNat 64 b.length }

@[simp] theorem length_prefixed (p : List Byte) : (prefixed p).length = p.length + 8 := by simp [prefixed, Nat.add_comm]

/-- A preimage read delivers as many bytes as it counts (R311). -/
theorem length_take_preimageCount (s : State) (v : List Byte) :
    ((v.drop s.preimageOffset.toNat).take (preimageCount s v)).length = preimageCount s v := by
  simp [preimageCount]

/-- A completed syscall exited, or it made one of the changes of `SyscallEffect` and returned. -/
theorem syscall_next {params : SyscallParams} {oracle : OracleFn} {s t : State}
    (h : syscall params oracle s = .next t) :
    ((s.readReg a7 = 93 ∨ s.readReg a7 = 94) ∧ ∃ c, t = { s with exitCode := c, exited := true }.advance) ∨
      ∃ u v e, SyscallEffect oracle s u ∧ t = ((u.writeReg a0 v).writeReg a1 e).advance := by
  cases syscall_cases params oracle s with
  | exit hn e => rw [e] at h; cases h; exact .inl ⟨hn, _, rfl⟩
  | brk _ e | mmapHint _ _ e | stdin _ _ e | hintRead _ _ e | badRead _ _ _ _ e | badWrite _ _ _ e | noop _ e =>
    exact .inr ⟨_, _, _, .unchanged, sysReturn_next (e.symm.trans h)⟩
  | mmapNew hn h0 e => exact .inr ⟨_, _, _, .heapMoved hn h0 _, sysReturn_next (e.symm.trans h)⟩
  | preimageRead hn h0 e =>
    rcases sysPreimageRead_cases oracle s with ⟨_, _, e'⟩ | ⟨p, ho, ⟨_, e'⟩ | ⟨hp, e'⟩⟩ <;> rw [e, e'] at h
    · cases h
    · cases h
    · have hc : preimageCount s (prefixed p) ≤ leafClamp (s.readReg a1) (s.readReg a2) := Nat.min_le_left ..
      have hv : preimageCount s (prefixed p) ≤ (prefixed p).length - s.preimageOffset.toNat := Nat.min_le_right ..
      have hl := length_take_preimageCount s (prefixed p)
      rw [length_prefixed] at hp hv
      generalize ((prefixed p).drop s.preimageOffset.toNat).take (preimageCount s (prefixed p)) = b at hl h
      rw [← hl] at h hc hv
      exact .inr ⟨_, _, _, .delivered hn h0 b ho (inRange_of_le_leaf (hc.trans (leafClamp_le ..))) (by omega),
        sysReturn_next h⟩
  | emit hn h0 e =>
    rcases sysEmit_cases s with ⟨_, e'⟩ | ⟨_, e'⟩ <;> rw [e, e'] at h
    · exact .inr ⟨_, _, _, .emitted hn h0 _, sysReturn_next h⟩
    · cases h
  | keyWrite hn h0 e =>
    rw [e, sysKeyWrite_eq] at h; exact .inr ⟨_, _, _, .keyShifted hn h0 _, sysReturn_next h⟩
  | unsupported _ e => rw [e] at h; cases h

section
variable {oracle : OracleFn} {s u : State}

theorem SyscallEffect.regs_eq (h : SyscallEffect oracle s u) : u.regs = s.regs := by cases h <;> rfl

theorem SyscallEffect.pc_eq (h : SyscallEffect oracle s u) : u.pc = s.pc := by cases h <;> rfl

theorem SyscallEffect.exitCode_eq (h : SyscallEffect oracle s u) : u.exitCode = s.exitCode := by cases h <;> rfl

theorem SyscallEffect.exited_eq (h : SyscallEffect oracle s u) : u.exited = s.exited := by cases h <;> rfl

/-- Only `mmap` without a hint moves the heap pointer (R33). -/
theorem SyscallEffect.heap_eq (h : SyscallEffect oracle s u) (hn : ¬(s.readReg a7 = 222 ∧ s.readReg a0 = 0)) :
    u.heap = s.heap := by
  cases h with
  | heapMoved h h0 => exact absurd ⟨h, h0⟩ hn
  | _ => rfl

/-- Only a key write changes the preimage key (R28). -/
theorem SyscallEffect.preimageKey_eq (h : SyscallEffect oracle s u) (hn : ¬(s.readReg a7 = 64 ∧ s.readReg a0 = 6)) :
    u.preimageKey = s.preimageKey := by
  cases h with
  | keyShifted h h0 => exact absurd ⟨h, h0⟩ hn
  | _ => rfl

/-- Only a preimage read changes memory (R311). -/
theorem SyscallEffect.mem_eq (h : SyscallEffect oracle s u) (hn : ¬(s.readReg a7 = 63 ∧ s.readReg a0 = 5)) :
    u.mem = s.mem := by
  cases h with
  | delivered h h0 => exact absurd ⟨h, h0⟩ hn
  | _ => rfl

/-- Only a preimage read and a key write change the preimage offset (R29). -/
theorem SyscallEffect.preimageOffset_eq (h : SyscallEffect oracle s u)
    (hr : ¬(s.readReg a7 = 63 ∧ s.readReg a0 = 5)) (hw : ¬(s.readReg a7 = 64 ∧ s.readReg a0 = 6)) :
    u.preimageOffset = s.preimageOffset := by
  cases h with
  | delivered h h0 => exact absurd ⟨h, h0⟩ hr
  | keyShifted h h0 => exact absurd ⟨h, h0⟩ hw
  | _ => rfl

end

/-! ## The other instruction words (R27) -/

theorem exec_word_next_sameSystem {i : Instr} {s t : State} (hi : i.isCommand = false) (hc : i ≠ .ecall)
    (h : exec i s = .next t) : SameSystem s t := by
  cases exec_cases hi s with
  | retires _ _ e =>
    cases retire_next (e.symm.trans h); simp [SameSystem, SamePreimage, SameStatus, SamePort]
  | stores _ _ _ _ _ e | jumps _ _ _ e | branches _ _ e | advances e =>
    rw [e] at h; cases h; simp [SameSystem, SamePreimage, SameStatus, SamePort]
  | calls hi _ => exact absurd hi hc
  | faults _ _ e => rw [e] at h; cases h

/-- Settles O20: no other word touches the system, and the lemmas on `SyscallEffect` say which call changes which field. -/
theorem systemStateOnlyByEcall : Obligations.SystemStateOnlyByEcall := by
  refine ⟨fun i s t hi hc h => exec_word_next_sameSystem hi hc h, fun s t h => ?_⟩
  rcases syscall_next h with ⟨hn, c, rfl⟩ | ⟨u, v, e, hu, rfl⟩
  · exact ⟨fun _ _ _ => rfl, rfl, fun _ => rfl, rfl, fun h93 h94 => (hn.elim h93 h94).elim, fun _ => rfl, fun _ => rfl,
      fun _ => .of_eq rfl, fun _ _ => rfl⟩
  · refine ⟨fun r h0 h1 => ?_, by simp [hu.pc_eq], fun he => by simp [hu.exited_eq, he], (syscall_next_carries h).1,
      fun _ _ => by simp [hu.exitCode_eq, hu.exited_eq], fun hn => by simp [hu.heap_eq hn],
      fun hn => by simp [hu.preimageKey_eq hn], fun hn => .of_eq (by simp [hu.mem_eq hn]),
      fun hr hw => by simp [hu.preimageOffset_eq hr hw]⟩
    calc ((u.writeReg a0 v).writeReg a1 e).readReg r = (u.writeReg a0 v).readReg r := State.readReg_writeReg_ne _ _ _ _ h1
      _ = u.readReg r := State.readReg_writeReg_ne _ _ _ _ h0
      _ = s.readReg r := State.readReg_congr hu.regs_eq r

end Sys2Proof.Machine
end

section
/-! SUPPORT. The clauses of a valid state (spec/10_state.md R43) and the canonical form of the memory are kept by every
instruction word, by every command and so by every step. -/

namespace Sys2Proof.Machine

/-! ## Valid states under the named updates -/

theorem State.Valid.setPc {s : State} (h : s.Valid) {t : Word} (ht : t.toNat % 4 = 0) : (s.setPc t).Valid := by
  obtain ⟨h0, -, hx⟩ := h
  exact ⟨h0, ht, hx⟩

/-- The next address is aligned, across the end of memory too (R25). -/
theorem add_four_aligned {a : Word} (h : a.toNat % 4 = 0) : (a + 4).toNat % 4 = 0 := by bv_omega

theorem State.Valid.advance {s : State} (h : s.Valid) : s.advance.Valid :=
  let ⟨_, hpc, _⟩ := h
  h.setPc (add_four_aligned hpc)

theorem State.Valid.writeReg {s : State} (h : s.Valid) (rd : Reg) (v : Word) : (s.writeReg rd v).Valid := by
  obtain ⟨h0, hpc, hx⟩ := h
  exact ⟨(s.writeReg_slotZero rd v).trans h0, by simpa using hpc, by simpa using hx⟩

/-- The clause on the offset reads the preimage key and offset alone. -/
theorem State.OffsetValid.of_samePreimage {oracle : OracleFn} {s t : State} (h : s.OffsetValid oracle)
    (hp : SamePreimage s t) : t.OffsetValid oracle := by
  obtain ⟨hk, ho⟩ := hp
  rwa [State.OffsetValid, hk, ho]

/-! ## Instruction words -/

section
variable {oracle : OracleFn} {s u : State}

theorem SyscallEffect.valid (h : SyscallEffect oracle s u) (hs : s.Valid) : u.Valid := by cases h <;> exact hs

/-- A preimage read adds to the offset at most what is left of the value (R311); a key write resets it (R313). -/
theorem SyscallEffect.offsetValid (h : SyscallEffect oracle s u) (hs : s.OffsetValid oracle) : u.OffsetValid oracle := by
  cases h with
  | unchanged | heapMoved | emitted => exact hs
  | keyShifted => exact fun h => absurd rfl h
  | @delivered _ _ p b ho _ hb =>
    refine fun _ => ⟨p, ho, ?_⟩
    calc (s.preimageOffset + BitVec.ofNat 64 b.length).toNat
        ≤ s.preimageOffset.toNat + (BitVec.ofNat 64 b.length).toNat := by rw [BitVec.toNat_add]; exact Nat.mod_le ..
      _ ≤ s.preimageOffset.toNat + b.length := by rw [BitVec.toNat_ofNat]; gcongr; exact Nat.mod_le ..
      _ ≤ p.length + 8 := hb

theorem Memory.setBytesAt_wf_of_inRange {m : Memory} (hm : m.wf) {a : Word} {b : List Byte}
    (hr : inRange a b.length = true) : (m.setBytesAt a.toNat b).wf :=
  setBytesAt_wf hm ((inRange_iff.1 hr).imp_left List.length_eq_zero_iff.1)

theorem SyscallEffect.mem_wf (h : SyscallEffect oracle s u) (hs : s.mem.wf) : u.mem.wf := by
  cases h with
  | delivered _ _ _ _ hr => exact Memory.setBytesAt_wf_of_inRange hs hr
  | _ => exact hs

end

theorem exec_word_next_valid {i : Instr} {s t : State} (hi : i.isCommand = false) (hs : s.Valid)
    (h : exec i s = .next t) : t.Valid := by
  cases exec_cases hi s with
  | retires rd v e => cases retire_next (e.symm.trans h); exact (hs.writeReg rd v).advance
  | stores _ _ _ _ _ e => rw [e] at h; cases h; exact State.Valid.advance (s := { s with mem := _ }) hs
  | jumps rd _ ht e => rw [e] at h; cases h; exact (hs.writeReg rd _).setPc ht
  | branches _ ht e => rw [e] at h; cases h; exact hs.setPc ht
  | advances e => rw [e] at h; cases h; exact hs.advance
  | calls _ e =>
    rcases syscall_next (e.symm.trans h) with ⟨_, c, rfl⟩ | ⟨u, v, e, hu, rfl⟩
    · obtain ⟨h0, hpc, -⟩ := hs
      have hv : State.Valid { s with exitCode := c, exited := true } := ⟨h0, hpc, nofun⟩
      exact hv.advance
    · exact (((hu.valid hs).writeReg a0 v).writeReg a1 e).advance
  | faults _ _ e => rw [e] at h; cases h

theorem exec_word_next_offsetValid {i : Instr} {s t : State} (hi : i.isCommand = false)
    (hs : s.OffsetValid Config.oracle) (h : exec i s = .next t) : t.OffsetValid Config.oracle := by
  by_cases hc : i = .ecall
  · subst hc
    rcases syscall_next h with ⟨_, c, rfl⟩ | ⟨u, v, e, hu, rfl⟩
    · exact hs
    · exact (hu.offsetValid hs).of_samePreimage (by simp [SamePreimage])
  · obtain ⟨hp, -⟩ := exec_word_next_sameSystem hi hc h
    exact hs.of_samePreimage hp

theorem exec_word_next_mem_wf {i : Instr} {s t : State} (hi : i.isCommand = false) (hs : s.mem.wf)
    (h : exec i s = .next t) : t.mem.wf := by
  cases exec_cases hi s with
  | retires rd v e => cases retire_next (e.symm.trans h); simpa using hs
  | stores a n v _ hr e =>
    rw [e] at h; cases h
    exact Memory.setBytesAt_wf_of_inRange hs (by rwa [length_leBytes])
  | jumps _ _ _ e | branches _ _ e | advances e => rw [e] at h; cases h; simpa using hs
  | calls _ e =>
    rcases syscall_next (e.symm.trans h) with ⟨_, c, rfl⟩ | ⟨u, v, e, hu, rfl⟩
    · exact hs
    · simpa using hu.mem_wf hs
  | faults _ _ e => rw [e] at h; cases h

/-! ## `STEP` -/

/-- A completed `STEP` answered an exited machine, or finished a completed instruction word (R340, R344). -/
theorem execCmdStep_next_cases {p : Bool} {s t : State} (h : execCmdStep p s = .next t) :
    (∃ r, t = s.answer r) ∨ ∃ i u, i.isCommand = false ∧ exec i s = .next u ∧ t = finishStep p s i u := by
  cases he : s.exited with
  | true => rw [execCmdStep, if_pos he] at h; cases h; exact .inl ⟨_, rfl⟩
  | false =>
    obtain ⟨_, i, u, _, _, hi, hu, ht⟩ := execCmdStep_next he h
    exact .inr ⟨i, u, hi, hu, ht⟩

/-- Settles O18: a completed `STEP` is an answer or a finished instruction word, and both keep the two parts of R43. -/
theorem stepKeepsValidState : Obligations.StepKeepsValidState := by
  intro s t p hv ho h
  rcases execCmdStep_next_cases h with ⟨r, rfl⟩ | ⟨i, u, hi, hu, rfl⟩
  · exact ⟨hv, ho⟩
  · have hv' : u.Valid := exec_word_next_valid hi hv hu
    have ho' : u.OffsetValid Config.oracle := exec_word_next_offsetValid hi ho hu
    exact ⟨hv', ho'⟩

/-! ## The commands -/

/-- The last byte of a big-endian string is its least significant one (R350). -/
theorem beNat_append_singleton (b : List Byte) (x : Byte) : beNat (b ++ [x]) = x.toNat + 256 * beNat b := by
  simp [beNat, leNat]

theorem slice_succ {b : List Byte} {start n : Nat} (h : start + n < b.length) :
    slice b start (n + 1) = slice b start n ++ [b.getD (start + n) 0] := by
  rw [slice, slice, List.take_add_one, List.getElem?_drop]
  simp [h]

/-- An encoding whose byte 79 is a multiple of 4 holds an aligned `pc` (R351). -/
theorem beWord_slice_aligned {b : List Byte} {start n : Nat} (h : start + n < b.length)
    (h4 : (b.getD (start + n) 0).toNat % 4 = 0) : (beWord (slice b start (n + 1))).toNat % 4 = 0 := by
  rw [slice_succ h, beWord, beNat_append_singleton, BitVec.toNat_ofNat]
  omega

/-- An accepted encoding gives a valid state, and the memory stays (R351). -/
theorem decodeState_ok {H : HashFn} {b : List Byte} {s t : State} (h : decodeState H b s = .ok t) :
    t.Valid ∧ t.mem = s.mem := by
  unfold decodeState at h
  split_ifs at h with hlen hflag hcode _ hpc _
  obtain rfl := Except.ok.inj h
  refine ⟨⟨by simp [decodeRegs], ?_, fun he => ?_⟩, rfl⟩
  · have hl : b.length = 362 := of_not_not hlen
    exact beWord_slice_aligned (start := 72) (n := 7) (by omega) (of_not_not hpc)
  · have h1 : b.getD 81 0 ≠ 1 := by simpa using he
    by_contra h80
    exact hflag ⟨fun h81 => hcode ⟨h81, h80⟩, h1⟩

/-- What a completed command other than `STEP` does: an answer alone, a new memory in canonical form, or a decoded state. -/
theorem exec_command_next {i : Instr} {s t : State} (hi : i.isCommand = true) (h : exec i s = .next t) :
    (∃ r, t = s.answer r) ∨ (∃ m r, (s.mem.wf → m.wf) ∧ t = { s with mem := m }.answer r) ∨
      (∃ b u r, decodeState Config.hash b s = .ok u ∧ t = u.answer r) ∨ ∃ p, i = .cmdStep p := by
  cases i with
  | cmdRead a n =>
    change execCmdRead a n s = _ at h
    unfold execCmdRead at h
    split at h
    · cases h
    · obtain ⟨_, _, hk⟩ := orRaise_next h
      cases hk; exact .inl ⟨_, rfl⟩
  | cmdWrite a b =>
    change execCmdWrite a b s = _ at h
    unfold execCmdWrite at h
    split at h
    · cases h
    · obtain ⟨m, hm, hk⟩ := orRaise_next h
      cases hk; exact .inr (.inl ⟨m, _, fun hs => memSetBytes_wf hs hm, rfl⟩)
  | cmdDeserialize b =>
    obtain ⟨m, hm, hk⟩ := orRaise_next h
    cases hk; exact .inr (.inl ⟨m, _, fun _ => deserialize_wf pageBits_le hm, rfl⟩)
  | cmdDecodeState b =>
    obtain ⟨u, hu, hk⟩ := orRaise_next h
    cases hk; exact .inr (.inr (.inl ⟨b, u, _, hu, rfl⟩))
  | cmdRoot | cmdProof | cmdSerialize | cmdEncodeState | cmdStateHash => cases h; exact .inl ⟨_, rfl⟩
  | cmdStep p => exact .inr (.inr (.inr ⟨p, rfl⟩))
  | _ => cases hi

/-! ## The invariant -/

theorem State.Inv.answer {s : State} (h : s.Inv) (r : Reply) : (s.answer r).Inv := h

theorem exec_word_next_inv {i : Instr} {s t : State} (hi : i.isCommand = false) (hs : s.Inv) (h : exec i s = .next t) :
    t.Inv := by
  obtain ⟨hv, hm⟩ := hs
  exact ⟨exec_word_next_valid hi hv h, exec_word_next_mem_wf hi hm h⟩

theorem exec_command_next_inv {i : Instr} {s t : State} (hi : i.isCommand = true) (hs : s.Inv) (h : exec i s = .next t) :
    t.Inv := by
  rcases exec_command_next hi h with ⟨r, rfl⟩ | ⟨m, r, hm, rfl⟩ | ⟨b, u, r, hu, rfl⟩ | ⟨p, rfl⟩
  · exact hs.answer r
  · obtain ⟨hv, hw⟩ := hs
    have hi' : State.Inv { s with mem := m } := ⟨hv, hm hw⟩
    exact hi'.answer r
  · obtain ⟨hv, hmem⟩ := decodeState_ok hu
    obtain ⟨-, hw⟩ := hs
    have hu' : u.Inv := ⟨hv, hmem ▸ hw⟩
    exact hu'.answer r
  · rcases execCmdStep_next_cases h with ⟨r, rfl⟩ | ⟨j, u, hj, hu, rfl⟩
    · exact hs.answer r
    · have hu' : u.Inv := exec_word_next_inv hj hs hu
      exact hu'

/-- Settles O17: a step serves one command, or reports a fault, which changes the port alone (R420). -/
theorem stepKeepsInvariant : Obligations.StepKeepsInvariant := by
  intro s t hs h
  rcases step_cases s with ⟨i, _, hi, e⟩ | ⟨_, _, e⟩ <;> rw [e] at h
  · rcases State.report_eq_next h with hx | ⟨f, _, _, rfl⟩
    · have ha : s.accept.Inv := hs
      exact exec_command_next_inv hi ha hx
    · exact hs
  · cases h; exact hs

end Sys2Proof.Machine
end

section
/-! SUPPORT. Register 0 (spec/10_state.md R21), the fetch after a store (spec/20_memory.md R79), and the machine right after
reset (R44, spec/70_reset_and_hazards.md R431). -/

namespace Sys2Proof.Machine

/-! ## Register 0 -/

theorem be64_zero : be64 0 = List.replicate 8 0 := by decide

/-- The field of `x0` stands at bytes 106 to 113 of the encoding and is 0 (R21, R350). -/
theorem slice_encodeState_regZero (H : HashFn) (s : State) :
    slice (encodeState H s) 106 8 = List.replicate 8 0 := by
  have hr : List.range 32 = 0 :: (List.range 31).map Nat.succ := List.range_succ_eq_map
  simp [encodeState, slice_append_of_length_le, slice_cons_succ, slice_zero_append, hr]
  exact be64_zero

/-- A string that passes the first three checks of R351 and holds a byte other than 0 for `x0` is refused. -/
theorem decodeState_x0NotZero {H : HashFn} {b : List Byte} {s : State} (hl : b.length = 362)
    (hx : b.getD 81 0 = 0 ∧ b.getD 80 0 = 0 ∨ b.getD 81 0 = 1) (h0 : slice b 106 8 ≠ List.replicate 8 0) :
    decodeState H b s = .error (.codecError .x0NotZero) := by
  have hflag : ¬(b.getD 81 0 ≠ 0 ∧ b.getD 81 0 ≠ 1) := fun h => hx.elim (fun h' => h.1 h'.1) h.2
  have hcode : ¬(b.getD 81 0 = 0 ∧ b.getD 80 0 ≠ 0) := by
    rintro ⟨h81, h80⟩
    rcases hx with ⟨-, h⟩ | h
    · exact h80 h
    · exact absurd (h81.symm.trans h) (by decide)
  rw [decodeState, if_neg (fun h => h hl), if_neg hflag, if_neg hcode, if_pos h0]

/-- Settles O21, with the laws of `readReg` and `writeReg` and the two facts of the encoding. -/
theorem registerZero : Obligations.RegisterZero := by
  refine ⟨State.readReg_zero, State.writeReg_zero, fun s r rd v hrd => ?_, slice_encodeState_regZero,
    fun s b hl hx h0 => ?_⟩
  · by_cases h : r = rd
    · rw [if_pos h, h, State.readReg_writeReg_self s rd v hrd]
    · rw [if_neg h, State.readReg_writeReg_ne s rd r v h]
  · change orRaise (decodeState Config.hash b s) _ = _
    rw [decodeState_x0NotZero hl hx h0]; rfl

/-! ## Fetch after a store -/

/-- What a store left in a canonical memory is what a read of as many bytes at its address gives (R75, R83, R84). -/
theorem memRead_of_memWrite {m m' : Memory} (hm : m.wf) {a : Word} {n : Nat} {v : Word} (hn : n ≠ 0)
    (h : memWrite m a n v = .ok m') : memRead m' a n = .ok (BitVec.ofNat 64 (v.toNat % 256 ^ n)) := by
  rcases memWrite_cases m a n v with ⟨hr, e⟩ | ⟨_, e⟩ <;> rw [e] at h <;> cases h
  have hb : (m.setBytesAt a.toNat (leBytes n v)).bytesAt a.toNat n = leBytes n v := by
    have := Memory.bytesAt_setBytesAt hm (a := a.toNat) (b := leBytes n v)
    rw [length_leBytes] at this
    exact this ((inRange_iff.1 hr).resolve_left hn)
  rcases memRead_cases (m.setBytesAt a.toNat (leBytes n v)) a n with ⟨_, e⟩ | ⟨hf, _⟩
  · rw [e, hb, leNat_leBytes]
  · exact absurd hr (by simp [hf])

theorem fetch_of_memRead {s : State} {v : Word} (h : memRead s.mem s.pc 4 = .ok v) : fetch s = .ok (v.setWidth 32) := by
  rw [fetch, h]

/-- Settles O24: the fetch is a read of the four bytes the SW wrote. -/
theorem fetchSeesStores : Obligations.FetchSeesStores := by
  intro s t u rs2 rs1 imm hm h hmem hpc
  obtain ⟨m, hw, hk⟩ := orRaise_next h
  cases hk
  have hr : memRead u.mem u.pc 4 = .ok (BitVec.ofNat 64 ((s.readReg rs2).toNat % 256 ^ 4)) := by
    rw [hmem, hpc]; exact memRead_of_memWrite hm (by decide) hw
  rw [fetch_of_memRead hr]
  congr 1
  apply BitVec.eq_of_toNat_eq
  simp only [BitVec.toNat_setWidth, BitVec.toNat_ofNat]
  omega

/-! ## After reset -/

/-- The root of the memory no write has reached is the zero hash of the whole tree (R57, R58). -/
theorem root_empty (H : HashFn) : root H Memory.empty = zeroHash H 59 := rfl

theorem Memory.bytesAt_empty (a n : Nat) : Memory.empty.bytesAt a n = List.replicate n 0 := by
  induction n generalizing a with
  | zero => rfl
  | succ n ih => rw [bytesAt, ih, List.replicate_succ]; rfl

theorem State.readReg_reset (r : Reg) : State.reset.readReg r = 0 := by
  simp [State.readReg, State.reset]

theorem encodeState_reset (H : HashFn) :
    encodeState H State.reset = (zeroHash H 59).toList ++ List.replicate 330 0 := by
  have hregs : (List.range 32).flatMap (fun i => be64 (State.reset.readReg (BitVec.ofNat 5 i))) =
      List.replicate 256 0 := by
    simp only [State.readReg_reset, be64_zero, List.flatMap_def, List.map_const', List.length_range,
      List.flatten_replicate_replicate]
  -- the 74 bytes between the root and the registers are those of literal fields, each 0
  rw [encodeState, hregs, ← List.replicate_append_replicate (n := 74) (m := 256)]
  simp only [List.append_assoc]
  rfl

theorem serialize_empty (pageBits : Nat) : serialize pageBits Memory.empty = List.replicate 8 0 := be64_zero

theorem execCmdRead_reset {a : Word} {n : Nat} (hn : n ≤ 32) (ha : a.toNat + n ≤ 2 ^ 64) :
    execCmdRead a n State.reset = .next (State.reset.answer (.bytes (List.replicate n 0))) := by
  have hm : memBytes State.reset.mem a n = .ok (List.replicate n 0) := by
    rw [memBytes, if_pos (inRange_iff.2 (.inr ha))]
    exact congrArg _ (Memory.bytesAt_empty a.toNat n)
  rw [execCmdRead, if_neg (by omega), hm]; rfl

/-- Settles O15: each command by its own lemma above; the fields and the failing `STEP` are closed evaluations. -/
theorem resetObservables : Obligations.ResetObservables := by
  refine ⟨?_, ?_, ?_, fun a n hn ha => execCmdRead_reset hn ha, fun p => rfl, State.readReg_reset, rfl, Memory.byte_empty,
    rfl, rfl, rfl, rfl, rfl, rfl, rfl, rfl⟩
  · change execCmdRoot State.reset = _
    rw [execCmdRoot]; rfl
  · change execCmdEncodeState State.reset = _
    rw [execCmdEncodeState, encodeState_reset]
  · change execCmdSerialize State.reset = _
    rw [execCmdSerialize]
    exact congrArg (fun b => Host.Outcome.next (State.reset.answer (.bytes b))) (serialize_empty Config.pageBits)

theorem State.reset_valid : State.reset.Valid := ⟨by decide, by decide, fun _ => rfl⟩

/-- Settles O16: the memory is empty and the offset 0. -/
theorem invariantAtReset : Obligations.InvariantAtReset :=
  ⟨⟨State.reset_valid, State.reset_mem_wf⟩, fun h => absurd rfl h⟩

end Sys2Proof.Machine
end

section
/-! SUPPORT. The memory primitives (spec/20_memory.md R83 to R85): the value a read delivers, the bytes a write leaves, the
pages it allocates; and a `READ` after a `WRITE` (spec/41_engine_commands.md R161). -/

namespace Sys2Proof.Machine

/-! ## Bytes after a write -/

/-- What every address holds after a write of several bytes (R51, R85). -/
theorem Memory.byte_setBytesAt_eq_ite {m : Memory} (hm : m.wf) {a : Nat} {b : List Byte} (h : a + b.length ≤ 2 ^ 64)
    (c : Nat) : (m.setBytesAt a b).byte c = if a ≤ c ∧ c < a + b.length then b.getD (c - a) 0 else m.byte c := by
  split_ifs with hc
  · obtain ⟨k, rfl⟩ := Nat.exists_eq_add_of_le hc.1
    have hk : k < b.length := by omega
    rw [byte_setBytesAt hm h hk, Nat.add_sub_cancel_left, List.getD_eq_getElem _ _ hk]
  · exact byte_setBytesAt_outside (by omega) m

theorem Memory.bytesAt_eq_map (m : Memory) (a n : Nat) :
    m.bytesAt a n = (List.range n).map fun k => m.byte (a + k) :=
  List.ext_getElem (by simp) fun k h _ => by simp [getElem_bytesAt m h]

/-! ## Pages -/

theorem mem_foldl_insertRising {f : Nat → Nat} {p : Nat} {ls ps : List Nat} :
    p ∈ ls.foldl (fun ps l => insertRising (f l) ps) ps ↔ p ∈ ps ∨ ∃ l ∈ ls, p = f l := by
  induction ls generalizing ps with
  | nil => simp
  | cons l ls ih => simp [ih, mem_insertRising, or_left_comm, or_assoc]

/-- The allocated pages are the pages of the touched leaves (R53). -/
theorem Memory.mem_pages {pageBits p : Nat} {m : Memory} :
    p ∈ m.pages pageBits ↔ ∃ l ∈ m.touched, p = l / 2 ^ (pageBits - 5) := by
  simp [pages, mem_foldl_insertRising]

/-- The page of an address is the page of its leaf (R53). -/
theorem leaf_div_page {pageBits : Nat} (h : 5 ≤ pageBits) (a : Nat) :
    a / 32 / 2 ^ (pageBits - 5) = a / 2 ^ pageBits := by
  rw [Nat.div_div_eq_div_mul, show 32 = 2 ^ 5 from rfl, ← pow_add, Nat.add_sub_cancel' h]

/-- A write allocates exactly the pages of its bytes (R84, R85). -/
theorem Memory.mem_pages_setBytesAt {pageBits : Nat} (hp : 5 ≤ pageBits) {m : Memory} {a p : Nat} {b : List Byte} :
    p ∈ (m.setBytesAt a b).pages pageBits ↔
      p ∈ m.pages pageBits ∨ ∃ k < b.length, p = (a + k) / 2 ^ pageBits := by
  simp only [mem_pages, mem_touched_setBytesAt]
  constructor
  · rintro ⟨l, hl | ⟨k, hk, rfl⟩, rfl⟩
    · exact .inl ⟨l, hl, rfl⟩
    · exact .inr ⟨k, hk, leaf_div_page hp _⟩
  · rintro (⟨l, hl, rfl⟩ | ⟨k, hk, rfl⟩)
    · exact ⟨l, .inl hl, rfl⟩
    · exact ⟨_, .inr ⟨k, hk, rfl⟩, (leaf_div_page hp _).symm⟩

/-! ## Values of byte strings -/

/-- The value of the bytes of memory is the sum R83 writes. -/
theorem leNat_bytesAt (m : Memory) (a n : Nat) : leNat (m.bytesAt a n) = littleEndian m a n := by
  induction n generalizing a with
  | zero => rfl
  | succ n ih =>
    have hshift (k : Nat) : (m.byte (a + (k + 1))).toNat * 2 ^ (8 * (k + 1)) =
        256 * ((m.byte (a + 1 + k)).toNat * 2 ^ (8 * k)) := by
      rw [show a + (k + 1) = a + 1 + k by omega, Nat.mul_add, pow_add]; ring
    rw [Memory.bytesAt, leNat, ih, littleEndian, littleEndian, List.range_succ_eq_map, List.map_cons, List.map_map,
      List.sum_cons, ← List.sum_map_mul_left]
    simp [Function.comp_def, hshift]

theorem leNat_lt (b : List Byte) : leNat b < 256 ^ b.length := by
  induction b with
  | nil => simp [leNat]
  | cons x xs ih =>
    have hx : x.toNat < 256 := x.isLt
    rw [leNat, List.length_cons, pow_succ']
    omega

/-- Byte `k` of the little-endian bytes of a word (R64). -/
theorem getElem_leBytes {n : Nat} {v : Word} {k : Nat} (hk : k < (leBytes n v).length) :
    (leBytes n v)[k] = BitVec.ofNat 8 (v.toNat / 2 ^ (8 * k)) := by
  induction n generalizing v k with
  | zero => simp [leBytes] at hk
  | succ n ih =>
    cases k with
    | zero => apply BitVec.eq_of_toNat_eq; simp [leBytes]
    | succ k =>
      have hk' : k < (leBytes n (v >>> 8)).length := by simpa [leBytes] using hk
      simp only [leBytes, List.getElem_cons_succ]
      rw [ih hk', BitVec.toNat_ushiftRight, Nat.shiftRight_eq_div_pow, Nat.div_div_eq_div_mul, ← pow_add,
        show 8 + 8 * k = 8 * (k + 1) by omega]

/-! ## The primitives, in range and out of range -/

theorem inRange_eq_false {a : Word} {n : Nat} (hn : 0 < n) (h : 2 ^ 64 < a.toNat + n) : inRange a n = false :=
  Bool.eq_false_iff.2 fun hr => by rcases inRange_iff.1 hr with h' | h' <;> omega

theorem memBytes_inRange (m : Memory) {a : Word} {n : Nat} (h : n = 0 ∨ a.toNat + n ≤ 2 ^ 64) :
    memBytes m a n = .ok (m.bytesAt a.toNat n) := if_pos (inRange_iff.2 h)

theorem memBytes_outOfRange (m : Memory) {a : Word} {n : Nat} (hn : 0 < n) (h : 2 ^ 64 < a.toNat + n) :
    memBytes m a n = .error (.addressRange a n) := by rw [memBytes, inRange_eq_false hn h]; rfl

theorem memSetBytes_inRange (m : Memory) {a : Word} {b : List Byte} (h : b = [] ∨ a.toNat + b.length ≤ 2 ^ 64) :
    memSetBytes m a b = .ok (m.setBytesAt a.toNat b) :=
  if_pos (inRange_iff.2 (h.imp_left List.length_eq_zero_iff.2))

theorem memSetBytes_outOfRange (m : Memory) {a : Word} {b : List Byte} (hb : 0 < b.length)
    (h : 2 ^ 64 < a.toNat + b.length) : memSetBytes m a b = .error (.addressRange a b.length) := by
  rw [memSetBytes, inRange_eq_false hb h]; rfl

theorem memRead_outOfRange (m : Memory) {a : Word} {n : Nat} (hn : 0 < n) (h : 2 ^ 64 < a.toNat + n) :
    memRead m a n = .error (.addressRange a n) := by rw [memRead, memBytes_outOfRange m hn h]

theorem memWrite_outOfRange (m : Memory) {a : Word} {n : Nat} (v : Word) (hn : 0 < n) (h : 2 ^ 64 < a.toNat + n) :
    memWrite m a n v = .error (.addressRange a n) := by
  have hf := memSetBytes_outOfRange m (a := a) (b := leBytes n v)
  rw [length_leBytes] at hf
  exact hf hn h

/-- A read of at most 8 bytes delivers the sum R83 writes: a word holds it. -/
theorem memRead_inRange (m : Memory) {a : Word} {n : Nat} (hn : n ≤ 8) (h : a.toNat + n ≤ 2 ^ 64) :
    ∃ v, memRead m a n = .ok v ∧ v.toNat = littleEndian m a.toNat n := by
  refine ⟨_, by rw [memRead, memBytes_inRange m (.inr h)], ?_⟩
  rw [← leNat_bytesAt, BitVec.toNat_ofNat, Nat.mod_eq_of_lt]
  calc leNat (m.bytesAt a.toNat n) < 256 ^ (m.bytesAt a.toNat n).length := leNat_lt _
    _ = 256 ^ n := by rw [Memory.length_bytesAt]
    _ ≤ 256 ^ 8 := Nat.pow_le_pow_right (by decide) hn

/-- A write of several bytes, as the statements describe one (R84, R85). -/
theorem writesBytes_setBytesAt (m : Memory) {a : Nat} {b : List Byte} (h : b = [] ∨ a + b.length ≤ 2 ^ 64) :
    WritesBytes m (m.setBytesAt a b) a b.length fun k => b.getD k 0 := by
  refine ⟨fun hm k hk => ?_, fun c hc => Memory.byte_setBytesAt_outside hc m,
    fun p => Memory.mem_pages_setBytesAt five_le_pageBits⟩
  have hr : a + b.length ≤ 2 ^ 64 := h.resolve_left fun hb => by simp [hb] at hk
  rw [Memory.byte_setBytesAt hm hr hk]
  exact (List.getD_eq_getElem _ _ hk).symm

theorem WritesBytes.congr {m m' : Memory} {a n : Nat} {f g : Nat → Byte} (h : WritesBytes m m' a n f)
    (hfg : ∀ k < n, f k = g k) : WritesBytes m m' a n g := by
  obtain ⟨hin, hout, hpages⟩ := h
  exact ⟨fun hm k hk => (hin hm k hk).trans (hfg k hk), hout, hpages⟩

/-- A write of a word's low bytes in range (R84). -/
theorem memWrite_inRange (m : Memory) {a : Word} {n : Nat} (v : Word) (h : a.toNat + n ≤ 2 ^ 64) :
    ∃ m', memWrite m a n v = .ok m' ∧
      WritesBytes m m' a.toNat n fun k => BitVec.ofNat 8 (v.toNat / 2 ^ (8 * k)) := by
  have hl : a.toNat + (leBytes n v).length ≤ 2 ^ 64 := by rwa [length_leBytes]
  have hw := writesBytes_setBytesAt m (.inr hl)
  rw [length_leBytes] at hw
  refine ⟨_, memSetBytes_inRange m (.inr hl), hw.congr fun k hk => ?_⟩
  have hk' : k < (leBytes n v).length := by rwa [length_leBytes]
  rw [List.getD_eq_getElem _ _ hk', getElem_leBytes]

/-- Settles O22: each primitive by its two lemmas, in range and out of range. -/
theorem memoryPrimitives : Obligations.MemoryPrimitives := by
  refine ⟨fun m a n hn => ⟨fun h => ?_, fun h => ?_⟩,
    fun m a n => ⟨memBytes_outOfRange m, fun h => ?_⟩,
    fun m a b => ⟨memSetBytes_outOfRange m, fun h => ⟨_, memSetBytes_inRange m h, writesBytes_setBytesAt m h⟩⟩⟩
  · have hpos : 0 < n := by omega
    exact ⟨memRead_outOfRange m hpos h, fun v => memWrite_outOfRange m v hpos h⟩
  · exact ⟨memRead_inRange m (by omega) h, fun v => memWrite_inRange m v h⟩
  · rw [memBytes_inRange m h, Memory.bytesAt_eq_map]

/-! ## A `READ` after a `WRITE` -/

theorem execCmdRead_inRange {s : State} {a : Word} {n : Nat} (hn : n ≤ 32) (h : a.toNat + n ≤ 2 ^ 64) :
    execCmdRead a n s = .next (s.answer (.bytes (s.mem.bytesAt a.toNat n))) := by
  rw [execCmdRead, if_neg (by omega), memBytes_inRange _ (.inr h)]; rfl

theorem execCmdWrite_inRange {s : State} {a : Word} {b : List Byte} (hb : b.length ≤ 32)
    (h : a.toNat + b.length ≤ 2 ^ 64) :
    execCmdWrite a b s = .next ({ s with mem := s.mem.setBytesAt a.toNat b }.answer .ok) := by
  rw [execCmdWrite, if_neg (by omega), memSetBytes_inRange _ (.inr h)]; rfl

/-- Settles O23: both commands complete, and the bytes are those after a write. -/
theorem readAfterWrite : Obligations.ReadAfterWrite := by
  intro s a b hm hb h
  refine ⟨_, execCmdWrite_inRange hb h, ?_, fun c n hn hc => ?_⟩
  · refine (execCmdRead_inRange hb h).trans ?_
    rw [State.answer_mem, Memory.bytesAt_setBytesAt hm h]
  · refine (execCmdRead_inRange hn hc).trans ?_
    rw [State.answer_mem, Memory.bytesAt_eq_map]
    simp only [Memory.byte_setBytesAt_eq_ite hm h]

end Sys2Proof.Machine
end

section
/-! SUPPORT. The commitment tree (spec/20_memory.md R52 to R61): node values by depth and position, the two equations that
define them, that they depend on the bytes alone, the zero hashes, and the fold of a proof. -/

namespace Sys2Proof.Machine

/-! ## Subtrees -/

theorem zeroHash_succ (H : HashFn) (h : Nat) : zeroHash H (h + 1) = branch H (zeroHash H h) (zeroHash H h) := rfl

theorem leafValue_congr {m m' : Memory} {i : Nat} (h : ∀ k < 32, m'.byte (32 * i + k) = m.byte (32 * i + k)) :
    leafValue m' i = leafValue m i := by
  ext1 k hk
  simpa [leafValue] using h k hk

theorem leafValue_eq_zeroHash {m : Memory} {i : Nat} (h : ∀ k < 32, m.byte (32 * i + k) = 0) (H : HashFn) :
    leafValue m i = zeroHash H 0 := by
  ext1 k hk
  simpa [leafValue, zeroHash] using h k hk

/-- The address `a` lies under node number `i` of height `h` (R52, R54). -/
def Under (h i a : Nat) : Prop := a / (32 * 2 ^ h) = i

theorem under_zero_iff {i a : Nat} : Under 0 i a ↔ a / 32 = i := by simp [Under]

/-- The addresses under a child are addresses under its parent. -/
theorem Under.parent {h i a : Nat} (ha : Under h i a) : Under (h + 1) (i / 2) a := by
  unfold Under at ha ⊢
  rw [pow_succ, ← mul_assoc, ← Nat.div_div_eq_div_mul, ha]

/-- A subtree without a listed byte reads 0 throughout (R51). -/
theorem byte_eq_zero_of_hasData_false {m : Memory} {h i : Nat} (hd : hasData m h i = false) {a : Nat}
    (ha : Under h i a) : m.byte a = 0 := by
  refine cellsGet_eq_zero fun c hc hca => ?_
  have hne : c.1 / (32 * 2 ^ h) ≠ i := by simpa using List.any_eq_false.1 hd c hc
  exact hne (hca ▸ ha)

/-- A subtree over zeros has the zero hash of its height, walked or not (R57, by induction on the height). -/
theorem subtree_eq_zeroHash (H : HashFn) {m : Memory} {h i : Nat} (hz : ∀ a, Under h i a → m.byte a = 0) :
    subtree H m h i = zeroHash H h := by
  induction h generalizing i with
  | zero => exact leafValue_eq_zeroHash (fun k hk => hz _ (under_zero_iff.2 (by omega))) H
  | succ h ih =>
    have child (c : Nat) (hc : c / 2 = i) : subtree H m h c = zeroHash H h := ih fun a ha => hz a (hc ▸ ha.parent)
    rw [subtree]
    split
    · rw [child (2 * i) (by omega), child (2 * i + 1) (by omega), zeroHash_succ]
    · rfl

/-- The branch equation holds of every subtree, walked or not (R55; log entry 16). -/
theorem subtree_succ (H : HashFn) (m : Memory) (h i : Nat) :
    subtree H m (h + 1) i = branch H (subtree H m h (2 * i)) (subtree H m h (2 * i + 1)) := by
  cases hd : hasData m (h + 1) i with
  | true => rw [subtree, if_pos hd]
  | false =>
    have child (c : Nat) (hc : c / 2 = i) : subtree H m h c = zeroHash H h :=
      subtree_eq_zeroHash H fun a ha => byte_eq_zero_of_hasData_false hd (hc ▸ ha.parent)
    rw [child (2 * i) (by omega), child (2 * i + 1) (by omega), subtree, hd, if_neg (by decide), zeroHash_succ]

/-- A subtree is a function of the bytes under it (R59 (a)). -/
theorem subtree_congr (H : HashFn) {m m' : Memory} {h i : Nat} (hb : ∀ a, Under h i a → m'.byte a = m.byte a) :
    subtree H m' h i = subtree H m h i := by
  induction h generalizing i with
  | zero => exact leafValue_congr fun k hk => hb _ (under_zero_iff.2 (by omega))
  | succ h ih =>
    have child (c : Nat) (hc : c / 2 = i) : subtree H m' h c = subtree H m h c :=
      ih fun a ha => hb a (hc ▸ ha.parent)
    rw [subtree_succ, subtree_succ, child (2 * i) (by omega), child (2 * i + 1) (by omega)]

/-! ## Nodes -/

/-- Every node number is a depth and a position (R54). -/
theorem exists_depth_position {g : Nat} (hg : g ≠ 0) : ∃ d i, i < 2 ^ d ∧ g = 2 ^ d + i := by
  have h1 := Nat.log2_self_le hg
  have h2 : g < 2 ^ (g.log2 + 1) := Nat.lt_log2_self
  exact ⟨g.log2, g - 2 ^ g.log2, by omega, by omega⟩

theorem node_two_pow_add (H : HashFn) (m : Memory) {d i : Nat} (hi : i < 2 ^ d) :
    node H m (2 ^ d + i) = subtree H m (59 - d) i := by
  have hlog : (2 ^ d + i).log2 = d := by
    have hpos : 0 < 2 ^ d := Nat.two_pow_pos d
    rw [Nat.log2_eq_iff (by omega)]
    omega
  rw [node, hlog, Nat.add_sub_cancel_left, Config.treeDepth]

/-- The first equation of R55: a node of height 0 is its leaf. -/
theorem node_leaf (H : HashFn) (m : Memory) {i : Nat} (hi : i < 2 ^ 59) : node H m (2 ^ 59 + i) = leafValue m i :=
  node_two_pow_add H m hi

/-- The second equation of R55: any other node is the hash of its two children. -/
theorem node_branch (H : HashFn) (m : Memory) {g : Nat} (h1 : g ≠ 0) (h2 : g < 2 ^ 59) :
    node H m g = branch H (node H m (2 * g)) (node H m (2 * g + 1)) := by
  obtain ⟨d, i, hi, rfl⟩ := exists_depth_position h1
  have hd : d < 59 := (Nat.pow_lt_pow_iff_right (by decide)).1 (by omega : 2 ^ d < 2 ^ 59)
  have hpow : 2 ^ (d + 1) = 2 * 2 ^ d := pow_succ' 2 d
  rw [show 2 * (2 ^ d + i) = 2 ^ (d + 1) + 2 * i by omega, Nat.add_assoc, node_two_pow_add H m hi,
    node_two_pow_add H m (by omega), node_two_pow_add H m (by omega),
    show 59 - d = 59 - (d + 1) + 1 by omega, subtree_succ]

theorem root_eq_subtree (H : HashFn) (m : Memory) : root H m = subtree H m 59 0 :=
  node_two_pow_add (d := 0) (i := 0) H m (by decide)

theorem Under.lt_of_root {a : Nat} (ha : Under 59 0 a) : a < 2 ^ 64 :=
  (Nat.div_eq_zero_iff_lt (by decide)).1 ha

theorem nodeAt_tooDeep (H : HashFn) (m : Memory) {g : Nat} (hg : g = 0 ∨ 2 ^ 60 ≤ g) :
    nodeAt H m g = .error (.gindexTooDeep g) := if_pos hg

theorem nodeAt_ok (H : HashFn) (m : Memory) {g : Nat} (h1 : g ≠ 0) (h2 : g < 2 ^ 60) :
    nodeAt H m g = .ok (node H m g) := if_neg (by omega)

/-- Settles O25: the leaf and branch equations of the nodes, and the model's definitions. -/
theorem nodeEquations : Obligations.NodeEquations := by
  intro H m
  refine ⟨fun g h1 h2 => ?_, fun g h1 h2 => node_branch H m (by omega) h2, fun i k hk => by simp [leafValue], rfl,
    fun g hg => nodeAt_tooDeep H m hg, fun g h1 h2 => nodeAt_ok H m (by omega) h2⟩
  have hleaf := node_leaf H m (i := g - 2 ^ 59) (by omega)
  rwa [Nat.add_sub_cancel' h1] at hleaf

/-- The bytes under node `2^d + i` are the `2^(64-d)` bytes at `i * 2^(64-d)`. -/
theorem under_depth_iff {d i a : Nat} (hd : d ≤ 59) :
    Under (59 - d) i a ↔ i * 2 ^ (64 - d) ≤ a ∧ a < (i + 1) * 2 ^ (64 - d) := by
  have hsize : 32 * 2 ^ (59 - d) = 2 ^ (64 - d) := by
    rw [show 64 - d = 5 + (59 - d) by omega, pow_add]; rfl
  rw [Under, hsize, Nat.div_eq_iff (Nat.two_pow_pos _)]
  have hpos : 0 < 2 ^ (64 - d) := Nat.two_pow_pos _
  have hnext : (i + 1) * 2 ^ (64 - d) = i * 2 ^ (64 - d) + 2 ^ (64 - d) := by ring
  omega

/-- Settles O26: the table by definition, the nodes by the zero subtrees. -/
theorem zeroHashes : Obligations.ZeroHashes := by
  refine fun H => ⟨rfl, fun h => rfl, fun m d i hd hi hz => ?_⟩
  rw [node_two_pow_add H m hi]
  refine subtree_eq_zeroHash H fun a ha => ?_
  obtain ⟨hlo, hhi⟩ := (under_depth_iff hd).1 ha
  exact hz a hlo hhi

/-! ## The root -/

/-- The root is a function of the content alone (R59 (a)). -/
theorem root_congr (H : HashFn) {m m' : Memory} (hb : ∀ a < 2 ^ 64, m'.byte a = m.byte a) : root H m' = root H m := by
  rw [root_eq_subtree, root_eq_subtree]
  exact subtree_congr H fun a ha => hb a ha.lt_of_root

/-- A memory of zeros has the zero root (R59 (c)). -/
theorem root_eq_zeroHash (H : HashFn) {m : Memory} (hz : ∀ a < 2 ^ 64, m.byte a = 0) : root H m = zeroHash H 59 := by
  rw [root_eq_subtree]
  exact subtree_eq_zeroHash H fun a ha => hz a ha.lt_of_root

theorem Memory.byte_setBytesAt_zeros {a n : Nat} (h : a + n ≤ 2 ^ 64) (x : Nat) :
    (Memory.empty.setBytesAt a (List.replicate n 0)).byte x = 0 := by
  rw [byte_setBytesAt_eq_ite empty_wf (by simpa using h), byte_empty]
  split_ifs with hx
  · rw [List.length_replicate] at hx
    exact List.getD_replicate _ (by omega)
  · rfl

/-- Writing back what stood there restores every byte (R59 (d)). -/
theorem Memory.byte_writeBack {m : Memory} (hm : m.wf) {a : Nat} {b : List Byte} (h : a + b.length ≤ 2 ^ 64) (x : Nat) :
    ((m.setBytesAt a b).setBytesAt a (m.bytesAt a b.length)).byte x = m.byte x := by
  have hw : (m.setBytesAt a b).wf := setBytesAt_wf hm (.inr h)
  rw [byte_setBytesAt_eq_ite hw (by simpa using h), length_bytesAt]
  split_ifs with hx
  · have hk : x - a < (m.bytesAt a b.length).length := by rw [length_bytesAt]; omega
    rw [List.getD_eq_getElem _ _ hk, getElem_bytesAt, Nat.add_sub_cancel' hx.1]
  · exact byte_setBytesAt_outside (by omega) m

/-- Settles O27: each clause is a fact about the bytes, carried to the root by `root_congr` or `root_eq_zeroHash`. -/
theorem rootProperties : Obligations.RootProperties := fun H =>
  ⟨fun _ _ hb => root_congr H hb, fun _ _ _ _ _ hb => root_congr H hb, fun _ hz => root_eq_zeroHash H hz,
    fun _ _ h => root_eq_zeroHash H fun x _ => Memory.byte_setBytesAt_zeros h x,
    fun _ _ _ hm h => root_congr H fun x _ => Memory.byte_writeBack hm h x⟩

/-! ## Proofs -/

/-- A node and its sibling `g ^^^ 1`, put in order by the low bit, hash to their parent (R55, R60). -/
theorem node_parent (H : HashFn) (m : Memory) {g : Nat} (h1 : 2 ≤ g) (h2 : g < 2 ^ 60) :
    (if g.testBit 0 then branch H (node H m (g ^^^ 1)) (node H m g) else branch H (node H m g) (node H m (g ^^^ 1))) =
      node H m (g / 2) := by
  rw [node_branch H m (g := g / 2) (by omega) (by omega)]
  by_cases hodd : g % 2 = 1
  · have hs : g ^^^ 1 = g - 1 := Nat.xor_one_of_odd (Nat.odd_iff.2 hodd)
    rw [if_pos (by simpa using hodd), hs, show 2 * (g / 2) = g - 1 by omega, show g - 1 + 1 = g by omega]
  · have hs : g ^^^ 1 = g + 1 := Nat.xor_one_of_even (Nat.even_iff.2 (by omega))
    rw [if_neg (by simpa using hodd), hs, show 2 * (g / 2) = g by omega]

/-- The fold from height `j` on, against the node of that height on the path, reproduces the root (R61). -/
theorem foldFrom_siblings (H : HashFn) (m : Memory) (a : Word) {n j : Nat} (hj : j + n = 59) :
    foldFrom H (a.toNat / 32) j (node H m (leafGindex a / 2 ^ j)) ((List.range' j n).map (proofSibling H m a)) =
      root H m := by
  have ha : a.toNat / 32 < 2 ^ 59 := by have := a.isLt; omega
  induction n generalizing j with
  | zero =>
    obtain rfl : j = 59 := hj
    have htop : leafGindex a / 2 ^ 59 = 1 := by rw [leafGindex]; omega
    rw [htop]; rfl
  | succ n ih =>
    have hlow : 2 ≤ leafGindex a / 2 ^ j := by
      rw [Nat.le_div_iff_mul_le (Nat.two_pow_pos j), ← pow_succ']
      calc 2 ^ (j + 1) ≤ 2 ^ 59 := Nat.pow_le_pow_right (by decide) (by omega)
        _ ≤ leafGindex a := Nat.le_add_right ..
    have hhigh : leafGindex a / 2 ^ j < 2 ^ 60 := by
      have := Nat.div_le_self (leafGindex a) (2 ^ j)
      rw [leafGindex] at this ⊢; omega
    have hbit : (a.toNat / 32).testBit j = (leafGindex a / 2 ^ j).testBit 0 := by
      rw [Nat.testBit_div_two_pow, Nat.zero_add, leafGindex, Nat.testBit_two_pow_add_gt (by omega)]
    rw [List.range'_succ, List.map_cons, foldFrom, hbit, proofSibling, node_parent H m hlow hhigh,
      Nat.div_div_eq_div_mul, ← pow_succ]
    exact ih (by omega)

/-- Settles O28: the fold of the whole proof starts at the leaf. -/
theorem proofSoundness : Obligations.ProofSoundness := by
  intro H m a
  refine ⟨by simp [proofOf, Config.treeDepth], fun j hj => ?_, ?_⟩
  · simp [proofOf, Config.treeDepth, hj, proofSibling, leafGindex]
  · have ha : a.toNat / 32 < 2 ^ 59 := by have := a.isLt; omega
    rw [foldProof, proofOf, List.range_eq_range', ← node_leaf H m ha]
    have h := foldFrom_siblings H m a (n := 59) (j := 0) rfl
    rwa [pow_zero, Nat.div_one] at h

end Sys2Proof.Machine
end

section
/-! SUPPORT. Decoding and encoding are inverse (spec/30_encoding.md R91 to R101): the decoder reads every operand back from
an encoding, the encoder puts every field of an accepted word back in its place, and so a word decodes to an instruction
exactly when it is the word of that instruction. -/

namespace Sys2Proof

/-! ## The operands of an encoding -/

theorem encI_operands (imm : BitVec 12) (rs1 rd : Reg) {funct3 opcode : Nat} (h3 : funct3 < 8) (ho : opcode < 128) :
    rdOf (encI imm rs1 funct3 rd opcode) = rd ∧ rs1Of (encI imm rs1 funct3 rd opcode) = rs1 ∧
    imm12Of (encI imm rs1 funct3 rd opcode) = imm := by
  simp [rdOf, rs1Of, imm12Of, encI_fields, h3, ho]

theorem encR_operands (rs2 rs1 rd : Reg) {funct7 funct3 opcode : Nat} (h7 : funct7 < 128) (h3 : funct3 < 8)
    (ho : opcode < 128) :
    rdOf (encR funct7 rs2 rs1 funct3 rd opcode) = rd ∧ rs1Of (encR funct7 rs2 rs1 funct3 rd opcode) = rs1 ∧
    rs2Of (encR funct7 rs2 rs1 funct3 rd opcode) = rs2 ∧ shamt5Of (encR funct7 rs2 rs1 funct3 rd opcode) = rs2 := by
  simp [rdOf, rs1Of, rs2Of, shamt5Of, encR_fields, h7, h3, ho]

theorem encShift6_operands (shamt : BitVec 6) (rs1 rd : Reg) {funct6 funct3 opcode : Nat} (h6 : funct6 < 64)
    (h3 : funct3 < 8) (ho : opcode < 128) :
    rdOf (encShift6 funct6 shamt rs1 funct3 rd opcode) = rd ∧
    rs1Of (encShift6 funct6 shamt rs1 funct3 rd opcode) = rs1 ∧
    shamt6Of (encShift6 funct6 shamt rs1 funct3 rd opcode) = shamt := by
  simp [rdOf, rs1Of, shamt6Of, encShift6_fields, h6, h3, ho]

theorem encS_operands (imm : BitVec 12) (rs2 rs1 : Reg) {funct3 opcode : Nat} (h3 : funct3 < 8) (ho : opcode < 128) :
    rs1Of (encS imm rs2 rs1 funct3 opcode) = rs1 ∧ rs2Of (encS imm rs2 rs1 funct3 opcode) = rs2 ∧
    immSOf (encS imm rs2 rs1 funct3 opcode) = imm := by
  simp [rs1Of, rs2Of, immSOf, encS_fields, h3, ho]

/-- An even offset is determined by its bits above bit 0 (R95). -/
theorem half_double_of_evenBranch {o : BitVec 13} (h : evenBranch o = true) : o.toNat / 2 * 2 = o.toNat :=
  Nat.div_mul_cancel (Nat.dvd_of_mod_eq_zero (by simpa [evenBranch] using h))

/-- The same of a JAL offset (R97). -/
theorem half_double_of_evenJump {o : BitVec 21} (h : evenJump o = true) : o.toNat / 2 * 2 = o.toNat :=
  Nat.div_mul_cancel (Nat.dvd_of_mod_eq_zero (by simpa [evenJump] using h))

theorem encB_operands {offset : BitVec 13} (he : evenBranch offset = true) (rs2 rs1 : Reg) {funct3 opcode : Nat}
    (h3 : funct3 < 8) (ho : opcode < 128) :
    rs1Of (encB offset rs2 rs1 funct3 opcode) = rs1 ∧ rs2Of (encB offset rs2 rs1 funct3 opcode) = rs2 ∧
    immBOf (encB offset rs2 rs1 funct3 opcode) = offset := by
  simp [rs1Of, rs2Of, immBOf, encB_fields, half_double_of_evenBranch he, h3, ho]

theorem encU_operands (imm : BitVec 20) (rd : Reg) {opcode : Nat} (ho : opcode < 128) :
    rdOf (encU imm rd opcode) = rd ∧ immUOf (encU imm rd opcode) = imm := by
  simp [rdOf, immUOf, encU_fields, ho]

theorem encJ_operands {offset : BitVec 21} (he : evenJump offset = true) (rd : Reg) {opcode : Nat} (ho : opcode < 128) :
    rdOf (encJ offset rd opcode) = rd ∧ immJOf (encJ offset rd opcode) = offset := by
  simp [rdOf, immJOf, encJ_fields, half_double_of_evenJump he, ho]

/-! ## Decoding the word of an instruction -/

/-- `w` is the encoding of the instruction, which is well formed. -/
def Instr.HasWord (i : Instr) (w : IWord) : Prop := i.wellFormed = true ∧ encode i = .word w

/-- In each group of instructions the opcode leads to one minor decoder, which finds the minor codes and the operands. -/
theorem Instr.HasWord.decodeFields_eq {i : Instr} {w : IWord} (h : i.HasWord w) : decodeFields w = some i := by
  obtain ⟨hw, he⟩ := h
  cases i with
  | lb | lh | lw | ld | lbu | lhu | lwu => cases he; simp [decodeFields, decodeLoad, encI_fields, encI_operands]
  | sb | sh | sw | sd => cases he; simp [decodeFields, decodeStore, encS_fields, encS_operands]
  | beq _ _ o | bne _ _ o | blt _ _ o | bge _ _ o | bltu _ _ o | bgeu _ _ o =>
    have hb : evenBranch o = true := hw
    cases he; simp [decodeFields, decodeBranch, encB_fields, encB_operands, hb]
  | addi | slti | sltiu | xori | ori | andi =>
    cases he; simp [decodeFields, decodeOpImm, encI_fields, encI_operands]
  | slli | srli | srai => cases he; simp [decodeFields, decodeOpImm, encShift6_fields, encShift6_operands]
  | addiw => cases he; simp [decodeFields, decodeOpImm32, encI_fields, encI_operands]
  | slliw | srliw | sraiw => cases he; simp [decodeFields, decodeOpImm32, encR_fields, encR_operands]
  | add | sub | sll | slt | sltu | srl | sra | xor | or | and | mul | mulh | mulhsu | mulhu | div | divu | rem | remu =>
    cases he; simp [decodeFields, decodeOp, encR_fields, encR_operands]
  | addw | subw | sllw | srlw | sraw | mulw | divw | divuw | remw | remuw =>
    cases he; simp [decodeFields, decodeOp32, encR_fields, encR_operands]
  | lui | auipc => cases he; simp [decodeFields, encU_fields, encU_operands]
  | jal _ o =>
    have hj : evenJump o = true := hw
    cases he; simp [decodeFields, encJ_fields, encJ_operands, hj]
  | jalr => cases he; simp [decodeFields, decodeJalr, encI_fields, encI_operands]
  | fence => cases he; simp [decodeFields, decodeMiscMem, encFence_fields, rdOf, rs1Of]
  | fenceI => cases he; simp [decodeFields, decodeMiscMem, encI_fields, encI_operands]
  | aSlot => cases he; simp [decodeFields, decodeASlot, encASlot_fields, rdOf, rs1Of, rs2Of]
  | ecall | ebreak => cases he; rfl
  | cmdRead | cmdWrite | cmdRoot | cmdProof | cmdSerialize | cmdDeserialize | cmdEncodeState | cmdDecodeState
  | cmdStateHash | cmdStep => cases he

/-! ## A word from its fields -/

theorem bits_lt (w : IWord) (hi lo : Nat) : bits w hi lo < 2 ^ (hi - lo + 1) := Nat.mod_lt _ (Nat.two_pow_pos _)

/-- The six fields of an R-type word are all of its bits (R92). -/
theorem toNat_eq_fields (w : IWord) :
    w.toNat = bits w 31 25 * 2 ^ 25 + bits w 24 20 * 2 ^ 20 + bits w 19 15 * 2 ^ 15 + bits w 14 12 * 2 ^ 12 +
      bits w 11 7 * 2 ^ 7 + bits w 6 0 := by
  have := w.isLt
  simp only [bits]
  omega

/-- A number whose digits are the fields of `w` is `w`. -/
theorem ofNat_eq_of_fields {w : IWord} {n : Nat}
    (h : n = bits w 31 25 * 2 ^ 25 + bits w 24 20 * 2 ^ 20 + bits w 19 15 * 2 ^ 15 + bits w 14 12 * 2 ^ 12 +
      bits w 11 7 * 2 ^ 7 + bits w 6 0) : BitVec.ofNat 32 n = w := by
  rw [h, ← toNat_eq_fields, BitVec.ofNat_toNat, BitVec.setWidth_eq]

@[simp] theorem toNat_rdOf (w : IWord) : (rdOf w).toNat = bits w 11 7 := by
  rw [rdOf, BitVec.toNat_ofNat, Nat.mod_eq_of_lt (bits_lt w 11 7)]

@[simp] theorem toNat_rs1Of (w : IWord) : (rs1Of w).toNat = bits w 19 15 := by
  rw [rs1Of, BitVec.toNat_ofNat, Nat.mod_eq_of_lt (bits_lt w 19 15)]

@[simp] theorem toNat_rs2Of (w : IWord) : (rs2Of w).toNat = bits w 24 20 := by
  rw [rs2Of, BitVec.toNat_ofNat, Nat.mod_eq_of_lt (bits_lt w 24 20)]

@[simp] theorem toNat_shamt6Of (w : IWord) : (shamt6Of w).toNat = bits w 25 20 := by
  rw [shamt6Of, BitVec.toNat_ofNat, Nat.mod_eq_of_lt (bits_lt w 25 20)]

@[simp] theorem toNat_imm12Of (w : IWord) : (imm12Of w).toNat = bits w 31 20 := by
  rw [imm12Of, BitVec.toNat_ofNat, Nat.mod_eq_of_lt (bits_lt w 31 20)]

@[simp] theorem toNat_immUOf (w : IWord) : (immUOf w).toNat = bits w 31 12 := by
  rw [immUOf, BitVec.toNat_ofNat, Nat.mod_eq_of_lt (bits_lt w 31 12)]

/-- The pieces of the S-type immediate (R94). -/
theorem immSOf_pieces (w : IWord) :
    (immSOf w).toNat / 32 = bits w 31 25 ∧ (immSOf w).toNat % 32 = bits w 11 7 := by
  have := bits_lt w 31 25
  have := bits_lt w 11 7
  simp only [immSOf, BitVec.toNat_ofNat]
  omega

/-- The pieces of the B-type immediate (R95). -/
theorem immBOf_pieces (w : IWord) :
    (immBOf w).toNat / 4096 = bits w 31 31 ∧ (immBOf w).toNat / 32 % 64 = bits w 30 25 ∧
    (immBOf w).toNat / 2 % 16 = bits w 11 8 ∧ (immBOf w).toNat / 2048 % 2 = bits w 7 7 ∧
    (immBOf w).toNat % 2 = 0 := by
  have := bits_lt w 31 31
  have := bits_lt w 30 25
  have := bits_lt w 11 8
  have := bits_lt w 7 7
  simp only [immBOf, BitVec.toNat_ofNat]
  omega

/-- The pieces of the J-type immediate (R97). -/
theorem immJOf_pieces (w : IWord) :
    (immJOf w).toNat / 1048576 = bits w 31 31 ∧ (immJOf w).toNat / 2 % 1024 = bits w 30 21 ∧
    (immJOf w).toNat / 2048 % 2 = bits w 20 20 ∧ (immJOf w).toNat / 4096 % 256 = bits w 19 12 ∧
    (immJOf w).toNat % 2 = 0 := by
  have := bits_lt w 31 31
  have := bits_lt w 30 21
  have := bits_lt w 20 20
  have := bits_lt w 19 12
  simp only [immJOf, BitVec.toNat_ofNat]
  omega

theorem evenBranch_immBOf (w : IWord) : evenBranch (immBOf w) = true := by
  obtain ⟨-, -, -, -, h0⟩ := immBOf_pieces w
  simp [evenBranch, h0]

theorem evenJump_immJOf (w : IWord) : evenJump (immJOf w) = true := by
  obtain ⟨-, -, -, -, h0⟩ := immJOf_pieces w
  simp [evenJump, h0]

/-! ## Encoding the fields of a word -/

section
variable {w : IWord} {opcode funct3 funct6 funct7 : Nat}

theorem encR_of_bits (ho : bits w 6 0 = opcode) (h7 : bits w 31 25 = funct7) (h3 : bits w 14 12 = funct3) :
    encR funct7 (rs2Of w) (rs1Of w) funct3 (rdOf w) opcode = w := by
  subst ho h7 h3
  rw [encR, toNat_rs2Of, toNat_rs1Of, toNat_rdOf]
  exact ofNat_eq_of_fields rfl

theorem encI_of_bits (ho : bits w 6 0 = opcode) (h3 : bits w 14 12 = funct3) :
    encI (imm12Of w) (rs1Of w) funct3 (rdOf w) opcode = w := by
  subst ho h3
  have himm : bits w 31 20 = bits w 31 25 * 2 ^ 5 + bits w 24 20 := by simp only [bits]; omega
  rw [encI, toNat_imm12Of, toNat_rs1Of, toNat_rdOf, himm]
  exact ofNat_eq_of_fields (by omega)

theorem encShift6_of_bits (ho : bits w 6 0 = opcode) (h3 : bits w 14 12 = funct3) (h6 : bits w 31 26 = funct6) :
    encShift6 funct6 (shamt6Of w) (rs1Of w) funct3 (rdOf w) opcode = w := by
  subst ho h3 h6
  have hamount : bits w 31 26 * 2 ^ 6 + bits w 25 20 = bits w 31 25 * 2 ^ 5 + bits w 24 20 := by simp only [bits]; omega
  rw [encShift6, toNat_shamt6Of, toNat_rs1Of, toNat_rdOf]
  exact ofNat_eq_of_fields (by omega)

theorem encS_of_bits (ho : bits w 6 0 = opcode) (h3 : bits w 14 12 = funct3) :
    encS (immSOf w) (rs2Of w) (rs1Of w) funct3 opcode = w := by
  subst ho h3
  obtain ⟨hhigh, hlow⟩ := immSOf_pieces w
  rw [encS, hhigh, hlow, toNat_rs2Of, toNat_rs1Of]
  exact ofNat_eq_of_fields rfl

theorem encB_of_bits (ho : bits w 6 0 = opcode) (h3 : bits w 14 12 = funct3) :
    encB (immBOf w) (rs2Of w) (rs1Of w) funct3 opcode = w := by
  subst ho h3
  obtain ⟨h12, h10, h4, h11, -⟩ := immBOf_pieces w
  have hhigh : bits w 31 25 = bits w 31 31 * 2 ^ 6 + bits w 30 25 := by simp only [bits]; omega
  have hlow : bits w 11 7 = bits w 11 8 * 2 + bits w 7 7 := by simp only [bits]; omega
  rw [encB, h12, h10, h4, h11, toNat_rs2Of, toNat_rs1Of]
  exact ofNat_eq_of_fields (by omega)

theorem encU_of_bits (ho : bits w 6 0 = opcode) : encU (immUOf w) (rdOf w) opcode = w := by
  subst ho
  have himm : bits w 31 12 = bits w 31 25 * 2 ^ 13 + bits w 24 20 * 2 ^ 8 + bits w 19 15 * 2 ^ 3 + bits w 14 12 := by
    simp only [bits]; omega
  rw [encU, toNat_immUOf, toNat_rdOf]
  exact ofNat_eq_of_fields (by omega)

theorem encJ_of_bits (ho : bits w 6 0 = opcode) : encJ (immJOf w) (rdOf w) opcode = w := by
  subst ho
  obtain ⟨h20, h10, h11, h19, -⟩ := immJOf_pieces w
  have hhigh : bits w 31 25 * 2 ^ 5 + bits w 24 20 = bits w 31 31 * 2 ^ 11 + bits w 30 21 * 2 + bits w 20 20 := by
    simp only [bits]; omega
  have hlow : bits w 19 12 = bits w 19 15 * 2 ^ 3 + bits w 14 12 := by simp only [bits]; omega
  rw [encJ, h20, h10, h11, h19, toNat_rdOf]
  exact ofNat_eq_of_fields (by omega)

theorem encFence_of_bits (ho : bits w 6 0 = 0x0f) (h3 : bits w 14 12 = 0) :
    encFence (BitVec.ofNat 4 (bits w 31 28)) (BitVec.ofNat 4 (bits w 27 24)) (BitVec.ofNat 4 (bits w 23 20))
      (rs1Of w) (rdOf w) = w := by
  have hsets : bits w 31 25 * 2 ^ 5 + bits w 24 20 = bits w 31 28 * 2 ^ 8 + bits w 27 24 * 2 ^ 4 + bits w 23 20 := by
    simp only [bits]; omega
  rw [encFence, BitVec.toNat_ofNat, BitVec.toNat_ofNat, BitVec.toNat_ofNat, Nat.mod_eq_of_lt (bits_lt w 31 28),
    Nat.mod_eq_of_lt (bits_lt w 27 24), Nat.mod_eq_of_lt (bits_lt w 23 20), toNat_rs1Of, toNat_rdOf]
  exact ofNat_eq_of_fields (by omega)

theorem encASlot_of_bits (ho : bits w 6 0 = 0x2f) :
    encASlot (BitVec.ofNat 5 (bits w 31 27)) (BitVec.ofNat 1 (bits w 26 26)) (BitVec.ofNat 1 (bits w 25 25))
      (rs2Of w) (rs1Of w) (BitVec.ofNat 3 (bits w 14 12)) (rdOf w) = w := by
  have hfunct7 : bits w 31 25 = bits w 31 27 * 4 + bits w 26 26 * 2 + bits w 25 25 := by simp only [bits]; omega
  rw [encASlot, BitVec.toNat_ofNat, BitVec.toNat_ofNat, BitVec.toNat_ofNat, BitVec.toNat_ofNat,
    Nat.mod_eq_of_lt (bits_lt w 31 27), Nat.mod_eq_of_lt (bits_lt w 26 26), Nat.mod_eq_of_lt (bits_lt w 25 25),
    Nat.mod_eq_of_lt (bits_lt w 14 12), toNat_rs2Of, toNat_rs1Of, toNat_rdOf]
  exact ofNat_eq_of_fields (by omega)

end

/-! ## An accepted word is the word of its instruction

One lemma for each minor decoder: in each of its arms, the word is the encoding of the arm's instruction. -/

theorem Instr.HasWord.of_eq {i : Instr} {v w : IWord} (hw : i.wellFormed = true) (he : encode i = .word v) (h : v = w) :
    i.HasWord w := ⟨hw, h ▸ he⟩

section
variable {w : IWord} {i : Instr}

theorem hasWord_of_decodeLoad (ho : bits w 6 0 = 0x03) (h : decodeLoad w = some i) : i.HasWord w := by
  unfold decodeLoad at h
  split at h <;> cases h <;> exact .of_eq rfl rfl (encI_of_bits ho ‹_›)

theorem hasWord_of_decodeMiscMem (ho : bits w 6 0 = 0x0f) (h : decodeMiscMem w = some i) : i.HasWord w := by
  unfold decodeMiscMem at h
  split at h <;> cases h
  · exact .of_eq rfl rfl (encFence_of_bits ho ‹_›)
  · exact .of_eq rfl rfl (encI_of_bits ho ‹_›)

theorem hasWord_of_decodeOpImm (ho : bits w 6 0 = 0x13) (h : decodeOpImm w = some i) : i.HasWord w := by
  unfold decodeOpImm at h
  split at h
  case h_7 | h_8 => split at h <;> cases h <;> exact .of_eq rfl rfl (encShift6_of_bits ho ‹_› ‹_›)
  all_goals cases h <;> exact .of_eq rfl rfl (encI_of_bits ho ‹_›)

theorem hasWord_of_decodeOpImm32 (ho : bits w 6 0 = 0x1b) (h : decodeOpImm32 w = some i) : i.HasWord w := by
  unfold decodeOpImm32 at h
  split at h
  case h_2 | h_3 => split at h <;> cases h <;> exact .of_eq rfl rfl (encR_of_bits ho ‹_› ‹_›)
  all_goals cases h <;> exact .of_eq rfl rfl (encI_of_bits ho ‹_›)

theorem hasWord_of_decodeStore (ho : bits w 6 0 = 0x23) (h : decodeStore w = some i) : i.HasWord w := by
  unfold decodeStore at h
  split at h <;> cases h <;> exact .of_eq rfl rfl (encS_of_bits ho ‹_›)

theorem hasWord_of_decodeOp (ho : bits w 6 0 = 0x33) (h : decodeOp w = some i) : i.HasWord w := by
  unfold decodeOp at h
  split at h
  case h_4 => cases h
  all_goals split at h <;> cases h <;> exact .of_eq rfl rfl (encR_of_bits ho ‹_› ‹_›)

theorem hasWord_of_decodeOp32 (ho : bits w 6 0 = 0x3b) (h : decodeOp32 w = some i) : i.HasWord w := by
  unfold decodeOp32 at h
  split at h
  case h_4 => cases h
  all_goals split at h <;> cases h <;> exact .of_eq rfl rfl (encR_of_bits ho ‹_› ‹_›)

theorem hasWord_of_decodeBranch (ho : bits w 6 0 = 0x63) (h : decodeBranch w = some i) : i.HasWord w := by
  unfold decodeBranch at h
  split at h <;> cases h <;> exact .of_eq (evenBranch_immBOf w) rfl (encB_of_bits ho ‹_›)

theorem hasWord_of_decodeJalr (ho : bits w 6 0 = 0x67) (h : decodeJalr w = some i) : i.HasWord w := by
  unfold decodeJalr at h
  split at h <;> cases h
  exact .of_eq rfl rfl (encI_of_bits ho ‹_›)

theorem hasWord_of_decodeSystem (h : decodeSystem w = some i) : i.HasWord w := by
  unfold decodeSystem at h
  split_ifs at h with hcall hbreak <;> cases h
  · exact .of_eq rfl rfl hcall.symm
  · exact .of_eq rfl rfl hbreak.symm

theorem hasWord_of_decodeFields (h : decodeFields w = some i) : i.HasWord w := by
  unfold decodeFields at h
  split at h
  next ho => exact hasWord_of_decodeLoad ho h
  next ho => exact hasWord_of_decodeMiscMem ho h
  next ho => exact hasWord_of_decodeOpImm ho h
  next ho => cases h; exact .of_eq rfl rfl (encU_of_bits ho)
  next ho => exact hasWord_of_decodeOpImm32 ho h
  next ho => exact hasWord_of_decodeStore ho h
  next ho => cases h; exact .of_eq rfl rfl (encASlot_of_bits ho)
  next ho => exact hasWord_of_decodeOp ho h
  next ho => cases h; exact .of_eq rfl rfl (encU_of_bits ho)
  next ho => exact hasWord_of_decodeOp32 ho h
  next ho => exact hasWord_of_decodeBranch ho h
  next ho => exact hasWord_of_decodeJalr ho h
  next ho => cases h; exact .of_eq (evenJump_immJOf w) rfl (encJ_of_bits ho)
  next => exact hasWord_of_decodeSystem h
  next => cases h

theorem decodeWord_eq_error (h : decodeFields w = none) : decodeWord w = .error (.unrecognized w) := by
  rw [decodeWord, h]

theorem decodeWord_eq_ok_iff : decodeWord w = .ok i ↔ decodeFields w = some i := by
  cases hd : decodeFields w <;> simp [decodeWord, hd]

/-- A word decodes to an instruction exactly when it is that instruction's word. -/
theorem decodeWord_eq_ok_iff_hasWord : decodeWord w = .ok i ↔ i.HasWord w :=
  decodeWord_eq_ok_iff.trans ⟨hasWord_of_decodeFields, Instr.HasWord.decodeFields_eq⟩

end

/-- A command is encoded as a request, from which the port decodes it (R107; log entry 2). -/
theorem decodeRequest_encode {i : Instr} (h : i.isCommand = true) :
    ∃ r, encode i = .request r ∧ decodeRequest r = .ok i := by
  cases i with
  | cmdRead | cmdWrite | cmdRoot | cmdProof | cmdSerialize | cmdDeserialize | cmdEncodeState | cmdDecodeState
  | cmdStateHash | cmdStep => exact ⟨_, rfl, rfl⟩
  | _ => cases h

/-- Every other instruction is encoded as a word. -/
theorem exists_encode_eq_word {i : Instr} (h : i.isCommand = false) : ∃ w, encode i = .word w := by
  cases i with
  | cmdRead | cmdWrite | cmdRoot | cmdProof | cmdSerialize | cmdDeserialize | cmdEncodeState | cmdDecodeState
  | cmdStateHash | cmdStep => cases h
  | _ => exact ⟨_, rfl⟩

/-- Settles O2: an instruction's word decodes to it, a command's request too. -/
theorem encodeThenDecode : Obligations.EncodeThenDecode := by
  intro i hw
  cases hc : i.isCommand with
  | true =>
    obtain ⟨r, he, hd⟩ := decodeRequest_encode hc
    rwa [he]
  | false =>
    obtain ⟨w, he⟩ := exists_encode_eq_word hc
    rw [he]
    exact decodeWord_eq_ok_iff_hasWord.2 ⟨hw, he⟩

/-- Settles O3. -/
theorem acceptedWordReencodes : Obligations.AcceptedWordReencodes := by
  intro w i h
  obtain ⟨hw, he⟩ := decodeWord_eq_ok_iff_hasWord.1 h
  exact ⟨he, hw, Machine.decodeWord_not_command h⟩

end Sys2Proof
end

section
/-! SUPPORT. The decoder against the opcode table and against the list of reserved words (spec/30_encoding.md R99 to R102): a
word of an instruction matches a row, a word that matches a row is not reserved, and a word that is not reserved decodes. -/

namespace Sys2Proof.Laws.InRow

/-- The encoder puts every instruction in its row. -/
theorem statement_of_instr : ∀ i : Instr, Statement i
  | .lb .. => lb .. | .lh .. => lh .. | .lw .. => lw .. | .ld .. => ld .. | .lbu .. => lbu .. | .lhu .. => lhu ..
  | .lwu .. => lwu .. | .sb .. => sb .. | .sh .. => sh .. | .sw .. => sw .. | .sd .. => sd ..
  | .beq .. => beq .. | .bne .. => bne .. | .blt .. => blt .. | .bge .. => bge .. | .bltu .. => bltu ..
  | .bgeu .. => bgeu ..
  | .addi .. => addi .. | .slti .. => slti .. | .sltiu .. => sltiu .. | .xori .. => xori .. | .ori .. => ori ..
  | .andi .. => andi .. | .slli .. => slli .. | .srli .. => srli .. | .srai .. => srai ..
  | .add .. => add .. | .sub .. => sub .. | .sll .. => sll .. | .slt .. => slt .. | .sltu .. => sltu ..
  | .srl .. => srl .. | .sra .. => sra .. | .xor .. => xor .. | .or .. => or .. | .and .. => and ..
  | .addiw .. => addiw .. | .slliw .. => slliw .. | .srliw .. => srliw .. | .sraiw .. => sraiw ..
  | .addw .. => addw .. | .subw .. => subw .. | .sllw .. => sllw .. | .srlw .. => srlw .. | .sraw .. => sraw ..
  | .lui .. => lui .. | .auipc .. => auipc .. | .jal .. => jal .. | .jalr .. => jalr ..
  | .mul .. => mul .. | .mulh .. => mulh .. | .mulhsu .. => mulhsu .. | .mulhu .. => mulhu .. | .div .. => div ..
  | .divu .. => divu .. | .rem .. => rem .. | .remu .. => remu .. | .mulw .. => mulw .. | .divw .. => divw ..
  | .divuw .. => divuw .. | .remw .. => remw .. | .remuw .. => remuw ..
  | .ecall => ecall | .ebreak => ebreak | .fence .. => fence .. | .fenceI .. => fenceI .. | .aSlot .. => aSlot ..
  | .cmdRead .. => cmdRead .. | .cmdWrite .. => cmdWrite .. | .cmdRoot => cmdRoot | .cmdProof .. => cmdProof ..
  | .cmdSerialize => cmdSerialize | .cmdDeserialize .. => cmdDeserialize .. | .cmdEncodeState => cmdEncodeState
  | .cmdDecodeState .. => cmdDecodeState .. | .cmdStateHash => cmdStateHash | .cmdStep .. => cmdStep ..

end Sys2Proof.Laws.InRow

namespace Sys2Proof.Machine

/-! ## The rows of the table -/

/-- A word of an instruction matches the row of its mnemonic. -/
theorem exists_row_of_hasWord {i : Instr} {w : IWord} (h : i.HasWord w) :
    ∃ r ∈ rows, r.mnemonic = mnemonicOf i ∧ r.matchesWord w = true := by
  obtain ⟨-, he⟩ := h
  have hs := Laws.InRow.statement_of_instr i
  rwa [Laws.InRow.Statement, he] at hs

theorem matchesWord_iff {r : Row} {w : IWord} : r.matchesWord w = true ↔ w &&& r.mask = r.pattern := beq_iff_eq

/-- No word matches two disjoint rows: on the bits that both masks test, it would have both patterns. -/
theorem not_matchesWord_of_disjoint {r q : Row} {w : IWord} (hd : r.disjoint q = true) (hr : r.matchesWord w = true) :
    ¬q.matchesWord w = true := by
  intro hq
  rw [matchesWord_iff] at hr hq
  have hne : (r.pattern ^^^ q.pattern) &&& (r.mask &&& q.mask) ≠ 0 := by simpa [Row.disjoint] using hd
  refine hne (BitVec.eq_of_getLsbD_eq fun k _ => ?_)
  rw [← hr, ← hq]
  simp only [BitVec.getLsbD_and, BitVec.getLsbD_xor]
  cases w.getLsbD k <;> cases r.mask.getLsbD k <;> cases q.mask.getLsbD k <;> simp

theorem row_disjoint_symm {r q : Row} (h : r.disjoint q = true) : q.disjoint r = true := by
  rwa [Row.disjoint, BitVec.xor_comm, BitVec.and_comm q.mask]

theorem rows_pairwise_disjoint : rows.Pairwise fun r q => r.disjoint q = true := by decide

theorem row_unique {r q : Row} {w : IWord} (hr : r ∈ rows) (hq : q ∈ rows) (h : r.matchesWord w = true)
    (h' : q.matchesWord w = true) : r = q := by
  by_contra hne
  have hsymm : Std.Symm fun r q : Row => r.disjoint q = true := ⟨fun _ _ => row_disjoint_symm⟩
  exact not_matchesWord_of_disjoint (rows_pairwise_disjoint.forall hr hq hne) h h'

/-! ## A matching word is not reserved -/

/-- A word has the pattern's value in a field that the mask tests in full. -/
theorem bits_eq_of_matchesWord {r : Row} {w : IWord} {hi lo : Nat} (h : r.matchesWord w = true)
    (hm : bits r.mask hi lo = 2 ^ (hi - lo + 1) - 1) : bits w hi lo = bits r.pattern hi lo := by
  rw [matchesWord_iff] at h
  rw [← h]
  unfold bits at *
  apply Nat.eq_of_testBit_eq
  intro k
  have hk := congrArg (·.testBit k) hm
  simp only [Nat.testBit_mod_two_pow, Nat.testBit_div_two_pow, Nat.testBit_two_pow_sub_one] at hk
  simp only [Nat.testBit_mod_two_pow, Nat.testBit_div_two_pow, BitVec.toNat_and, Nat.testBit_and]
  by_cases hlt : k < hi - lo + 1
  · simp_all
  · simp [hlt]

/-- Each row tests the opcode and every field that R102 looks at under its opcode. -/
theorem rows_test_fields : ∀ r ∈ rows,
    bits r.mask 6 0 = 127 ∧
    (bits r.pattern 6 0 ∉ [0x17, 0x2f, 0x37, 0x6f] → bits r.mask 14 12 = 7) ∧
    (bits r.pattern 6 0 = 0x13 → bits r.pattern 14 12 = 1 ∨ bits r.pattern 14 12 = 5 → bits r.mask 31 26 = 63) ∧
    (bits r.pattern 6 0 = 0x1b → bits r.pattern 14 12 = 1 ∨ bits r.pattern 14 12 = 5 → bits r.mask 31 25 = 127) ∧
    (bits r.pattern 6 0 = 0x33 ∨ bits r.pattern 6 0 = 0x3b → bits r.mask 31 25 = 127) ∧
    (bits r.pattern 6 0 = 0x73 → r.mask = 0xffffffff) := by decide

theorem rows_not_reserved : ∀ r ∈ rows, ¬ReservedWord r.pattern := by
  unfold ReservedWord
  decide

/-- A SYSTEM word that matches is the row's pattern; under any other opcode, what makes a word reserved stands in fields
that the row tests, so the pattern would be reserved too. -/
theorem not_reservedWord_of_matchesWord {r : Row} {w : IWord} (hr : r ∈ rows) (h : r.matchesWord w = true) :
    ¬ReservedWord w := by
  obtain ⟨m, m3, m6, m7, m7', mall⟩ := rows_test_fields r hr
  have hn := rows_not_reserved r hr
  rw [← bits_eq_of_matchesWord h m] at m3 m6 m7 m7' mall
  by_cases hsys : bits w 6 0 = 0x73
  · rwa [← matchesWord_iff.1 h, mall hsys, and_whole] at hn
  · have h3 o := bits_eq_of_matchesWord h (m3 o)
    have h6 o f := bits_eq_of_matchesWord h (m6 o f)
    have h7 o f := bits_eq_of_matchesWord h (m7 o f)
    have h7' o := bits_eq_of_matchesWord h (m7' o)
    rw [ReservedWord, ← bits_eq_of_matchesWord h m] at hn
    rintro (⟨ho, _⟩ | ⟨ho, _⟩ | ⟨ho, _⟩ | ⟨ho, _⟩ | ⟨ho, _⟩ | ⟨ho, _⟩ | ⟨ho, _⟩ | ⟨ho, _⟩ | ⟨ho, _⟩ | ⟨ho, _⟩ | ho)
    all_goals simp [ho] at hsys h3 h6 h7 h7' hn <;> omega

/-! ## A word that no minor decoder knows is reserved -/

section
variable {w : IWord}

theorem decodeLoad_eq_none (h : decodeLoad w = none) : bits w 14 12 = 7 := by
  have := bits_lt w 14 12
  unfold decodeLoad at h
  split at h <;> cases h
  simp only [imp_false] at *
  omega

theorem decodeMiscMem_eq_none (h : decodeMiscMem w = none) : bits w 14 12 ≠ 0 ∧ bits w 14 12 ≠ 1 := by
  unfold decodeMiscMem at h
  split at h <;> cases h
  exact ⟨‹_›, ‹_›⟩

theorem decodeOpImm_eq_none (h : decodeOpImm w = none) :
    bits w 14 12 = 1 ∧ bits w 31 26 ≠ 0 ∨ bits w 14 12 = 5 ∧ bits w 31 26 ≠ 0 ∧ bits w 31 26 ≠ 16 := by
  have := bits_lt w 14 12
  unfold decodeOpImm at h
  repeat' split at h
  all_goals cases h
  all_goals (simp only [imp_false] at *; omega)

theorem decodeOpImm32_eq_none (h : decodeOpImm32 w = none) :
    bits w 14 12 = 1 ∧ bits w 31 25 ≠ 0 ∨ bits w 14 12 = 5 ∧ bits w 31 25 ≠ 0 ∧ bits w 31 25 ≠ 32 ∨
      bits w 14 12 ≠ 0 ∧ bits w 14 12 ≠ 1 ∧ bits w 14 12 ≠ 5 := by
  unfold decodeOpImm32 at h
  repeat' split at h
  all_goals cases h
  all_goals (simp only [imp_false] at *; omega)

theorem decodeStore_eq_none (h : decodeStore w = none) : 4 ≤ bits w 14 12 := by
  unfold decodeStore at h
  split at h <;> cases h
  simp only [imp_false] at *
  omega

theorem decodeOp_eq_none (h : decodeOp w = none) :
    bits w 31 25 ≠ 0 ∧ bits w 31 25 ≠ 1 ∧ ¬(bits w 31 25 = 32 ∧ (bits w 14 12 = 0 ∨ bits w 14 12 = 5)) := by
  have := bits_lt w 14 12
  unfold decodeOp at h
  repeat' split at h
  all_goals cases h
  all_goals (simp only [imp_false] at *; omega)

theorem decodeOp32_eq_none (h : decodeOp32 w = none) :
    ¬(bits w 31 25 = 0 ∧ (bits w 14 12 = 0 ∨ bits w 14 12 = 1 ∨ bits w 14 12 = 5)) ∧
    ¬(bits w 31 25 = 32 ∧ (bits w 14 12 = 0 ∨ bits w 14 12 = 5)) ∧
    ¬(bits w 31 25 = 1 ∧ (bits w 14 12 = 0 ∨ 4 ≤ bits w 14 12)) := by
  have := bits_lt w 14 12
  unfold decodeOp32 at h
  repeat' split at h
  all_goals cases h
  all_goals (simp only [imp_false] at *; omega)

theorem decodeBranch_eq_none (h : decodeBranch w = none) : bits w 14 12 = 2 ∨ bits w 14 12 = 3 := by
  have := bits_lt w 14 12
  unfold decodeBranch at h
  split at h <;> cases h
  simp only [imp_false] at *
  omega

theorem decodeJalr_eq_none (h : decodeJalr w = none) : bits w 14 12 ≠ 0 := by
  unfold decodeJalr at h
  split at h <;> cases h
  assumption

theorem decodeSystem_eq_none (h : decodeSystem w = none) : w ≠ 0x00000073 ∧ w ≠ 0x00100073 := by
  unfold decodeSystem at h
  split_ifs at h with hcall hbreak
  exact ⟨hcall, hbreak⟩

theorem reservedWord_of_decodeFields_eq_none (h : decodeFields w = none) : ReservedWord w := by
  unfold decodeFields at h
  split at h
  next ho => simp [ReservedWord, ho, decodeLoad_eq_none h]
  next ho => simp [ReservedWord, ho, decodeMiscMem_eq_none h]
  next ho => simpa [ReservedWord, ho] using decodeOpImm_eq_none h
  next => cases h
  next ho => simpa [ReservedWord, ho] using decodeOpImm32_eq_none h
  next ho => simp [ReservedWord, ho, decodeStore_eq_none h]
  next => cases h
  next ho => simpa [ReservedWord, ho] using decodeOp_eq_none h
  next => cases h
  next ho => simpa [ReservedWord, ho] using decodeOp32_eq_none h
  next ho => simp [ReservedWord, ho, decodeBranch_eq_none h]
  next ho => simp [ReservedWord, ho, decodeJalr_eq_none h]
  next => cases h
  next ho => simpa [ReservedWord, ho] using decodeSystem_eq_none h
  next => simp_all [ReservedWord]

end

/-! ## The three descriptions of the accepted words agree -/

theorem reservedWord_iff (w : IWord) : ReservedWord w ↔ decodeFields w = none := by
  refine ⟨fun hr => ?_, reservedWord_of_decodeFields_eq_none⟩
  by_contra hd
  obtain ⟨i, hi⟩ := Option.ne_none_iff_exists'.1 hd
  obtain ⟨r, hrow, -, hm⟩ := exists_row_of_hasWord (hasWord_of_decodeFields hi)
  exact not_reservedWord_of_matchesWord hrow hm hr

/-- Settles O5. -/
theorem reservedWordsRejected : Obligations.ReservedWordsRejected := by
  refine fun w => ⟨fun hr => decodeWord_eq_error ((reservedWord_iff w).1 hr), fun hn => ?_⟩
  obtain ⟨i, hi⟩ := Option.ne_none_iff_exists'.1 (mt (reservedWord_iff w).2 hn)
  exact ⟨i, decodeWord_eq_ok_iff.2 hi⟩

/-- A word that matches a row decodes to an instruction of the row's mnemonic: it decodes, since it is not reserved, and its
instruction's row can be no other. -/
theorem decodeWord_of_matchesWord {r : Row} {w : IWord} (hr : r ∈ rows) (h : r.matchesWord w = true) :
    ∃ i, decodeWord w = .ok i ∧ mnemonicOf i = r.mnemonic := by
  obtain ⟨-, haccept⟩ := reservedWordsRejected w
  obtain ⟨i, hi⟩ := haccept (not_reservedWord_of_matchesWord hr h)
  obtain ⟨q, hq, hmn, hm⟩ := exists_row_of_hasWord (decodeWord_eq_ok_iff_hasWord.1 hi)
  exact ⟨i, hi, by rw [row_unique hr hq h hm, hmn]⟩

theorem decodeWord_of_no_row {w : IWord} (h : ∀ r ∈ rows, r.matchesWord w = false) :
    decodeWord w = .error (.unrecognized w) := by
  cases hd : decodeFields w with
  | none => exact decodeWord_eq_error hd
  | some i =>
    obtain ⟨r, hr, -, hm⟩ := exists_row_of_hasWord (hasWord_of_decodeFields hd)
    exact absurd hm (by simp [h r hr])

/-- A `STEP` that fetches a rejected word raises `DecodeError` with the word (R101). -/
theorem execCmdStep_decodeError {s : State} {w : IWord} (p : Bool) (he : s.exited = false) (ha : s.pc.toNat % 4 = 0)
    (hf : fetch s = .ok w) (hd : decodeWord w = .error (.unrecognized w)) :
    execCmdStep p s = .fault (.decodeError w) := by
  rcases execCmdStep_cases p s with ⟨hx, -⟩ | ⟨-, hx, -⟩ | ⟨-, -, v, hv, hcases⟩
  · rw [he] at hx; cases hx
  · exact absurd ha hx
  · obtain rfl : w = v := by rw [hf] at hv; cases hv; rfl
    rcases hcases with ⟨-, e⟩ | ⟨i, hi, -⟩
    · exact e
    · rw [hd] at hi; cases hi

/-- Settles O4. -/
theorem decodeIsTheTable : Obligations.DecodeIsTheTable :=
  ⟨fun _ _ hr _ hq h h' => row_unique hr hq h h', fun _ _ hr h => decodeWord_of_matchesWord hr h,
    fun _ h => decodeWord_of_no_row h,
    fun _ p _ he ha hf h => execCmdStep_decodeError p he ha hf (decodeWord_of_no_row h)⟩

end Sys2Proof.Machine
end

section
/-! SUPPORT. The immediates of decoded instructions (spec/30_encoding.md R93 to R97), the words of the spec's examples, and the
codes of the command port (R107, R412). -/

namespace Sys2Proof.Machine

/-! ## Immediates -/

/-- Reading a field as a signed number is sign-extending it (R15). -/
theorem sextVal_toNat {N : Nat} (hN : 0 < N) (x : BitVec N) : sextVal N x.toNat = x.signExtend 64 := by
  rw [sextVal, signedVal, BitVec.signExtend, BitVec.toInt_eq_toNat_cond]
  have h2 : 2 ^ N = 2 * 2 ^ (N - 1) := by rw [← pow_succ', Nat.sub_add_cancel hN]
  have hc : 2 * x.toNat < 2 ^ N ↔ x.toNat < 2 ^ (N - 1) := by omega
  simp only [hc]
  push_cast
  rfl

/-- The U-type field in bits 31:12 (R96). -/
theorem sextVal_immU (imm : BitVec 20) : sextVal 32 (imm.toNat * 4096) = immU imm := by
  rw [immU, ← sextVal_toNat (by decide), BitVec.toNat_ofNat, Nat.mod_eq_of_lt (by omega)]

/-- In each format, the rule's reading of the fields of the instruction's word is the immediate operand. -/
theorem immediateField_of_hasWord {i : Instr} {w : IWord} (h : i.HasWord w) : immediateField w = immediateOf i := by
  obtain ⟨hw, he⟩ := h
  cases i with
  | lb | lh | lw | ld | lbu | lhu | lwu | addi | slti | sltiu | xori | ori | andi | addiw | jalr =>
    cases he; simp [immediateField, immediateOf, immIS, encI_fields, sextVal_toNat]
  | sb | sh | sw | sd => cases he; simp [immediateField, immediateOf, immIS, encS_fields, sextVal_toNat]
  | beq _ _ o | bne _ _ o | blt _ _ o | bge _ _ o | bltu _ _ o | bgeu _ _ o =>
    have hb : o.toNat / 2 * 2 = o.toNat := half_double_of_evenBranch hw
    cases he; simp [immediateField, immediateOf, immB, encB_fields, hb, sextVal_toNat]
  | lui | auipc => cases he; simp [immediateField, immediateOf, encU_fields, sextVal_immU]
  | jal _ o =>
    have hj : o.toNat / 2 * 2 = o.toNat := half_double_of_evenJump hw
    cases he; simp [immediateField, immediateOf, immJ, encJ_fields, hj, sextVal_toNat]
  | slli | srli | srai => cases he; simp [immediateField, immediateOf, encShift6_fields]
  | slliw | srliw | sraiw | add | sub | sll | slt | sltu | srl | sra | xor | or | and | mul | mulh | mulhsu | mulhu | div
  | divu | rem | remu | addw | subw | sllw | srlw | sraw | mulw | divw | divuw | remw | remuw =>
    cases he; simp [immediateField, immediateOf, encR_fields]
  | fence => cases he; simp [immediateField, immediateOf, encFence_fields]
  | fenceI => cases he; simp [immediateField, immediateOf, encI_fields]
  | aSlot => cases he; simp [immediateField, immediateOf, encASlot_fields]
  | ecall | ebreak => cases he; rfl
  | cmdRead | cmdWrite | cmdRoot | cmdProof | cmdSerialize | cmdDeserialize | cmdEncodeState | cmdDecodeState
  | cmdStateHash | cmdStep => cases he

/-- Settles O6: a decoded word is the word of its instruction. -/
theorem immediateOperands : Obligations.ImmediateOperands := fun _ _ h =>
  (immediateField_of_hasWord (decodeWord_eq_ok_iff_hasWord.1 h)).symm

/-! ## The spec's words -/

/-- Settles O1: the decoder runs on each word. -/
theorem decodesSpecWords : Obligations.DecodesSpecWords := by
  refine ⟨?_, ?_, ?_, ?_, ?_, ?_, ?_, ?_, ?_, ?_, ?_, ?_, ?_, ?_, ?_, ?_, ?_, ?_, ?_, ?_, ?_, ?_⟩ <;> rfl

/-! ## The command port -/

/-- A code of 10 or more names no command (R107). -/
theorem decodeRequest_eq_error {r : PortRequest} (h : 10 ≤ r.code.toNat) :
    decodeRequest r = .error (.badCommand r.code) := by
  unfold decodeRequest
  split
  case h_11 => rfl
  all_goals omega

/-- A step on a request of no command takes it off the port with the fault as its result (R412, R420). -/
theorem step_badCommand {s : State} (h : 10 ≤ s.pendingRequest.code.toNat) : step s =
    .next { s with requests := s.requests.tail, reply := .fault (.badCommand s.pendingRequest.code) } := by
  rcases step_cases s with ⟨i, hi, -⟩ | ⟨-, -, e⟩
  · rw [decodeRequest_eq_error h] at hi; cases hi
  · exact e

/-- Settles O7: each code from 0 to 9 selects its arm of the port's decoder. -/
theorem commandPortCodes : Obligations.CommandPortCodes := by
  refine ⟨fun _ h => decodeRequest_eq_error h, fun _ h => step_badCommand h, ?_, fun _ h => decodeRequest_encode h⟩
  rintro ⟨code, addr, len, bytes, proofMode⟩
  refine ⟨?_, ?_, ?_, ?_, ?_, ?_, ?_, ?_, ?_, ?_⟩ <;> rintro rfl <;> rfl

end Sys2Proof.Machine
end

section
/-! SUPPORT. The arithmetic unit in numbers (spec/40_arith_unit.md R120 to R137): one lemma per primitive, the high half
of a product by the 256-bit unit (R136), and the division identity (R274 to R277). -/

namespace Sys2Proof.Machine

variable {W : Nat}

/-! ## Add, subtract, multiply (R121 to R123) -/

theorem toNat_auAdd (a b : BitVec W) : (auAdd a b).toNat = (a.toNat + b.toNat) % 2 ^ W := BitVec.toNat_add a b

theorem toNat_auSub (a b : BitVec W) :
    (auSub a b).toNat = if b.toNat ≤ a.toNat then a.toNat - b.toNat else a.toNat + 2 ^ W - b.toNat := by
  have ha := a.isLt
  have hb := b.isLt
  split
  · exact BitVec.toNat_sub_of_le ‹_›
  · rw [auSub, BitVec.toNat_sub_of_lt (BitVec.lt_def.2 (Nat.lt_of_not_le ‹_›))]
    omega

theorem toNat_auMul (a b : BitVec W) : (auMul a b).toNat = a.toNat * b.toNat % 2 ^ W := BitVec.toNat_mul a b

/-! ## Divide and remainder (R124 to R127) -/

theorem toNat_eq_zero_iff {b : BitVec W} : b.toNat = 0 ↔ b = 0 := by simp [← BitVec.toNat_inj]

theorem toNat_auDiv (a b : BitVec W) : (auDiv a b).toNat = if b.toNat = 0 then 0 else a.toNat / b.toNat := by
  simp only [auDiv, toNat_eq_zero_iff, apply_ite BitVec.toNat, BitVec.toNat_udiv]
  rfl

theorem toNat_auMod (a b : BitVec W) : (auMod a b).toNat = if b.toNat = 0 then 0 else a.toNat % b.toNat := by
  simp only [auMod, toNat_eq_zero_iff, apply_ite BitVec.toNat, BitVec.toNat_umod]
  rfl

/-- The unit's signed quotient is the library's: 0 for the zero divisor, and the overflow pair wraps (R125). -/
theorem auSdiv_eq_sdiv (a b : BitVec W) : auSdiv a b = a.sdiv b := by
  unfold auSdiv
  split
  case isTrue h => rw [h]; exact BitVec.sdiv_zero.symm
  case isFalse => rw [← BitVec.toInt_inj, BitVec.toInt_ofInt, BitVec.toInt_sdiv]

/-- The unit's signed remainder is the library's but for the zero divisor (R127). -/
theorem auSmod_eq_srem (a : BitVec W) {b : BitVec W} (h : b ≠ 0) : auSmod a b = a.srem b := by
  rw [auSmod, if_neg h, ← BitVec.toInt_srem, BitVec.ofInt_toInt]

theorem auSdiv_minSigned_ones : auSdiv (minSigned W) (ones W) = minSigned W := by
  rw [auSdiv_eq_sdiv, ones, ← BitVec.neg_one_eq_allOnes, minSigned, BitVec.intMin_sdiv_neg_one]

theorem toInt_minSigned (hW : 0 < W) : (minSigned W).toInt = -2 ^ (W - 1) := BitVec.toInt_intMin_of_pos hW

theorem toInt_ones (hW : 0 < W) : (ones W).toInt = -1 := by rw [ones, BitVec.toInt_allOnes, if_pos hW]

theorem toInt_auSdiv (hW : 0 < W) (a b : BitVec W) : (auSdiv a b).toInt =
    if b.toNat = 0 then 0
    else if a.toInt = -2 ^ (W - 1) ∧ b.toInt = -1 then -2 ^ (W - 1) else a.toInt.tdiv b.toInt := by
  simp only [← toInt_minSigned hW, ← toInt_ones hW, BitVec.toInt_inj]
  split_ifs with h0 ho
  · simp [auSdiv, toNat_eq_zero_iff.1 h0]
  · rw [ho.1, ho.2, auSdiv_minSigned_ones]
  · rw [auSdiv_eq_sdiv, BitVec.toInt_sdiv_of_ne_or_ne]
    rwa [BitVec.neg_one_eq_allOnes, ← not_and_or]

/-- The remainder has the absolute value of the remainder of the absolute values, and the sign of the dividend. -/
theorem tmod_eq_ite_natAbs (x y : Int) :
    x.tmod y = if x < 0 then -((x.natAbs % y.natAbs : Nat) : Int) else ((x.natAbs % y.natAbs : Nat) : Int) := by
  rw [← Int.natAbs_tmod]
  split
  · have : 0 ≤ (-x).tmod y := Int.tmod_nonneg y (by omega)
    rw [Int.neg_tmod] at this
    omega
  · have : 0 ≤ x.tmod y := Int.tmod_nonneg y (by omega)
    omega

theorem toInt_auSmod (a b : BitVec W) : (auSmod a b).toInt =
    if b.toNat = 0 then 0
    else if a.toInt < 0 then -((a.toInt.natAbs % b.toInt.natAbs : Nat) : Int)
    else ((a.toInt.natAbs % b.toInt.natAbs : Nat) : Int) := by
  rw [← tmod_eq_ite_natAbs]
  split
  case isTrue h => simp [auSmod, toNat_eq_zero_iff.1 h]
  case isFalse h => rw [auSmod_eq_srem a (mt toNat_eq_zero_iff.2 h), BitVec.toInt_srem]

/-- Settles O57: the lemma of each primitive. -/
theorem arithmeticUnit : Obligations.ArithmeticUnit := fun _ a b hW =>
  ⟨toNat_auAdd a b, toNat_auSub a b, toNat_auMul a b, toNat_auDiv a b, toInt_auSdiv hW a b, toNat_auMod a b,
    toInt_auSmod a b⟩

/-! ## Shifts and sign extension (R128 to R131) -/

theorem toNat_auShl (n v : BitVec W) :
    (auShl n v).toNat = if W ≤ n.toNat then 0 else v.toNat * 2 ^ n.toNat % 2 ^ W := by
  unfold auShl
  split
  · rfl
  · rw [BitVec.toNat_shiftLeft, Nat.shiftLeft_eq]

theorem toNat_auShr (n v : BitVec W) : (auShr n v).toNat = if W ≤ n.toNat then 0 else v.toNat / 2 ^ n.toNat := by
  unfold auShr
  split
  · rfl
  · rw [BitVec.toNat_ushiftRight, Nat.shiftRight_eq_div_pow]

theorem toInt_auSar (hW : 0 < W) (n v : BitVec W) : (auSar n v).toInt =
    if W ≤ n.toNat then (if v.toInt < 0 then -1 else 0) else v.toInt / 2 ^ n.toNat := by
  simp only [auSar, BitVec.msb_eq_toInt, decide_eq_true_eq]
  split_ifs
  · exact toInt_ones hW
  · exact BitVec.toInt_zero
  · rw [BitVec.toInt_sshiftRight, Int.shiftRight_eq_div_pow, Nat.cast_pow, Nat.cast_ofNat]

/-- Sign extension adds the bits above `t` exactly when bit `t` of the value is set. -/
theorem toNat_signExtend_setWidth {t : Nat} (ht : t + 1 ≤ W) (v : BitVec W) :
    ((v.setWidth (t + 1)).signExtend W).toNat =
      if 2 ^ t ≤ v.toNat % 2 ^ (t + 1) then v.toNat % 2 ^ (t + 1) + 2 ^ W - 2 ^ (t + 1) else v.toNat % 2 ^ (t + 1) := by
  have hp : 2 ^ (t + 1) ≤ 2 ^ W := Nat.pow_le_pow_right (by decide) ht
  have hl : v.toNat % 2 ^ (t + 1) < 2 ^ W := (Nat.mod_lt _ (Nat.two_pow_pos _)).trans_le hp
  simp only [BitVec.toNat_signExtend, BitVec.msb_eq_decide, BitVec.toNat_setWidth, Nat.add_sub_cancel,
    Nat.mod_eq_of_lt hl, decide_eq_true_eq]
  split <;> omega

theorem toNat_auSignextend (h8 : W % 8 = 0) (b v : BitVec W) : (auSignextend b v).toNat =
    if W / 8 - 1 ≤ b.toNat then v.toNat
    else if 2 ^ (8 * b.toNat + 7) ≤ v.toNat % 2 ^ (8 * b.toNat + 7 + 1) then
      v.toNat % 2 ^ (8 * b.toNat + 7 + 1) + 2 ^ W - 2 ^ (8 * b.toNat + 7 + 1)
    else v.toNat % 2 ^ (8 * b.toNat + 7 + 1) := by
  rw [auSignextend, apply_ite BitVec.toNat]
  split
  · rfl
  · exact toNat_signExtend_setWidth (by omega) v

/-- Settles O58: the lemma of each primitive. -/
theorem arithmeticUnitShifts : Obligations.ArithmeticUnitShifts := fun _ n v hW h8 =>
  ⟨toNat_auShl n v, toNat_auShr n v, toInt_auSar hW n v, toNat_auSignextend h8 n v⟩

/-! ## The high half of a product (R136) -/

theorem zext256_eq_ofInt (v : Word) : zext256 v = BitVec.ofInt 256 v.toNat := by
  rw [zext256, BitVec.ofInt_natCast, BitVec.ofNat_toNat]

theorem sext256_eq_ofInt (v : Word) : sext256 v = BitVec.ofInt 256 v.toInt := rfl

theorem auMul_ofInt (x y : Int) : auMul (BitVec.ofInt W x) (BitVec.ofInt W y) = BitVec.ofInt W (x * y) :=
  (BitVec.ofInt_mul x y).symm

/-- Bits 127:64 are the same of the product modulo `2^256` and modulo `2^128`. -/
theorem trunc64_auShr_ofInt (p : Int) : trunc64 (auShr 64 (BitVec.ofInt 256 p)) = highHalf p := by
  have h64 : (64 : BitVec 256).toNat = 64 := rfl
  apply BitVec.eq_of_toNat_eq
  simp only [trunc64, highHalf, BitVec.toNat_setWidth, toNat_auShr, h64, BitVec.extractLsb'_toNat, BitVec.toNat_ofInt,
    Nat.shiftRight_eq_div_pow, Nat.reduceLeDiff, if_false]
  omega

/-- An instruction that retires a value obeys its rule (R210, R284). -/
theorem ResultRule.of_retire {i : Instr} {s : State} {rd : Reg} {v w : Word} (he : exec i s = retire s rd w)
    (hv : v = w) : ResultRule i s rd v := by
  rw [ResultRule, he, hv]
  exact retire_writes s rd w

/-! ## The division identity (R274 to R277) -/

theorem quotUnsigned_mul_add_remUnsigned (a b : BitVec W) : quotUnsigned a b * b + remUnsigned a b = a := by
  by_cases hb : b = 0
  · simp [quotUnsigned, remUnsigned, hb]
  · rw [quotUnsigned, remUnsigned, if_neg hb, if_neg hb, auDiv, auMod, if_neg hb, if_neg hb]
    apply BitVec.eq_of_toNat_eq
    rw [BitVec.toNat_add, BitVec.toNat_mul, BitVec.toNat_udiv, BitVec.toNat_umod, Nat.mod_add_mod, Nat.div_add_mod',
      Nat.mod_eq_of_lt a.isLt]

/-- The unit's signed quotient and remainder satisfy the identity modulo `2^W`, the overflow pair included. -/
theorem auSdiv_mul_add_auSmod (a : BitVec W) {b : BitVec W} (hb : b ≠ 0) : auSdiv a b * b + auSmod a b = a := by
  rw [auSdiv, auSmod, if_neg hb, if_neg hb]
  calc BitVec.ofInt W (a.toInt.tdiv b.toInt) * b + BitVec.ofInt W (a.toInt.tmod b.toInt)
      = BitVec.ofInt W (a.toInt.tdiv b.toInt * b.toInt + a.toInt.tmod b.toInt) := by
        rw [BitVec.ofInt_add, BitVec.ofInt_mul, BitVec.ofInt_toInt]
    _ = a := by rw [Int.tdiv_mul_add_tmod, BitVec.ofInt_toInt]

theorem quotSigned_mul_add_remSigned (a b : BitVec W) : quotSigned a b * b + remSigned a b = a := by
  unfold quotSigned remSigned
  split_ifs with hb ho
  · simp [hb]
  · rw [ho.1, ho.2, ones, ← BitVec.neg_one_eq_allOnes, BitVec.mul_neg, BitVec.mul_one, minSigned, BitVec.neg_intMin,
      BitVec.ofNat_eq_ofNat, BitVec.add_zero]
  · exact auSdiv_mul_add_auSmod a hb

/-! ## Comparisons (R134) -/

theorem toNat_truth (hW : 0 < W) {p q : Prop} [Decidable p] [Decidable q] (h : p ↔ q) :
    (truth (W := W) (decide p)).toNat = if q then 1 else 0 := by
  have h1 : (1 : BitVec W).toNat = 1 := Nat.mod_eq_of_lt (Nat.one_lt_two_pow hW.ne')
  simp only [truth, decide_eq_true_eq, h, apply_ite BitVec.toNat, h1]
  rfl

/-- Settles O59: the high halves from the exact products, the division identity at 64 bits, and the value of a truth. -/
theorem arithmeticUnitDerived : Obligations.ArithmeticUnitDerived := by
  refine ⟨fun s rd rs1 rs2 => ⟨.of_retire rfl ?_, .of_retire rfl ?_, .of_retire rfl ?_⟩,
    fun a b => ⟨(quotSigned_mul_add_remSigned a b).symm, (quotUnsigned_mul_add_remUnsigned a b).symm⟩,
    fun W a b hW =>
      ⟨toNat_truth hW .rfl, toNat_truth hW .rfl, toNat_truth hW .rfl, toNat_truth hW .rfl,
        toNat_truth hW BitVec.toNat_inj.symm, toNat_truth hW toNat_eq_zero_iff.symm⟩⟩
  · rw [zext256_eq_ofInt, zext256_eq_ofInt, auMul_ofInt, trunc64_auShr_ofInt]
  · rw [sext256_eq_ofInt, sext256_eq_ofInt, auMul_ofInt, trunc64_auShr_ofInt]
  · rw [sext256_eq_ofInt, zext256_eq_ofInt, auMul_ofInt, trunc64_auShr_ofInt]

end Sys2Proof.Machine
end

section
/-! SUPPORT. The commands of the memory engine (spec/41_engine_commands.md R160 to R166): `READ` and `WRITE` with their
faults, the inspection commands; and slices of byte strings, of strings made of blocks of one length. -/

namespace Sys2Proof.Machine

/-! ## Slices -/

theorem slice_append_of_le_length {a : List Byte} {start n : Nat} (h : start + n ≤ a.length) (b : List Byte) :
    slice (a ++ b) start n = slice a start n := by
  rw [slice, slice, List.drop_append_of_le_length (by omega), List.take_append_of_le_length (by simp; omega)]

theorem length_slice {b : List Byte} {start n : Nat} (h : start + n ≤ b.length) : (slice b start n).length = n := by
  simp [slice]; omega

theorem getElem?_slice (b : List Byte) (start : Nat) {n k : Nat} (hk : k < n) :
    (slice b start n)[k]? = b[start + k]? := by
  rw [slice, List.getElem?_take_of_lt hk, List.getElem?_drop]

theorem slice_drop (b : List Byte) (d start n : Nat) : slice (b.drop d) start n = slice b (d + start) n := by
  rw [slice, slice, List.drop_drop]

/-! ## Strings of blocks of one length -/

section
variable {α : Type} {f : α → List Byte} {len : Nat} (hf : ∀ x, (f x).length = len)
include hf

theorem length_flatMap_blocks (l : List α) : (l.flatMap f).length = l.length * len := by
  simp [List.length_flatMap, hf]

/-- A slice within block `i`. -/
theorem slice_flatMap_blocks {l : List α} {i : Nat} {x : α} (hx : l[i]? = some x) {start n : Nat}
    (h : start + n ≤ len) : slice (l.flatMap f) (i * len + start) n = slice (f x) start n := by
  induction l generalizing i with
  | nil => simp at hx
  | cons y ys ih =>
    rw [List.flatMap_cons]
    cases i with
    | zero =>
      obtain rfl : y = x := by simpa using hx
      rw [Nat.zero_mul, Nat.zero_add, slice_append_of_le_length (by rwa [hf])]
    | succ i =>
      have hnext : (i + 1) * len + start = (f y).length + (i * len + start) := by rw [hf]; ring
      rw [hnext, slice_append_of_length_le (Nat.le_add_right ..), Nat.add_sub_cancel_left]
      exact ih (by simpa using hx)

end

/-! ## `READ` and `WRITE` (R160, R162) -/

theorem execCmdRead_engineArg {a : Word} {n : Nat} (s : State) (h : 32 < n) :
    execCmdRead a n s = .fault (.engineArg n) := if_pos h

theorem execCmdRead_addressRange {a : Word} {n : Nat} (s : State) (h0 : 0 < n) (hn : n ≤ 32)
    (h : 2 ^ 64 < a.toNat + n) : execCmdRead a n s = .fault (.addressRange a n) := by
  rw [execCmdRead, if_neg (by omega), memBytes_outOfRange _ h0 h]; rfl

theorem execCmdRead_ok {a : Word} {n : Nat} (s : State) (hn : n ≤ 32) (h : n = 0 ∨ a.toNat + n ≤ 2 ^ 64) :
    execCmdRead a n s = .next (s.answer (.bytes (s.mem.bytesAt a.toNat n))) := by
  rw [execCmdRead, if_neg (by omega), memBytes_inRange _ h]; rfl

/-- Settles O29: the three outcomes of a read. -/
theorem readCommand : Obligations.ReadCommand := by
  refine fun s a n => ⟨execCmdRead_engineArg s, execCmdRead_addressRange s, fun hn h => ?_⟩
  rw [← Memory.bytesAt_eq_map]
  exact execCmdRead_ok s hn h

theorem execCmdWrite_engineArg {a : Word} {b : List Byte} (s : State) (h : 32 < b.length) :
    execCmdWrite a b s = .fault (.engineArg b.length) := if_pos h

theorem execCmdWrite_addressRange {a : Word} {b : List Byte} (s : State) (h0 : 0 < b.length) (hb : b.length ≤ 32)
    (h : 2 ^ 64 < a.toNat + b.length) : execCmdWrite a b s = .fault (.addressRange a b.length) := by
  rw [execCmdWrite, if_neg (by omega), memSetBytes_outOfRange _ h0 h]; rfl

theorem execCmdWrite_ok {a : Word} {b : List Byte} (s : State) (hb : b.length ≤ 32)
    (h : b = [] ∨ a.toNat + b.length ≤ 2 ^ 64) :
    execCmdWrite a b s = .next ({ s with mem := s.mem.setBytesAt a.toNat b }.answer .ok) := by
  rw [execCmdWrite, if_neg (by omega), memSetBytes_inRange _ h]; rfl

/-- Settles O30: the three outcomes of a write. -/
theorem writeCommand : Obligations.WriteCommand := fun s _ _ =>
  ⟨execCmdWrite_engineArg s, execCmdWrite_addressRange s, fun hb h =>
    ⟨_, execCmdWrite_ok s hb h, writesBytes_setBytesAt s.mem h, rfl⟩⟩

/-! ## The inspection commands (R164, R166, R350, R353) -/

/-- The output of `PROOF` is the siblings alone (log entry 11). -/
theorem proofBytes_eq_flatMap (H : HashFn) (m : Memory) (a : Word) :
    proofBytes H m a = (proofOf H m a).flatMap Vector.toList := rfl

theorem length_proofBytes (H : HashFn) (m : Memory) (a : Word) : (proofBytes H m a).length = 1888 := by
  obtain ⟨hlen, -, -⟩ := proofSoundness H m a
  rw [proofBytes_eq_flatMap, length_flatMap_blocks fun x : Bytes32 => x.length_toList, hlen]

/-- Sibling `j` stands at bytes `32 j` to `32 j + 31` of the output of `PROOF` (R166). -/
theorem slice_proofBytes (H : HashFn) (m : Memory) (a : Word) {j : Nat} (hj : j < 59) :
    slice (proofBytes H m a) (32 * j) 32 = (node H m (((2 ^ 59 + a.toNat / 32) / 2 ^ j) ^^^ 1)).toList := by
  obtain ⟨-, hsib, -⟩ := proofSoundness H m a
  have h := slice_flatMap_blocks (fun x : Bytes32 => x.length_toList) (hsib j hj) (start := 0) (n := 32) le_rfl
  rw [proofBytes_eq_flatMap, Nat.mul_comm]
  exact h.trans (List.take_of_length_le (by simp))

theorem length_encodeState (H : HashFn) (s : State) : (encodeState H s).length = 362 := by
  have hregs := length_flatMap_blocks (fun i => length_be64 (s.readReg (BitVec.ofNat 5 i))) (List.range 32)
  simp [encodeState, hregs]

/-- Settles O31: each command by definition, the length and the siblings of a proof by the two lemmas above. -/
theorem inspectionCommands : Obligations.InspectionCommands := fun s =>
  ⟨rfl, fun a => ⟨_, rfl, length_proofBytes _ _ a, fun _ hj => slice_proofBytes _ _ a hj⟩, rfl, rfl,
    length_encodeState _ s⟩

end Sys2Proof.Machine
end

section
/-! SUPPORT. The memory image (spec/41_engine_commands.md R168 to R171): the string `SERIALIZE` makes, the strings
`DESERIALIZE` accepts and the memory it installs, and that the memory read back from an image is the one that was
written. -/

namespace Sys2Proof.Machine

/-! ## Big-endian numbers in a string -/

/-- The value of a big-endian string, read from its first byte on (R14). -/
theorem beNat_eq_foldl (b : List Byte) : beNat b = b.foldl (fun v x => v * 256 + x.toNat) 0 := by
  induction b using List.reverseRecOn with
  | nil => rfl
  | append_singleton b x ih =>
    rw [beNat_append_singleton, List.foldl_append, ← ih, List.foldl_cons, List.foldl_nil]; ring

theorem bigEndianAt_eq_beNat (b : List Byte) (start n : Nat) : bigEndianAt b start n = beNat (slice b start n) :=
  (beNat_eq_foldl _).symm

theorem bigEndianAt_of_slice_eq_be64 {b : List Byte} {start : Nat} {v : Word} (h : slice b start 8 = be64 v) :
    bigEndianAt b start 8 = v.toNat := by rw [bigEndianAt_eq_beNat, h, beNat_be64]

/-! ## The allocated pages, ascending (R53) -/

theorem foldl_insertRising_pairwise {f : Nat → Nat} {ls ps : List Nat} (h : ps.Pairwise fun l k => l < k) :
    (ls.foldl (fun ps l => insertRising (f l) ps) ps).Pairwise fun l k => l < k := by
  induction ls generalizing ps with
  | nil => exact h
  | cons l ls ih => exact ih (insertRising_pairwise h)

theorem Memory.pages_pairwise (P : Nat) (m : Memory) : (m.pages P).Pairwise fun p q => p < q :=
  foldl_insertRising_pairwise .nil

@[simp] theorem Memory.pages_empty (P : Nat) : Memory.empty.pages P = [] := rfl

/-- Memories with the same allocated pages list them alike. -/
theorem Memory.pages_congr {P : Nat} {m m' : Memory} (h : ∀ p, p ∈ m'.pages P ↔ p ∈ m.pages P) :
    m'.pages P = m.pages P :=
  (pages_pairwise P m').eq_of_mem_iff (pages_pairwise P m) h

theorem Memory.mem_pages_iff_leaf {P p : Nat} (hP : 5 ≤ P) {m : Memory} :
    p ∈ m.pages P ↔ ∃ l ∈ m.touched, p = l * 32 / 2 ^ P := by
  simp only [mem_pages, ← leaf_div_page hP, Nat.mul_div_cancel _ (by decide : 0 < 32)]

/-- The touched leaves are those of addresses below `2^64`, so their pages are pages of the address space. -/
theorem Memory.page_lt {P p : Nat} (h5 : 5 ≤ P) (hP : P ≤ 64) {m : Memory} (hm : m.wf) (hp : p ∈ m.pages P) :
    p < 2 ^ (64 - P) := by
  obtain ⟨-, -, -, hbound⟩ := hm
  obtain ⟨l, hl, rfl⟩ := (mem_pages_iff_leaf h5).1 hp
  have hsize : 2 ^ (64 - P) * 2 ^ P = 2 ^ 64 := by rw [← pow_add, Nat.sub_add_cancel hP]
  have := hbound l hl
  rw [Nat.div_lt_iff_lt_mul (Nat.two_pow_pos P), hsize]
  omega

theorem Memory.page_lt_word {P p : Nat} (h5 : 5 ≤ P) (hP : P ≤ 64) {m : Memory} (hm : m.wf) (hp : p ∈ m.pages P) :
    p < 2 ^ 64 := (page_lt h5 hP hm hp).trans_le (Nat.pow_le_pow_right (by decide) (Nat.sub_le ..))

/-- The pages rise and lie below `2^(64-P)`, so a word holds their number. -/
theorem Memory.length_pages_lt {P : Nat} (h5 : 5 ≤ P) (hP : P ≤ 64) {m : Memory} (hm : m.wf) :
    (m.pages P).length < 2 ^ 64 := by
  have hsub : m.pages P ⊆ List.range (2 ^ (64 - P)) := fun p hp => List.mem_range.2 (page_lt h5 hP hm hp)
  have hle := (List.subperm_of_subset (pages_pairwise P m).nodup hsub).length_le
  rw [List.length_range] at hle
  exact hle.trans_lt (Nat.pow_lt_pow_right (by decide) (by omega))

/-- A byte that is not 0 lies in an allocated page. -/
theorem Memory.page_mem_of_byte_ne_zero {P a : Nat} (h5 : 5 ≤ P) {m : Memory} (hm : m.wf) (h : m.byte a ≠ 0) :
    a / 2 ^ P ∈ m.pages P := by
  obtain ⟨-, hcells, -⟩ := hm
  by_contra hp
  refine h (cellsGet_eq_zero fun c hc hca => hp ?_)
  obtain ⟨-, -, htouched⟩ := hcells c hc
  exact mem_pages.2 ⟨c.1 / 32, htouched, by rw [leaf_div_page h5, hca]⟩

/-! ## The image (R168) -/

/-- The record of one page in the image: its index and its bytes. -/
def pageRecord (P : Nat) (m : Memory) (p : Nat) : List Byte :=
  be64 (BitVec.ofNat 64 p) ++ m.bytesAt (p * 2 ^ P) (2 ^ P)

theorem length_pageRecord (P : Nat) (m : Memory) (p : Nat) : (pageRecord P m p).length = 8 + 2 ^ P := by
  simp [pageRecord]

theorem serialize_eq (P : Nat) (m : Memory) :
    serialize P m = be64 (BitVec.ofNat 64 (m.pages P).length) ++ (m.pages P).flatMap (pageRecord P m) := rfl

theorem length_serialize (P : Nat) (m : Memory) :
    (serialize P m).length = 8 + (m.pages P).length * (8 + 2 ^ P) := by
  rw [serialize_eq, List.length_append, length_be64, length_flatMap_blocks (length_pageRecord P m)]

/-- A slice of the image within the record of page number `i`. -/
theorem slice_serialize {P i p start n : Nat} {m : Memory} (hp : (m.pages P)[i]? = some p) (h : start + n ≤ 8 + 2 ^ P) :
    slice (serialize P m) (8 + i * (8 + 2 ^ P) + start) n = slice (pageRecord P m p) start n := by
  rw [serialize_eq, slice_append_of_length_le (by simp; omega), length_be64, Nat.add_assoc, Nat.add_sub_cancel_left,
    slice_flatMap_blocks (length_pageRecord P m) hp h]

theorem serialize_count {P : Nat} (h5 : 5 ≤ P) (hP : P ≤ 64) {m : Memory} (hm : m.wf) :
    bigEndianAt (serialize P m) 0 8 = (m.pages P).length := by
  rw [serialize_eq, bigEndianAt_of_slice_eq_be64 (slice_zero_append (length_be64 _) _), BitVec.toNat_ofNat,
    Nat.mod_eq_of_lt (Memory.length_pages_lt h5 hP hm)]

theorem serialize_index {P i p : Nat} (h5 : 5 ≤ P) (hP : P ≤ 64) {m : Memory} (hm : m.wf)
    (hp : (m.pages P)[i]? = some p) : bigEndianAt (serialize P m) (8 + i * (8 + 2 ^ P)) 8 = p := by
  have hs := slice_serialize hp (start := 0) (n := 8) (Nat.le_add_right 8 _)
  rw [Nat.add_zero, pageRecord, slice_zero_append (length_be64 _)] at hs
  rw [bigEndianAt_of_slice_eq_be64 hs, BitVec.toNat_ofNat,
    Nat.mod_eq_of_lt (Memory.page_lt_word h5 hP hm (List.mem_of_getElem? hp))]

/-- The bytes of page number `i` stand in the image after its index. -/
theorem slice_serialize_bytes {P i p : Nat} {m : Memory} (hp : (m.pages P)[i]? = some p) :
    slice (serialize P m) (8 + i * (8 + 2 ^ P) + 8) (2 ^ P) = m.bytesAt (p * 2 ^ P) (2 ^ P) := by
  rw [slice_serialize hp le_rfl, pageRecord, slice_append_of_length_le (length_be64 _).le, length_be64, Nat.sub_self]
  exact List.take_of_length_le (by simp)

theorem serialize_byte {P i p k : Nat} {m : Memory} (hp : (m.pages P)[i]? = some p) (hk : k < 2 ^ P) :
    (serialize P m)[8 + i * (8 + 2 ^ P) + 8 + k]? = some (m.byte (p * 2 ^ P + k)) := by
  rw [← getElem?_slice _ _ hk, slice_serialize_bytes hp, List.getElem?_eq_getElem (by simpa using hk),
    Memory.getElem_bytesAt]

/-- Settles O32: the pages are the allocated ones in ascending order, and each part of the image has its lemma. -/
theorem serializeFormat : Obligations.SerializeFormat :=
  ⟨fun _ => rfl, fun P m h5 hP hm =>
    ⟨m.pages P, m.pages_pairwise P, fun _ => Memory.mem_pages_iff_leaf h5, serialize_count h5 hP hm,
      length_serialize P m, fun _ _ hp => ⟨serialize_index h5 hP hm hp, fun _ hk => serialize_byte hp hk⟩⟩⟩

/-! ## The records of a string (R170) -/

/-- Record `i` of a string of records: the index and the bytes of a page. -/
def recordAt (P : Nat) (b : List Byte) (i : Nat) : Nat × List Byte :=
  (bigEndianAt b (i * (8 + 2 ^ P)) 8, slice b (i * (8 + 2 ^ P) + 8) (2 ^ P))

def recordsOf (P n : Nat) (b : List Byte) : List (Nat × List Byte) := (List.range n).map (recordAt P b)

theorem recordAt_drop (P : Nat) (b : List Byte) (i : Nat) :
    recordAt P (b.drop (8 + 2 ^ P)) i = recordAt P b (i + 1) := by
  have hnext : 8 + 2 ^ P + i * (8 + 2 ^ P) = (i + 1) * (8 + 2 ^ P) := by ring
  simp only [recordAt, bigEndianAt_eq_beNat, slice_drop, ← Nat.add_assoc, hnext]

theorem recordsOf_succ (P n : Nat) (b : List Byte) :
    recordsOf P (n + 1) b = recordAt P b 0 :: recordsOf P n (b.drop (8 + 2 ^ P)) := by
  rw [recordsOf, List.range_succ_eq_map, List.map_cons, List.map_map]
  exact congrArg _ (List.map_congr_left fun i _ => (recordAt_drop P b i).symm)

/-- Each index is in range and above the one before it; `prev` is the one before the first. -/
def RecordsRise (P : Nat) (prev : Option Nat) (ps : List (Nat × List Byte)) : Prop :=
  (∀ p ∈ ps, p.1 < 2 ^ (64 - P)) ∧ (prev.toList ++ ps.map Prod.fst).IsChain (· < ·)

theorem recordsRise_cons {P : Nat} {prev : Option Nat} {p : Nat × List Byte} {ps : List (Nat × List Byte)} :
    RecordsRise P prev (p :: ps) ↔ p.1 < 2 ^ (64 - P) ∧ notAbove p.1 prev = false ∧ RecordsRise P (some p.1) ps := by
  cases prev <;> simp [RecordsRise, notAbove] <;> tauto

/-- Every index is above the one before the first. -/
theorem RecordsRise.lt_of_mem {P q : Nat} {ps : List (Nat × List Byte)} (h : RecordsRise P (some q) ps)
    {p : Nat × List Byte} (hp : p ∈ ps) : q < p.1 := by
  obtain ⟨-, hchain⟩ := h
  exact List.rel_of_pairwise_cons (List.isChain_iff_pairwise.1 hchain) (List.mem_map_of_mem hp)

theorem readPages_succ (P n : Nat) (prev : Option Nat) (b : List Byte) :
    readPages P (n + 1) prev b =
      if 2 ^ (64 - P) ≤ (recordAt P b 0).1 then .error .pageOutOfRange
      else if notAbove (recordAt P b 0).1 prev then .error .notAscending
      else (readPages P n (some (recordAt P b 0).1) (b.drop (8 + 2 ^ P))).map (recordAt P b 0 :: ·) := by
  have hp : beNat (b.take 8) = (recordAt P b 0).1 := by simp [recordAt, bigEndianAt_eq_beNat, slice]
  have hd : (b.drop 8).take (2 ^ P) = (recordAt P b 0).2 := by simp [recordAt, slice]
  rw [readPages, hp, hd]
  cases readPages P n (some (recordAt P b 0).1) (b.drop (8 + 2 ^ P)) <;> rfl

/-- Everything reading the records can do (R170). -/
theorem readPages_cases (P n : Nat) (prev : Option Nat) (b : List Byte) :
    (RecordsRise P prev (recordsOf P n b) ∧ readPages P n prev b = .ok (recordsOf P n b)) ∨
      (¬RecordsRise P prev (recordsOf P n b) ∧ ∃ c, readPages P n prev b = .error c) := by
  induction n generalizing prev b with
  | zero => exact .inl ⟨by cases prev <;> simp [RecordsRise, recordsOf], rfl⟩
  | succ n ih =>
    rw [recordsOf_succ, recordsRise_cons, readPages_succ]
    split_ifs with hrange habove
    · exact .inr ⟨fun h => by omega, _, rfl⟩
    · exact .inr ⟨fun ⟨_, h, _⟩ => by simp [h] at habove, _, rfl⟩
    · rcases ih (some (recordAt P b 0).1) (b.drop (8 + 2 ^ P)) with ⟨hr, e⟩ | ⟨hr, c, e⟩ <;> rw [e]
      · exact .inl ⟨⟨by omega, by simpa using habove, hr⟩, rfl⟩
      · exact .inr ⟨fun ⟨_, _, h⟩ => hr h, c, rfl⟩

/-- The order of the records, as the statement of R170 writes it. -/
theorem recordsRise_recordsOf_iff {P n : Nat} {b : List Byte} : RecordsRise P none (recordsOf P n b) ↔
    (∀ i < n, (recordAt P b i).1 < 2 ^ (64 - P)) ∧
      ∀ i, i + 1 < n → (recordAt P b i).1 < (recordAt P b (i + 1)).1 := by
  simp [RecordsRise, recordsOf, List.isChain_map, List.isChain_range, Nat.lt_sub_iff_add_lt]

/-! ## The memory that records describe -/

/-- Write each record's bytes to its page. -/
def placeRecords (P : Nat) (m : Memory) (ps : List (Nat × List Byte)) : Memory :=
  ps.foldl (fun m p => m.setBytesAt (p.1 * 2 ^ P) p.2) m

theorem placeRecords_cons (P : Nat) (m : Memory) (p : Nat × List Byte) (ps : List (Nat × List Byte)) :
    placeRecords P m (p :: ps) = placeRecords P (m.setBytesAt (p.1 * 2 ^ P) p.2) ps := rfl

/-- An address lies in page `p` when it is one of its `2^P` bytes. -/
theorem div_page_eq_iff {P p a : Nat} : a / 2 ^ P = p ↔ ∃ k < 2 ^ P, a = p * 2 ^ P + k := by
  constructor
  · rintro rfl
    exact ⟨a % 2 ^ P, Nat.mod_lt _ (Nat.two_pow_pos P), (Nat.div_add_mod' ..).symm⟩
  · rintro ⟨k, hk, rfl⟩
    rw [Nat.mul_comm, Nat.mul_add_div (Nat.two_pow_pos P), Nat.div_eq_of_lt hk, Nat.add_zero]

/-- A page in range ends at or below the last address. -/
theorem page_end_le {P p : Nat} (hP : P ≤ 64) (hp : p < 2 ^ (64 - P)) : p * 2 ^ P + 2 ^ P ≤ 2 ^ 64 :=
  calc p * 2 ^ P + 2 ^ P = (p + 1) * 2 ^ P := by ring
    _ ≤ 2 ^ (64 - P) * 2 ^ P := Nat.mul_le_mul_right _ hp
    _ = 2 ^ 64 := by rw [← pow_add, Nat.sub_add_cancel hP]

theorem Memory.byte_setPage_outside {P p a : Nat} {b : List Byte} (hb : b.length = 2 ^ P) (h : a / 2 ^ P ≠ p)
    (m : Memory) : (m.setBytesAt (p * 2 ^ P) b).byte a = m.byte a := by
  refine byte_setBytesAt_outside ?_ m
  by_contra hin
  exact h (div_page_eq_iff.2 ⟨a - p * 2 ^ P, by omega, by omega⟩)

section
variable {P : Nat} {m : Memory} {ps : List (Nat × List Byte)}

theorem byte_placeRecords_outside {a : Nat} (hl : ∀ p ∈ ps, p.2.length = 2 ^ P) (h : ∀ p ∈ ps, a / 2 ^ P ≠ p.1) :
    (placeRecords P m ps).byte a = m.byte a := by
  induction ps generalizing m with
  | nil => rfl
  | cons p ps ih =>
    rw [List.forall_mem_cons] at hl h
    rw [placeRecords_cons, ih hl.2 h.2, Memory.byte_setPage_outside hl.1 h.1]

/-- A record's bytes read back from its page: no later record writes there. -/
theorem byte_placeRecords {prev : Option Nat} {p : Nat × List Byte} {k : Nat} (hP : P ≤ 64) (hm : m.wf)
    (hl : ∀ p ∈ ps, p.2.length = 2 ^ P) (hr : RecordsRise P prev ps) (hp : p ∈ ps) (hk : k < 2 ^ P) :
    (placeRecords P m ps).byte (p.1 * 2 ^ P + k) = p.2.getD k 0 := by
  induction ps generalizing m prev with
  | nil => cases hp
  | cons q ps ih =>
    rw [List.forall_mem_cons] at hl
    obtain ⟨hrange, -, hrise⟩ := recordsRise_cons.1 hr
    have hend : q.1 * 2 ^ P + q.2.length ≤ 2 ^ 64 := hl.1 ▸ page_end_le hP hrange
    rw [placeRecords_cons]
    rcases List.mem_cons.1 hp with rfl | hp
    · have hkl : k < p.2.length := hl.1 ▸ hk
      have hpage : (p.1 * 2 ^ P + k) / 2 ^ P = p.1 := div_page_eq_iff.2 ⟨k, hk, rfl⟩
      rw [byte_placeRecords_outside hl.2 fun q hq => hpage.trans_ne (hrise.lt_of_mem hq).ne,
        Memory.byte_setBytesAt hm hend hkl, List.getD_eq_getElem _ _ hkl]
    · exact ih (Memory.setBytesAt_wf hm (.inr hend)) hl.2 hrise hp

/-- A page written whole is the one page the write allocates. -/
theorem Memory.mem_pages_setPage {p q : Nat} {b : List Byte} (h5 : 5 ≤ P) (hb : b.length = 2 ^ P) :
    q ∈ (m.setBytesAt (p * 2 ^ P) b).pages P ↔ q ∈ m.pages P ∨ q = p := by
  have hpage : (∃ k < b.length, q = (p * 2 ^ P + k) / 2 ^ P) ↔ q = p := by
    rw [hb]
    constructor
    · rintro ⟨k, hk, rfl⟩
      exact div_page_eq_iff.2 ⟨k, hk, rfl⟩
    · rintro rfl
      exact ⟨0, Nat.two_pow_pos P, (div_page_eq_iff.2 ⟨0, Nat.two_pow_pos P, rfl⟩).symm⟩
  rw [mem_pages_setBytesAt h5, hpage]

theorem mem_pages_placeRecords {q : Nat} (h5 : 5 ≤ P) (hl : ∀ p ∈ ps, p.2.length = 2 ^ P) :
    q ∈ (placeRecords P m ps).pages P ↔ q ∈ m.pages P ∨ ∃ p ∈ ps, q = p.1 := by
  induction ps generalizing m with
  | nil => simp [placeRecords]
  | cons p ps ih =>
    rw [List.forall_mem_cons] at hl
    rw [placeRecords_cons, ih hl.2, Memory.mem_pages_setPage h5 hl.1, List.exists_mem_cons_iff, or_assoc]

end

/-! ## `DESERIALIZE` (R170) -/

/-- After the 8 bytes of the number of pages, the records (R168). -/
theorem recordAt_drop_count (P : Nat) (b : List Byte) (i : Nat) : recordAt P (b.drop 8) i =
    (bigEndianAt b (8 + i * (8 + 2 ^ P)) 8, slice b (8 + i * (8 + 2 ^ P) + 8) (2 ^ P)) := by
  simp only [recordAt, bigEndianAt_eq_beNat, slice_drop, Nat.add_assoc]

theorem mem_recordsOf {P n : Nat} {b : List Byte} {p : Nat × List Byte} :
    p ∈ recordsOf P n b ↔ ∃ i < n, recordAt P b i = p := by simp [recordsOf]

/-- In a string of the right length every record is whole. -/
theorem length_of_mem_recordsOf {P n : Nat} {b : List Byte} (h : b.length = n * (8 + 2 ^ P)) :
    ∀ p ∈ recordsOf P n b, p.2.length = 2 ^ P := by
  intro p hp
  obtain ⟨i, hi, rfl⟩ := mem_recordsOf.1 hp
  have hend : (i + 1) * (8 + 2 ^ P) ≤ n * (8 + 2 ^ P) := Nat.mul_le_mul_right _ hi
  exact length_slice (by rw [h, Nat.add_assoc, ← Nat.succ_mul]; exact hend)

section
variable {P : Nat} {b : List Byte}

theorem deserialize_tooShort (h : b.length < 8) : deserialize P b = .error (.serializationError .tooShort) := if_pos h

theorem deserialize_wrongLength (h8 : 8 ≤ b.length) (h : b.length ≠ 8 + bigEndianAt b 0 8 * (8 + 2 ^ P)) :
    deserialize P b = .error (.serializationError .wrongLength) := by
  rw [bigEndianAt_eq_beNat] at h
  rw [deserialize, if_neg (Nat.not_lt.2 h8)]
  exact if_pos h

/-- Everything `DESERIALIZE` can do with a string of the right length: its records decide (R170). -/
theorem deserialize_cases_of_length (h8 : 8 ≤ b.length) (h : b.length = 8 + bigEndianAt b 0 8 * (8 + 2 ^ P)) :
    let ps := recordsOf P (bigEndianAt b 0 8) (b.drop 8)
    (RecordsRise P none ps ∧ deserialize P b = .ok (placeRecords P Memory.empty ps)) ∨
      (¬RecordsRise P none ps ∧ ∃ c, deserialize P b = .error (.serializationError c)) := by
  have hn : bigEndianAt b 0 8 = beNat (b.take 8) := bigEndianAt_eq_beNat b 0 8
  rw [hn] at h ⊢
  rw [deserialize, if_neg (Nat.not_lt.2 h8), if_neg (not_not.2 h)]
  rcases readPages_cases P (beNat (b.take 8)) none (b.drop 8) with ⟨hr, e⟩ | ⟨hr, c, e⟩ <;> rw [e]
  · exact .inl ⟨hr, rfl⟩
  · exact .inr ⟨hr, c, rfl⟩

end

/-- The memory that the records of a good string describe: the bytes in each page, 0 elsewhere, the pages (R170). -/
theorem placeRecords_recordsOf {P n : Nat} {b : List Byte} (h5 : 5 ≤ P) (hP : P ≤ 64)
    (hlen : b.length = 8 + n * (8 + 2 ^ P)) (hr : RecordsRise P none (recordsOf P n (b.drop 8))) :
    let index := fun i => bigEndianAt b (8 + i * (8 + 2 ^ P)) 8
    let m := placeRecords P Memory.empty (recordsOf P n (b.drop 8))
    (∀ i k, i < n → k < 2 ^ P → m.byte (index i * 2 ^ P + k) = b.getD (8 + i * (8 + 2 ^ P) + 8 + k) 0) ∧
      (∀ a, (∀ i, i < n → a / 2 ^ P ≠ index i) → m.byte a = 0) ∧
      ∀ p, p ∈ m.pages P ↔ ∃ i, i < n ∧ p = index i := by
  have hl := length_of_mem_recordsOf (P := P) (n := n) (b := b.drop 8) (by simp [hlen])
  refine ⟨fun i k hi hk => ?_, fun a ha => ?_, fun p => ?_⟩
  · have hbyte := byte_placeRecords hP Memory.empty_wf hl hr (mem_recordsOf.2 ⟨i, hi, rfl⟩) hk
    rw [recordAt_drop_count] at hbyte
    rw [hbyte, List.getD_eq_getElem?_getD, getElem?_slice _ _ hk, List.getD_eq_getElem?_getD]
  · refine byte_placeRecords_outside hl fun p hp => ?_
    obtain ⟨i, hi, rfl⟩ := mem_recordsOf.1 hp
    rw [recordAt_drop_count]
    exact ha i hi
  · simp [mem_pages_placeRecords h5 hl, mem_recordsOf, recordAt_drop_count]

theorem execCmdDeserialize_error {b : List Byte} {f : Fault} (s : State)
    (h : deserialize Config.pageBits b = .error f) : execCmdDeserialize b s = .fault f := by
  rw [execCmdDeserialize, h]; rfl

theorem execCmdDeserialize_ok {b : List Byte} {m : Memory} (s : State) (h : deserialize Config.pageBits b = .ok m) :
    execCmdDeserialize b s = .next { s with mem := m, reply := .ok } := by rw [execCmdDeserialize, h]; rfl

/-- Settles O33: the checks on the length, then the records, which rise or do not. -/
theorem deserializeFormat : Obligations.DeserializeFormat := by
  refine ⟨fun s b => ⟨fun f => execCmdDeserialize_error s, fun m => execCmdDeserialize_ok s⟩, fun P b h5 hP => ?_⟩
  intro n index good
  have hgood : RecordsRise P none (recordsOf P n (b.drop 8)) ↔ good := by
    simp only [recordsRise_recordsOf_iff, recordAt_drop_count, good, index]
  refine ⟨deserialize_tooShort, deserialize_wrongLength, fun h8 hlen hbad => ?_, fun h8 hlen hg => ?_⟩
  · obtain ⟨-, hc⟩ := (deserialize_cases_of_length h8 hlen).resolve_left fun h => hbad (hgood.1 h.1)
    exact hc
  · obtain ⟨hr, hok⟩ := (deserialize_cases_of_length h8 hlen).resolve_right fun h => h.1 (hgood.2 hg)
    exact ⟨_, hok, deserialize_wf hP hok, placeRecords_recordsOf h5 hP hlen hr⟩

/-! ## Reading an image back (R171) -/

/-- The image depends on the bytes and the allocated pages alone. -/
theorem serialize_congr {P : Nat} {m m' : Memory} (hb : ∀ a, m'.byte a = m.byte a) (hp : m'.pages P = m.pages P) :
    serialize P m' = serialize P m := by
  simp only [serialize, hp, Memory.bytesAt_congr fun _ _ => hb _]

/-- The allocated pages with their bytes. -/
def Memory.pageContents (P : Nat) (m : Memory) : List (Nat × List Byte) :=
  (m.pages P).map fun p => (p, m.bytesAt (p * 2 ^ P) (2 ^ P))

/-- The records of an image are the pages it was made of. -/
theorem recordsOf_serialize {P : Nat} (h5 : 5 ≤ P) (hP : P ≤ 64) {m : Memory} (hm : m.wf) :
    recordsOf P (bigEndianAt (serialize P m) 0 8) ((serialize P m).drop 8) = m.pageContents P := by
  rw [serialize_count h5 hP hm]
  refine List.ext_getElem (by simp [recordsOf, Memory.pageContents]) fun i hi _ => ?_
  have hp : (m.pages P)[i]? = some ((m.pages P)[i]'(by simpa [recordsOf] using hi)) := List.getElem?_eq_getElem _
  simp only [recordsOf, Memory.pageContents, List.getElem_map, List.getElem_range, recordAt_drop_count,
    serialize_index h5 hP hm hp, slice_serialize_bytes hp]

theorem Memory.length_of_mem_pageContents (P : Nat) (m : Memory) : ∀ p ∈ m.pageContents P, p.2.length = 2 ^ P :=
  List.forall_mem_map.2 fun _ _ => length_bytesAt ..

theorem pages_placeRecords_pageContents {P : Nat} (h5 : 5 ≤ P) (m : Memory) :
    (placeRecords P Memory.empty (m.pageContents P)).pages P = m.pages P := by
  refine Memory.pages_congr fun p => ?_
  rw [mem_pages_placeRecords h5 (m.length_of_mem_pageContents P)]
  simp [Memory.pageContents]

section
variable {P : Nat} {m : Memory} (h5 : 5 ≤ P) (hP : P ≤ 64) (hm : m.wf)
include h5 hP hm

theorem Memory.pageContents_rise : RecordsRise P none (m.pageContents P) := by
  refine ⟨List.forall_mem_map.2 fun p hp => page_lt h5 hP hm hp, ?_⟩
  simpa [pageContents, Function.comp_def] using (pages_pairwise P m).isChain

theorem deserialize_serialize :
    deserialize P (serialize P m) = .ok (placeRecords P Memory.empty (m.pageContents P)) := by
  have hlen : (serialize P m).length = 8 + bigEndianAt (serialize P m) 0 8 * (8 + 2 ^ P) := by
    rw [length_serialize, serialize_count h5 hP hm]
  have h := deserialize_cases_of_length (by rw [hlen]; exact Nat.le_add_right ..) hlen
  rw [recordsOf_serialize h5 hP hm] at h
  exact (h.resolve_right fun hn => hn.1 (Memory.pageContents_rise h5 hP hm)).2

/-- Its pages placed in an empty memory give a memory's bytes: those outside its pages are 0 (R51). -/
theorem byte_placeRecords_pageContents (a : Nat) :
    (placeRecords P Memory.empty (m.pageContents P)).byte a = m.byte a := by
  have hl := m.length_of_mem_pageContents P
  by_cases hp : a / 2 ^ P ∈ m.pages P
  · obtain ⟨k, hk, ha⟩ := div_page_eq_iff.1 (rfl : a / 2 ^ P = a / 2 ^ P)
    have hr := Memory.pageContents_rise h5 hP hm
    have hbyte := byte_placeRecords hP Memory.empty_wf hl hr (List.mem_map_of_mem hp) hk
    rw [← ha, List.getD_eq_getElem _ _ (by simpa using hk), Memory.getElem_bytesAt, ← ha] at hbyte
    exact hbyte
  · rw [byte_placeRecords_outside hl (List.forall_mem_map.2 fun q hq hqa => hp (hqa ▸ hq)), Memory.byte_empty]
    by_contra hne
    exact hp (Memory.page_mem_of_byte_ne_zero h5 hm (Ne.symm hne))

end

/-- Settles O34: the image reads back as its pages placed in an empty memory, which has the bytes and the pages of the
memory; the root and the image are functions of those. -/
theorem serializeRoundTrip : Obligations.SerializeRoundTrip := by
  intro H P m h5 hP hm
  have hbytes := byte_placeRecords_pageContents h5 hP hm
  have hpages := pages_placeRecords_pageContents h5 m
  exact ⟨_, deserialize_serialize h5 hP hm, hbytes, root_congr H fun a _ => hbytes a, hpages,
    serialize_congr hbytes hpages⟩

end Sys2Proof.Machine
end

section
/-! SUPPORT. The loads and the stores (spec/42_loads_stores.md R180 to R192): an instruction is encoded as its row of
the opcode table says, and what a load or a store does in range and out of range. -/

namespace Sys2Proof.Machine

/-! ## Encodings by the row of the table (R100, R101) -/

theorem rows_pairwise_mnemonic_ne : rows.Pairwise fun r q => r.mnemonic ≠ q.mnemonic := by decide

theorem row_eq_of_mnemonic_eq {r q : Row} (hr : r ∈ rows) (hq : q ∈ rows) (h : r.mnemonic = q.mnemonic) :
    r = q := by
  by_contra hne
  have hsymm : Std.Symm fun r q : Row => r.mnemonic ≠ q.mnemonic := ⟨fun _ _ => Ne.symm⟩
  exact rows_pairwise_mnemonic_ne.forall hr hq hne h

/-- A well-formed instruction is encoded with the pattern of the row of its mnemonic, and the word decodes to it. -/
theorem EncodedAs.of_row {i : Instr} {pattern mask : IWord} (name : String) (hr : ⟨name, pattern, mask⟩ ∈ rows)
    (hn : mnemonicOf i = name) (hc : i.isCommand = false) (hw : i.wellFormed = true) : EncodedAs i pattern mask := by
  obtain ⟨w, he⟩ := exists_encode_eq_word hc
  have hword : i.HasWord w := ⟨hw, he⟩
  obtain ⟨q, hq, hmn, hm⟩ := exists_row_of_hasWord hword
  obtain rfl := row_eq_of_mnemonic_eq hq hr (hmn.trans hn)
  exact ⟨w, he, matchesWord_iff.1 hm, decodeWord_eq_ok_iff_hasWord.2 hword⟩

/-! ## The value a load delivers (R15, R182 to R188) -/

theorem littleEndian_lt (m : Memory) (a n : Nat) : littleEndian m a n < 256 ^ n := by
  simpa [leNat_bytesAt] using leNat_lt (m.bytesAt a n)

/-- Sign extension of a value of `N` bits held in a word. -/
theorem sextN_ofNat {N v : Nat} (hN : 0 < N) (hN' : N ≤ 64) (hv : v < 2 ^ N) :
    sextN N (BitVec.ofNat 64 v) = sextVal N v := by
  have hlow : (BitVec.ofNat 64 v).setWidth N = BitVec.ofNat N v := BitVec.setWidth_ofNat_of_le hN' v
  rw [sextN, hlow, ← sextVal_toNat hN, BitVec.toNat_ofNat, Nat.mod_eq_of_lt hv]

/-- Zero extension of a value of `N` bits held in a word. -/
theorem zextN_ofNat {N v : Nat} (hN : N ≤ 64) (hv : v < 2 ^ N) : zextN N (BitVec.ofNat 64 v) = BitVec.ofNat 64 v := by
  rw [zextN, BitVec.setWidth_ofNat_of_le hN, BitVec.setWidth_ofNat_of_le_of_lt hN hv]

/-! ## Loads and stores, in range and out of range (R180, R181) -/

/-- The effective address as the statements write it: the sum, modulo `2^64` (R180). -/
theorem ofNat_add_immIS (s : State) (rs1 : Reg) (imm : BitVec 12) :
    BitVec.ofNat 64 ((s.readReg rs1).toNat + (immIS imm).toNat) = effAddr s rs1 imm :=
  (BitVec.add_def ..).symm

section
variable {s : State} {rs1 : Reg} {imm : BitVec 12} {n : Nat}

theorem loadOp_inRange (ext : Word → Word) (rd : Reg) (h : (effAddr s rs1 imm).toNat + n ≤ 2 ^ 64) :
    loadOp n ext rd rs1 imm s =
      retire s rd (ext (BitVec.ofNat 64 (littleEndian s.mem (effAddr s rs1 imm).toNat n))) := by
  rw [loadOp, memRead, memBytes_inRange _ (.inr h), ← leNat_bytesAt]; rfl

theorem loadOp_outOfRange (ext : Word → Word) (rd : Reg) (hn : 0 < n) (h : 2 ^ 64 < (effAddr s rs1 imm).toNat + n) :
    loadOp n ext rd rs1 imm s = .fault (.addressRange (effAddr s rs1 imm) n) := by
  rw [loadOp, memRead_outOfRange _ hn h]; rfl

/-- An instruction that loads `n` bytes obeys the rule with any `f` its extension equals on values of `n` bytes. -/
theorem LoadRule.of_loadOp {i : Instr} {rd : Reg} {ext : Word → Word} {f : Nat → Word}
    (he : exec i s = loadOp n ext rd rs1 imm s) (hn : 0 < n)
    (hf : ∀ v < 256 ^ n, ext (BitVec.ofNat 64 v) = f v) : LoadRule i s rd (effAddr s rs1 imm) n f := by
  refine ⟨fun h => ?_, fun h => he.trans (loadOp_outOfRange ext rd hn h)⟩
  rw [he, loadOp_inRange ext rd h, hf _ (littleEndian_lt ..)]
  exact retire_writes s rd _

theorem LoadRule.of_loadOp_sextN {i : Instr} {rd : Reg} (he : exec i s = loadOp n (sextN (8 * n)) rd rs1 imm s)
    (hn : 0 < n) (hn' : n ≤ 8) : LoadRule i s rd (effAddr s rs1 imm) n (sextVal (8 * n)) :=
  .of_loadOp he hn fun _ hv => sextN_ofNat (by omega) (by omega) (by rwa [pow_mul])

theorem LoadRule.of_loadOp_zextN {i : Instr} {rd : Reg} (he : exec i s = loadOp n (zextN (8 * n)) rd rs1 imm s)
    (hn : 0 < n) (hn' : n ≤ 8) : LoadRule i s rd (effAddr s rs1 imm) n (BitVec.ofNat 64) :=
  .of_loadOp he hn fun _ hv => zextN_ofNat (by omega) (by rwa [pow_mul])

theorem storeOp_inRange (rs2 : Reg) (h : (effAddr s rs1 imm).toNat + n ≤ 2 ^ 64) :
    Completes (storeOp n rs2 rs1 imm s) fun t => StoresAndAdvances s t (effAddr s rs1 imm) n (s.readReg rs2) := by
  obtain ⟨m, e, hbytes⟩ := memWrite_inRange s.mem (s.readReg rs2) h
  refine ⟨{ s with mem := m }.advance, by rw [storeOp, e]; rfl, hbytes, .of_eq rfl, rfl, ?_⟩
  simp [SameSystem, SamePreimage, SameStatus, SamePort]

theorem storeOp_outOfRange (rs2 : Reg) (hn : 0 < n) (h : 2 ^ 64 < (effAddr s rs1 imm).toNat + n) :
    storeOp n rs2 rs1 imm s = .fault (.addressRange (effAddr s rs1 imm) n) := by
  rw [storeOp, memWrite_outOfRange _ _ hn h]; rfl

/-- An instruction that stores the low `n` bytes of `rs2` obeys the rule. -/
theorem StoreRule.of_storeOp {i : Instr} {rs2 : Reg} (he : exec i s = storeOp n rs2 rs1 imm s) (hn : 0 < n) :
    StoreRule i s (effAddr s rs1 imm) n (s.readReg rs2) :=
  ⟨fun h => he ▸ storeOp_inRange rs2 h, fun h => he.trans (storeOp_outOfRange rs2 hn h)⟩

end

/-- Settles O38: each load is encoded as its row of the table, and it is `loadOp` at its width with its extension. -/
theorem loads : Obligations.Loads := by
  intro s rd rs1 imm
  rw [ofNat_add_immIS]
  exact
    ⟨.of_row "LB" (by decide) rfl rfl rfl, .of_loadOp_sextN rfl (by decide) (by decide),
      .of_row "LH" (by decide) rfl rfl rfl, .of_loadOp_sextN rfl (by decide) (by decide),
      .of_row "LW" (by decide) rfl rfl rfl, .of_loadOp_sextN rfl (by decide) (by decide),
      .of_row "LD" (by decide) rfl rfl rfl, .of_loadOp rfl (by decide) fun _ _ => rfl,
      .of_row "LBU" (by decide) rfl rfl rfl, .of_loadOp_zextN rfl (by decide) (by decide),
      .of_row "LHU" (by decide) rfl rfl rfl, .of_loadOp_zextN rfl (by decide) (by decide),
      .of_row "LWU" (by decide) rfl rfl rfl, .of_loadOp_zextN rfl (by decide) (by decide)⟩

/-- Settles O39: each store is encoded as its row of the table, and it is `storeOp` at its width. -/
theorem stores : Obligations.Stores := by
  intro s rs2 rs1 imm
  rw [ofNat_add_immIS]
  exact
    ⟨.of_row "SB" (by decide) rfl rfl rfl, .of_storeOp rfl (by decide),
      .of_row "SH" (by decide) rfl rfl rfl, .of_storeOp rfl (by decide),
      .of_row "SW" (by decide) rfl rfl rfl, .of_storeOp rfl (by decide),
      .of_row "SD" (by decide) rfl rfl rfl, .of_storeOp rfl (by decide)⟩

end Sys2Proof.Machine
end

section
/-! SUPPORT. The conditional branches (spec/43_branches.md R200 to R207): what each of the six conditions compares, and
what a branch does taken and not taken. -/

namespace Sys2Proof.Machine

/-! ## The six conditions (R202 to R207) -/

section
variable {a b : Word}

theorem condEq_iff : condEq a b = true ↔ a = b := decide_eq_true_iff

theorem condNe_iff : condNe a b = true ↔ a ≠ b := by simp [condNe, condEq]

theorem condLt_iff : condLt a b = true ↔ a.toInt < b.toInt := decide_eq_true_iff

theorem condGe_iff : condGe a b = true ↔ b.toInt ≤ a.toInt := by simp [condGe, condLt]

theorem condLtu_iff : condLtu a b = true ↔ a.toNat < b.toNat := decide_eq_true_iff

theorem condGeu_iff : condGeu a b = true ↔ b.toNat ≤ a.toNat := by simp [condGeu, condLtu]

end

/-! ## The target, and the rule (R200, R201) -/

/-- The target as the statements write it: the sum, modulo `2^64` (R200). -/
theorem ofNat_add_immB (s : State) (o : BitVec 13) : BitVec.ofNat 64 (s.pc.toNat + (immB o).toNat) = branchTarget s o :=
  (BitVec.add_def ..).symm

/-- An instruction that branches on `cond` obeys the rule with any proposition that `cond` decides. -/
theorem BranchRule.of_branchOp {i : Instr} {s : State} {cond : Word → Word → Bool} {rs1 rs2 : Reg} {o : BitVec 13}
    {taken : Prop} (he : exec i s = branchOp cond rs1 rs2 o s)
    (hc : cond (s.readReg rs1) (s.readReg rs2) = true ↔ taken) : BranchRule i s taken (branchTarget s o) := by
  rcases branchOp_cases cond rs1 rs2 o s with ⟨hcond, ht, e⟩ | ⟨hcond, ht, e⟩ | ⟨hcond, e⟩
  · have htaken := hc.1 hcond
    exact ⟨fun _ _ => ⟨_, he.trans e, setPc_onlyPc s _⟩, fun _ hne => absurd ht hne, fun hn => absurd htaken hn⟩
  · have htaken := hc.1 hcond
    exact ⟨fun _ h0 => absurd h0 ht, fun _ _ => he.trans e, fun hn => absurd htaken hn⟩
  · have hnot : ¬taken := mt hc.2 (by simp [hcond])
    exact ⟨fun h => absurd h hnot, fun h => absurd h hnot, fun _ => ⟨_, he.trans e, advance_onlyPc s⟩⟩

/-- Settles O40: each branch is `branchOp` on its condition, and with an even offset it is encoded as its row of the
table. -/
theorem branches : Obligations.Branches := by
  intro s rs1 rs2 o
  rw [ofNat_add_immB]
  refine ⟨.of_branchOp rfl condEq_iff, .of_branchOp rfl condNe_iff, .of_branchOp rfl condLt_iff,
    .of_branchOp rfl condGe_iff, .of_branchOp rfl condLtu_iff, .of_branchOp rfl condGeu_iff, fun ho => ?_⟩
  have hwf : evenBranch o = true := beq_iff_eq.2 ho
  exact
    ⟨.of_row "BEQ" (by decide) rfl rfl hwf, .of_row "BNE" (by decide) rfl rfl hwf,
      .of_row "BLT" (by decide) rfl rfl hwf, .of_row "BGE" (by decide) rfl rfl hwf,
      .of_row "BLTU" (by decide) rfl rfl hwf, .of_row "BGEU" (by decide) rfl rfl hwf⟩

end Sys2Proof.Machine
end

section
/-! SUPPORT. The integer ALU (spec/44_alu.md R210 to R240): the value each rule writes in numbers, as the value of the
arithmetic unit the instruction computes. -/

namespace Sys2Proof.Machine

/-! ## Sums, differences and comparisons (R211 to R213, R220, R221, R223, R224) -/

section
variable {W : Nat}

theorem ofNat_add_eq_auAdd (a b : BitVec W) : BitVec.ofNat W (a.toNat + b.toNat) = auAdd a b := (BitVec.add_def ..).symm

theorem ofInt_sub_eq_auSub (a b : BitVec W) : BitVec.ofInt W (a.toNat - b.toNat) = auSub a b := by
  simp [sub_eq_add_neg, BitVec.ofInt_add, BitVec.ofInt_neg, auSub]

/-- The difference with `2 ^ W` added first, so that the natural subtraction does not cut it off. -/
theorem ofNat_add_sub_eq_auSub (a b : BitVec W) : BitVec.ofNat W (a.toNat + 2 ^ W - b.toNat) = auSub a b := by
  have hb := b.isLt
  rw [auSub, BitVec.sub_def, Nat.add_comm, Nat.sub_add_comm hb.le]

/-- A comparison as the statements write it (R134). -/
theorem ite_eq_truth (p : Prop) [Decidable p] : (if p then 1 else 0 : BitVec W) = truth (decide p) := by simp [truth]

/-! ## Shifts (R98, R217 to R219, R222, R225, R226) -/

variable {n : BitVec W} {k : Nat}

theorem ofNat_mul_pow_eq_auShl (hn : n.toNat = k) (hk : k < W) (v : BitVec W) :
    BitVec.ofNat W (v.toNat * 2 ^ k) = auShl n v := by
  subst hn
  apply BitVec.eq_of_toNat_eq
  rw [toNat_auShl, if_neg hk.not_ge, BitVec.toNat_ofNat]

theorem ofNat_div_pow_eq_auShr (hn : n.toNat = k) (hk : k < W) (v : BitVec W) :
    BitVec.ofNat W (v.toNat / 2 ^ k) = auShr n v := by
  subst hn
  rw [← BitVec.setWidth_eq (auShr n v), ← BitVec.ofNat_toNat, toNat_auShr, if_neg hk.not_ge]

theorem ofInt_div_pow_eq_auSar (hn : n.toNat = k) (hk : k < W) (v : BitVec W) :
    BitVec.ofInt W (v.toInt / 2 ^ k) = auSar n v := by
  subst hn
  rw [← BitVec.ofInt_toInt (x := auSar n v), toInt_auSar (by omega), if_neg hk.not_ge]

end

theorem toNat_immAmount {k : Nat} (hk : k ≤ 64) (sh : BitVec k) : (immAmount sh).toNat = sh.toNat :=
  BitVec.toNat_setWidth_of_le hk

theorem toNat_zextN {N : Nat} (hN : N ≤ 64) (v : Word) : (zextN N v).toNat = v.toNat % 2 ^ N := by
  rw [zextN, BitVec.toNat_setWidth_of_le hN, BitVec.toNat_setWidth]

/-- A register shift of 64 bits counts the low 6 bits of its amount. -/
theorem toNat_amount6 (v : Word) : (amount6 v).toNat = v.toNat % 64 := toNat_zextN (by decide) v

/-- A register shift of 32 bits counts the low 5 bits of its amount. -/
theorem toNat_amount5 (v : Word) : (amount5 v).toNat = v.toNat % 32 := toNat_zextN (by decide) v

/-! ## The low 32 bits (R15, R230 to R238) -/

section
variable {N : Nat}

/-- Sign-extending the low `N` bits is reading them as a signed number. -/
theorem sextN_eq_sextVal (hN : 0 < N) (v : Word) : sextN N v = sextVal N (v.toNat % 2 ^ N) := by
  rw [sextN, ← sextVal_toNat hN, BitVec.toNat_setWidth]

/-- The low `N` bits of a number held in a word. -/
theorem sextVal_mod_eq_sextN (hN : 0 < N) (hN' : N ≤ 64) (x : Nat) :
    sextVal N (x % 2 ^ N) = sextN N (BitVec.ofNat 64 x) := by
  rw [sextN_eq_sextVal hN, BitVec.toNat_ofNat, Nat.mod_mod_of_dvd x (Nat.pow_dvd_pow 2 hN')]

/-- `signed_N` of a field is its signed reading (R15). -/
theorem signedVal_toNat (hN : 0 < N) (x : BitVec N) : signedVal N x.toNat = x.toInt := by
  have h2 : 2 ^ N = 2 * 2 ^ (N - 1) := by rw [← pow_succ', Nat.sub_add_cancel hN]
  have hc : x.toNat < 2 ^ (N - 1) ↔ 2 * x.toNat < 2 ^ N := by omega
  rw [signedVal, BitVec.toInt_eq_toNat_cond, Nat.cast_pow, Nat.cast_ofNat]
  simp only [hc]

theorem toInt_sextN (hN : 0 < N) (hN' : N ≤ 64) (v : Word) : (sextN N v).toInt = signedVal N (v.toNat % 2 ^ N) := by
  rw [sextN, BitVec.toInt_signExtend_of_le hN', ← signedVal_toNat hN, BitVec.toNat_setWidth]

end

/-- A right shift of the zero-extended low word, sign-extended (R232, R237). -/
theorem sextVal_div_pow_eq_sextN {n : Word} {k : Nat} (hn : n.toNat = k) (hk : k < 64) (v : Word) :
    sextVal 32 (v.toNat % 2 ^ 32 / 2 ^ k) = sextN 32 (auShr n (zextN 32 v)) := by
  have hlt : v.toNat % 2 ^ 32 / 2 ^ k < 2 ^ 32 := (Nat.div_le_self ..).trans_lt (Nat.mod_lt _ (by decide))
  rw [← ofNat_div_pow_eq_auShr hn hk, toNat_zextN (by decide), sextN_ofNat (by decide) (by decide) hlt]

/-- An arithmetic right shift of the sign-extended low word (R233, R238). -/
theorem ofInt_signedVal_div_pow_eq_auSar {n : Word} {k : Nat} (hn : n.toNat = k) (hk : k < 64) (v : Word) :
    BitVec.ofInt 64 (signedVal 32 (v.toNat % 2 ^ 32) / 2 ^ k) = auSar n (sextN 32 v) := by
  rw [← toInt_sextN (by decide) (by decide), ofInt_div_pow_eq_auSar hn hk]

/-! ## The statements -/

/-- Settles O42: each operation is encoded as its row of the table, and it retires the unit's value. -/
theorem aluImmediate : Obligations.AluImmediate :=
  ⟨fun _ _ _ _ =>
    ⟨.of_row "ADDI" (by decide) rfl rfl rfl, .of_retire rfl (ofNat_add_eq_auAdd ..),
      .of_row "SLTI" (by decide) rfl rfl rfl, .of_retire rfl (ite_eq_truth _),
      .of_row "SLTIU" (by decide) rfl rfl rfl, .of_retire rfl (ite_eq_truth _),
      .of_row "XORI" (by decide) rfl rfl rfl, .of_retire rfl rfl,
      .of_row "ORI" (by decide) rfl rfl rfl, .of_retire rfl rfl,
      .of_row "ANDI" (by decide) rfl rfl rfl, .of_retire rfl rfl⟩,
    fun _ _ imm =>
    ⟨.of_row "LUI" (by decide) rfl rfl rfl, .of_retire rfl (sextVal_immU imm),
      .of_row "AUIPC" (by decide) rfl rfl rfl,
      .of_retire rfl (by rw [sextVal_immU, ofNat_add_eq_auAdd])⟩⟩

/-- Settles O43: each operation is encoded as its row of the table, and it retires the unit's value. -/
theorem aluRegister : Obligations.AluRegister := fun _ _ _ _ =>
  ⟨.of_row "ADD" (by decide) rfl rfl rfl, .of_retire rfl (ofNat_add_eq_auAdd ..),
    .of_row "SUB" (by decide) rfl rfl rfl, .of_retire rfl (ofInt_sub_eq_auSub ..),
    .of_row "SLT" (by decide) rfl rfl rfl, .of_retire rfl (ite_eq_truth _),
    .of_row "SLTU" (by decide) rfl rfl rfl, .of_retire rfl (ite_eq_truth _),
    .of_row "XOR" (by decide) rfl rfl rfl, .of_retire rfl rfl,
    .of_row "OR" (by decide) rfl rfl rfl, .of_retire rfl rfl,
    .of_row "AND" (by decide) rfl rfl rfl, .of_retire rfl rfl⟩

/-- Settles O44: each shift is encoded as its row of the table, and its amount is below 64. -/
theorem aluShift : Obligations.AluShift := by
  intro s rd rs1 rs2 sh a n
  have hsh : (immAmount sh).toNat = sh.toNat := toNat_immAmount (by decide) sh
  have hn : (amount6 (s.readReg rs2)).toNat = n := toNat_amount6 _
  have hsh64 : sh.toNat < 64 := sh.isLt
  have hn64 : n < 64 := Nat.mod_lt _ (by decide)
  exact
    ⟨.of_row "SLLI" (by decide) rfl rfl rfl, .of_retire rfl (ofNat_mul_pow_eq_auShl hsh hsh64 a),
      .of_row "SRLI" (by decide) rfl rfl rfl, .of_retire rfl (ofNat_div_pow_eq_auShr hsh hsh64 a),
      .of_row "SRAI" (by decide) rfl rfl rfl, .of_retire rfl (ofInt_div_pow_eq_auSar hsh hsh64 a),
      .of_row "SLL" (by decide) rfl rfl rfl, .of_retire rfl (ofNat_mul_pow_eq_auShl hn hn64 a),
      .of_row "SRL" (by decide) rfl rfl rfl, .of_retire rfl (ofNat_div_pow_eq_auShr hn hn64 a),
      .of_row "SRA" (by decide) rfl rfl rfl, .of_retire rfl (ofInt_div_pow_eq_auSar hn hn64 a)⟩

/-- Settles O45: each operation is encoded as its row of the table, its amount is below 32, and what it retires is the
low word of the unit's 64-bit value or the unit's value of the extended low word. -/
theorem aluWord : Obligations.AluWord := by
  intro s rd rs1 rs2 imm sh a b lo slo n
  have hsh : (immAmount sh).toNat = sh.toNat := toNat_immAmount (by decide) sh
  have hn : (amount5 b).toNat = n := toNat_amount5 b
  have hsh64 : sh.toNat < 64 := by omega
  have hn64 : n < 64 := (Nat.mod_lt _ (by decide)).trans (by decide : 32 < 64)
  have low (x : Nat) : sextVal 32 (x % 2 ^ 32) = sextN 32 (BitVec.ofNat 64 x) :=
    sextVal_mod_eq_sextN (by decide) (by decide) x
  exact
    ⟨.of_row "ADDIW" (by decide) rfl rfl rfl, .of_retire rfl (by rw [low, ofNat_add_eq_auAdd]),
      .of_row "SLLIW" (by decide) rfl rfl rfl, .of_retire rfl (by rw [low, ofNat_mul_pow_eq_auShl hsh hsh64]),
      .of_row "SRLIW" (by decide) rfl rfl rfl, .of_retire rfl (sextVal_div_pow_eq_sextN hsh hsh64 a),
      .of_row "SRAIW" (by decide) rfl rfl rfl, .of_retire rfl (ofInt_signedVal_div_pow_eq_auSar hsh hsh64 a),
      .of_row "ADDW" (by decide) rfl rfl rfl, .of_retire rfl (by rw [low, ofNat_add_eq_auAdd]),
      .of_row "SUBW" (by decide) rfl rfl rfl, .of_retire rfl (by rw [low, ofNat_add_sub_eq_auSub]),
      .of_row "SLLW" (by decide) rfl rfl rfl, .of_retire rfl (by rw [low, ofNat_mul_pow_eq_auShl hn hn64]),
      .of_row "SRLW" (by decide) rfl rfl rfl, .of_retire rfl (sextVal_div_pow_eq_sextN hn hn64 a),
      .of_row "SRAW" (by decide) rfl rfl rfl, .of_retire rfl (ofInt_signedVal_div_pow_eq_auSar hn hn64 a)⟩

end Sys2Proof.Machine
end

section
/-! SUPPORT. The jumps (spec/45_jumps.md R260 to R263): the two targets as the statements write them, and what a jump does
with an aligned and with a misaligned target. -/

namespace Sys2Proof.Machine

/-! ## The targets (R261, R263) -/

/-- The target of JAL as the statements write it: the sum, modulo `2^64` (R261). -/
theorem ofNat_add_immJ (s : State) (o : BitVec 21) : BitVec.ofNat 64 (s.pc.toNat + (immJ o).toNat) = jalTarget s o :=
  (BitVec.add_def ..).symm

/-- Clearing bit 0 of a word rounds it down to an even number (R263). -/
theorem toNat_and_not_one (v : Word) : (v &&& ~~~1#64).toNat = v.toNat / 2 * 2 := by
  have hmask : (~~~1#64).toNat = (2 ^ 63 - 1) * 2 ^ 1 := by decide
  have hv : v.toNat < 2 ^ 64 := v.isLt
  rw [BitVec.toNat_and, hmask, and_run]
  omega

/-- The target of JALR as the statements write it: the sum, modulo `2^64`, rounded down to an even number (R263). -/
theorem ofNat_even_add_immIS (s : State) (rs1 : Reg) (imm : BitVec 12) :
    BitVec.ofNat 64 (((s.readReg rs1).toNat + (immIS imm).toNat) % 2 ^ 64 / 2 * 2) = jalrTarget s rs1 imm := by
  rw [← BitVec.toNat_add, ← toNat_and_not_one, BitVec.ofNat_toNat, BitVec.setWidth_eq]
  rfl

/-! ## The rule (R260, R262) -/

/-- Linking and then going to the target changes `rd` and `pc`, and nothing else (R260). -/
theorem link_setPc_frame (s : State) (rd : Reg) (v t : Word) :
    WritesReg s ((s.writeReg rd v).setPc t) rd v ∧ ((s.writeReg rd v).setPc t).pc = t ∧
      SameMemory s ((s.writeReg rd v).setPc t) ∧ SameSystem s ((s.writeReg rd v).setPc t) :=
  ⟨fun r => by simpa using writeReg_writes s rd v r, by simp, .of_eq (by simp),
    by simp [SameSystem, SamePreimage, SameStatus, SamePort]⟩

/-- An instruction that jumps to `t` obeys the rule with that target. -/
theorem JumpRule.of_jumpOp {i : Instr} {s : State} {rd : Reg} {t : Word} (he : exec i s = jumpOp rd t s) :
    JumpRule i s rd t := by
  rcases jumpOp_cases rd t s with ⟨ht, e⟩ | ⟨ht, e⟩
  · exact ⟨fun _ => ⟨_, he.trans e, link_setPc_frame s rd _ t⟩, fun hne => absurd ht hne⟩
  · exact ⟨fun h0 => absurd h0 ht, fun _ => he.trans e⟩

/-- Settles O41: each jump is `jumpOp` to its target, and it is encoded as its row of the table, JAL with an even offset. -/
theorem jumps : Obligations.Jumps := by
  refine ⟨fun s rd o => ?_, fun s rd rs1 imm => ?_⟩
  · rw [ofNat_add_immJ]
    exact ⟨.of_jumpOp rfl, fun ho => .of_row "JAL" (by decide) rfl rfl (beq_iff_eq.2 ho)⟩
  · rw [ofNat_even_add_immIS]
    exact ⟨.of_jumpOp rfl, .of_row "JALR" (by decide) rfl rfl rfl⟩

end Sys2Proof.Machine
end

section
/-! SUPPORT. Multiply and divide (spec/46_muldiv.md R270 to R284): the halves of an exact product, and the quotient and
the remainder a divide delivers, at 64 bits and of the low words, with the zero divisor and the overflow pair. -/

namespace Sys2Proof.Machine

/-! ## Products (R270 to R273) -/

theorem ofNat_mul_eq_auMul {W : Nat} (a b : BitVec W) : BitVec.ofNat W (a.toNat * b.toNat) = auMul a b :=
  (BitVec.mul_def ..).symm

/-- Bits 127:64 of a product are its quotient by `2^64`, rounded down, modulo `2^64` (R271, R272). -/
theorem ofInt_div_pow_eq_highHalf (p : Int) : BitVec.ofInt 64 (p / 2 ^ 64) = highHalf p := by
  apply BitVec.eq_of_toNat_eq
  simp only [highHalf, BitVec.extractLsb'_toNat, BitVec.toNat_ofInt, Nat.shiftRight_eq_div_pow]
  omega

/-- The high half of a product of unsigned readings (R273). -/
theorem ofNat_mul_div_pow_eq_highHalf (a b : Nat) : BitVec.ofNat 64 (a * b / 2 ^ 64) = highHalf (a * b) := by
  rw [← ofInt_div_pow_eq_highHalf, ← BitVec.ofInt_natCast]
  push_cast
  rfl

/-! ## Quotients and remainders (R274 to R277) -/

section
variable {W : Nat} (a b : BitVec W)

theorem quotSigned_eq : quotSigned a b = if b = 0 then ones W
    else if a = minSigned W ∧ b = ones W then minSigned W else BitVec.ofInt W (a.toInt.tdiv b.toInt) := by
  unfold quotSigned auSdiv
  split_ifs <;> rfl

theorem quotUnsigned_eq : quotUnsigned a b = if b = 0 then ones W else BitVec.ofNat W (a.toNat / b.toNat) := by
  unfold quotUnsigned auDiv
  split_ifs
  · rfl
  · exact BitVec.udiv_def ..

theorem remSigned_eq : remSigned a b = if b = 0 then a
    else if a = minSigned W ∧ b = ones W then 0 else BitVec.ofInt W (a.toInt.tmod b.toInt) := by
  unfold remSigned auSmod
  split_ifs <;> rfl

theorem remUnsigned_eq : remUnsigned a b = if b = 0 then a else BitVec.ofNat W (a.toNat % b.toNat) := by
  unfold remUnsigned auMod
  split_ifs
  · rfl
  · exact BitVec.umod_def ..

/-- Outside the overflow pair the unit's signed quotient does not wrap. -/
theorem toInt_auSdiv_of_not_overflow (h : ¬(a = minSigned W ∧ b = ones W)) :
    (auSdiv a b).toInt = a.toInt.tdiv b.toInt := by
  rw [auSdiv_eq_sdiv, BitVec.toInt_sdiv_of_ne_or_ne]
  rwa [BitVec.neg_one_eq_allOnes, ← not_and_or]

end

/-! ## The low words (R278 to R282, R284) -/

theorem toNat_low32 (v : Word) : (low32 v).toNat = v.toNat % 2 ^ 32 := BitVec.toNat_setWidth ..

/-- The statements' sign extension of a 32-bit value is the model's. -/
theorem sextVal_toNat_eq_sext32 (x : BitVec 32) : sextVal 32 x.toNat = sext32 x := sextVal_toNat (by decide) x

theorem sext32_eq_ofInt_toInt (x : BitVec 32) : sext32 x = BitVec.ofInt 64 x.toInt := rfl

/-- The overflow pair of the low words, in numbers. -/
theorem overflow32_iff {x y : BitVec 32} :
    x.toNat = 0x80000000 ∧ y.toNat = 0xffffffff ↔ x = minSigned 32 ∧ y = ones 32 :=
  and_congr (BitVec.toNat_inj (y := minSigned 32)) (BitVec.toNat_inj (y := ones 32))

section
variable (x y : BitVec 32)

theorem sext32_quotSigned : sext32 (quotSigned x y) = if y.toNat = 0 then 0xffffffffffffffff
    else if x.toNat = 0x80000000 ∧ y.toNat = 0xffffffff then 0xffffffff80000000
    else BitVec.ofInt 64 ((signedVal 32 x.toNat).tdiv (signedVal 32 y.toNat)) := by
  simp only [quotSigned, toNat_eq_zero_iff, overflow32_iff]
  split_ifs with h0 ho
  · rfl
  · rfl
  · rw [sext32_eq_ofInt_toInt, toInt_auSdiv_of_not_overflow x y ho, signedVal_toNat (by decide),
      signedVal_toNat (by decide)]

theorem sext32_quotUnsigned : sext32 (quotUnsigned x y) =
    if y.toNat = 0 then 0xffffffffffffffff else sextVal 32 (x.toNat / y.toNat) := by
  simp only [quotUnsigned, ← toNat_eq_zero_iff]
  split_ifs with h0
  · rfl
  · rw [← sextVal_toNat_eq_sext32, toNat_auDiv, if_neg h0]

theorem sext32_remSigned : sext32 (remSigned x y) = if y.toNat = 0 then sextVal 32 x.toNat
    else if x.toNat = 0x80000000 ∧ y.toNat = 0xffffffff then 0
    else BitVec.ofInt 64 ((signedVal 32 x.toNat).tmod (signedVal 32 y.toNat)) := by
  simp only [remSigned, toNat_eq_zero_iff, overflow32_iff]
  split_ifs with h0 ho
  · exact (sextVal_toNat_eq_sext32 x).symm
  · rfl
  · rw [sext32_eq_ofInt_toInt, auSmod_eq_srem x h0, BitVec.toInt_srem, signedVal_toNat (by decide),
      signedVal_toNat (by decide)]

theorem sext32_remUnsigned : sext32 (remUnsigned x y) =
    if y.toNat = 0 then sextVal 32 x.toNat else sextVal 32 (x.toNat % y.toNat) := by
  simp only [remUnsigned, ← toNat_eq_zero_iff]
  split_ifs with h0
  · exact (sextVal_toNat_eq_sext32 x).symm
  · rw [← sextVal_toNat_eq_sext32, toNat_auMod, if_neg h0]

end

/-! ## The statements -/

/-- Settles O46: each multiply is encoded as its row of the table, and it retires the low half, the high half or the
sign-extended low word of the exact product. -/
theorem multiplies : Obligations.Multiplies := fun _ _ _ _ =>
  ⟨.of_row "MUL" (by decide) rfl rfl rfl, .of_retire rfl (ofNat_mul_eq_auMul ..),
    .of_row "MULH" (by decide) rfl rfl rfl, .of_retire rfl (ofInt_div_pow_eq_highHalf _),
    .of_row "MULHSU" (by decide) rfl rfl rfl, .of_retire rfl (ofInt_div_pow_eq_highHalf _),
    .of_row "MULHU" (by decide) rfl rfl rfl, .of_retire rfl (ofNat_mul_div_pow_eq_highHalf ..),
    .of_row "MULW" (by decide) rfl rfl rfl,
    .of_retire rfl (by rw [sextVal_mod_eq_sextN (by decide) (by decide), ofNat_mul_eq_auMul])⟩

/-- Settles O47: each divide is encoded as its row of the table, and it retires the quotient or the remainder. -/
theorem divides : Obligations.Divides := fun _ _ _ _ =>
  ⟨.of_row "DIV" (by decide) rfl rfl rfl, .of_retire rfl (quotSigned_eq ..).symm,
    .of_row "DIVU" (by decide) rfl rfl rfl, .of_retire rfl (quotUnsigned_eq ..).symm,
    .of_row "REM" (by decide) rfl rfl rfl, .of_retire rfl (remSigned_eq ..).symm,
    .of_row "REMU" (by decide) rfl rfl rfl, .of_retire rfl (remUnsigned_eq ..).symm⟩

/-- Settles O48: each divide is encoded as its row of the table, and it retires the sign-extended quotient or remainder
of the low words. -/
theorem dividesWord : Obligations.DividesWord := by
  intro s rd rs1 rs2
  rw [← toNat_low32, ← toNat_low32]
  exact
    ⟨.of_row "DIVW" (by decide) rfl rfl rfl, .of_retire rfl (sext32_quotSigned ..).symm,
      .of_row "DIVUW" (by decide) rfl rfl rfl, .of_retire rfl (sext32_quotUnsigned ..).symm,
      .of_row "REMW" (by decide) rfl rfl rfl, .of_retire rfl (sext32_remSigned ..).symm,
      .of_row "REMUW" (by decide) rfl rfl rfl, .of_retire rfl (sext32_remUnsigned ..).symm⟩

end Sys2Proof.Machine
end

section
/-! SUPPORT. The state codec (spec/49_step_codec_witness.md R350 to R352): where each field stands in the 362 bytes, the
checks of `DECODE_STATE` and the state it leaves, that decoding the encoding of a valid state gives that state back, and
that nothing but `DECODE_STATE` changes the load reservation (R292). -/

namespace Sys2Proof.Machine

/-! ## The fields of the encoding (R350) -/

theorem slice_whole {b : List Byte} {n : Nat} (h : b.length = n) : slice b 0 n = b := List.take_of_length_le h.le

section
variable (H : HashFn) (s : State)

theorem slice_encodeState_root : slice (encodeState H s) 0 32 = (root H s.mem).toList := by
  simp [encodeState, slice_zero_append]

theorem slice_encodeState_preimageKey : slice (encodeState H s) 32 32 = s.preimageKey.toList := by
  simp [encodeState, slice_append_of_length_le, slice_zero_append]

theorem slice_encodeState_preimageOffset : slice (encodeState H s) 64 8 = be64 s.preimageOffset := by
  simp [encodeState, slice_append_of_length_le, slice_zero_append]

theorem slice_encodeState_pc : slice (encodeState H s) 72 8 = be64 s.pc := by
  simp [encodeState, slice_append_of_length_le, slice_zero_append]

theorem getElem?_encodeState_exitCode : (encodeState H s)[80]? = some s.exitCode := by
  simp [encodeState]

theorem getElem?_encodeState_exited : (encodeState H s)[81]? = some (if s.exited then 1 else 0) := by
  simp [encodeState]

theorem slice_encodeState_heap : slice (encodeState H s) 90 8 = be64 s.heap := by
  simp [encodeState, slice_append_of_length_le, slice_cons_succ, slice_zero_append]

theorem slice_encodeState_loadReservation : slice (encodeState H s) 98 8 = be64 s.loadReservation := by
  simp [encodeState, slice_append_of_length_le, slice_cons_succ, slice_zero_append]

theorem slice_encodeState_reg (r : Reg) : slice (encodeState H s) (106 + 8 * r.toNat) 8 = be64 (s.readReg r) := by
  have hr : (List.range 32)[r.toNat]? = some r.toNat := List.getElem?_range r.isLt
  have hblock := slice_flatMap_blocks (fun i => length_be64 (s.readReg (BitVec.ofNat 5 i))) hr (start := 0) (n := 8)
    le_rfl
  rw [Nat.add_zero, Nat.mul_comm, slice_whole (length_be64 _), BitVec.ofNat_toNat, BitVec.setWidth_eq] at hblock
  rw [← hblock, encodeState, slice_append_of_length_le (by simp)]
  simp

end

/-! ## The checks of `DECODE_STATE` (R351) -/

/-- The state an accepted string leaves: every field but the memory from its place, and the port as it was (R351). -/
def State.decodedFrom (s : State) (b : List Byte) : State :=
  { s with
    preimageKey := bytes32 (slice b 32 32)
    preimageOffset := beWord (slice b 64 8)
    pc := beWord (slice b 72 8)
    exitCode := b.getD 80 0
    exited := b.getD 81 0 == 1
    stepCount := beWord (slice b 82 8)
    heap := beWord (slice b 90 8)
    loadReservation := beWord (slice b 98 8)
    regs := decodeRegs b }

/-- The checks as the statements write them. -/
theorem decodeState_eq (H : HashFn) (b : List Byte) (s : State) :
    decodeState H b s =
      if b.length ≠ 362 then .error (.codecError .length)
      else if ¬(b.getD 81 0 = 0 ∨ b.getD 81 0 = 1) then .error (.codecError .exitedFlag)
      else if b.getD 81 0 = 0 ∧ b.getD 80 0 ≠ 0 then .error (.codecError .exitCodeWithoutExited)
      else if slice b 106 8 ≠ List.replicate 8 0 then .error (.codecError .x0NotZero)
      else if (b.getD 79 0).toNat % 4 ≠ 0 then .error (.codecError .pcMisaligned)
      else if slice b 0 32 ≠ (root H s.mem).toList then .error (.codecError .memoryRootMismatch)
      else .ok (s.decodedFrom b) := by
  simp only [not_or]
  rfl

section
variable {H : HashFn} {b : List Byte} {s : State}

theorem decodeState_of_checks (hl : b.length = 362) (hflag : b.getD 81 0 = 0 ∨ b.getD 81 0 = 1)
    (hcode : ¬(b.getD 81 0 = 0 ∧ b.getD 80 0 ≠ 0)) (hx0 : slice b 106 8 = List.replicate 8 0)
    (hpc : (b.getD 79 0).toNat % 4 = 0) (hroot : slice b 0 32 = (root H s.mem).toList) :
    decodeState H b s = .ok (s.decodedFrom b) := by
  rw [decodeState_eq, if_neg (not_not_intro hl), if_neg (not_not_intro hflag), if_neg hcode, if_neg (not_not_intro hx0),
    if_neg (not_not_intro hpc), if_neg (not_not_intro hroot)]

end

theorem exec_cmdDecodeState_error {b : List Byte} {s : State} {f : Fault} (h : decodeState Config.hash b s = .error f) :
    exec (.cmdDecodeState b) s = .fault f := by
  change orRaise (decodeState Config.hash b s) _ = _
  rw [h]; rfl

theorem exec_cmdDecodeState_ok {b : List Byte} {s t : State} (h : decodeState Config.hash b s = .ok t) :
    exec (.cmdDecodeState b) s = .next (t.answer .ok) := by
  change orRaise (decodeState Config.hash b s) _ = _
  rw [h]; rfl

/-! ## The fields of the decoded state (R351) -/

theorem toList_bytes32 {b : List Byte} (h : b.length = 32) : (bytes32 b).toList = b := by
  apply List.ext_getElem (by simp [h])
  intro k h1 h2
  simp [bytes32, h2]

theorem bytes32_toList (x : Bytes32) : bytes32 x.toList = x :=
  Vector.toList_inj.1 (toList_bytes32 x.length_toList)

theorem beNat_lt (b : List Byte) : beNat b < 256 ^ b.length := by simpa [beNat] using leNat_lt b.reverse

/-- A word holds the number of 8 bytes of a string. -/
theorem toNat_beWord_slice {b : List Byte} {start : Nat} (h : start + 8 ≤ b.length) :
    (beWord (slice b start 8)).toNat = bigEndianAt b start 8 := by
  have hlt := beNat_lt (slice b start 8)
  rw [length_slice h] at hlt
  rw [bigEndianAt_eq_beNat, beWord, BitVec.toNat_ofNat]
  exact Nat.mod_eq_of_lt hlt

theorem getElem_decodeRegs (b : List Byte) {i : Nat} (hi : i < 32) :
    (decodeRegs b)[i] = if i = 0 then 0 else beWord (slice b (106 + 8 * i) 8) := by
  simp [decodeRegs]

section
variable {s : State} {b : List Byte}

theorem State.readReg_decodedFrom {r : Reg} (hr : r ≠ 0) :
    (s.decodedFrom b).readReg r = beWord (slice b (106 + 8 * r.toNat) 8) := by
  have hn : r.toNat ≠ 0 := fun h => hr (BitVec.eq_of_toNat_eq h)
  exact (readReg_of_ne hr).trans ((getElem_decodeRegs b r.isLt).trans (if_neg hn))

theorem State.toNat_readReg_decodedFrom (hl : b.length = 362) (hx0 : slice b 106 8 = List.replicate 8 0) (r : Reg) :
    ((s.decodedFrom b).readReg r).toNat = bigEndianAt b (106 + 8 * r.toNat) 8 := by
  by_cases hr : r = 0
  · subst hr
    exact (bigEndianAt_of_slice_eq_be64 (v := 0) (hx0.trans be64_zero.symm)).symm
  · have := r.isLt
    rw [readReg_decodedFrom hr, toNat_beWord_slice (by omega)]

end

/-- Settles O36: the checks in their order; and where all pass, each field of the decoded state has its lemma. -/
theorem decodeStateChecks : Obligations.DecodeStateChecks := by
  intro s b flag code flagOk codeOk x0Ok pcOk rootOk
  have checks := decodeState_eq Config.hash b s
  refine ⟨fun hl => ?_, fun hl h1 => ?_, fun hl h1 h2 => ?_, fun hl h1 h2 h3 => ?_, fun hl h1 h2 h3 h4 => ?_,
    fun hl h1 h2 h3 h4 h5 => ?_, fun hl h1 h2 h3 h4 h5 => ?_⟩
  case refine_7 =>
    have word {start : Nat} (h : start + 8 ≤ 362) : (beWord (slice b start 8)).toNat = bigEndianAt b start 8 :=
      toNat_beWord_slice (by omega)
    exact ⟨_, exec_cmdDecodeState_ok (decodeState_of_checks hl h1 h2 h3 h4 h5), 
      toList_bytes32 (length_slice (by omega)), word (start := 64) (by decide), word (start := 72) (by decide), rfl, beq_iff_eq, word (start := 82) (by decide),
      word (start := 90) (by decide), word (start := 98) (by decide),
      fun r => by rw [State.readReg_answer, State.toNat_readReg_decodedFrom hl h3],
      by simp [State.decodedFrom]⟩
  all_goals apply exec_cmdDecodeState_error
  · rw [checks, if_pos hl]
  · rw [checks, if_neg (not_not_intro hl), if_pos h1]
  · rw [checks, if_neg (not_not_intro hl), if_neg (not_not_intro h1), if_pos (not_not.1 h2)]
  · rw [checks, if_neg (not_not_intro hl), if_neg (not_not_intro h1), if_neg h2, if_pos h3]
  · rw [checks, if_neg (not_not_intro hl), if_neg (not_not_intro h1), if_neg h2, if_neg (not_not_intro h3), if_pos h4]
  · rw [checks, if_neg (not_not_intro hl), if_neg (not_not_intro h1), if_neg h2, if_neg (not_not_intro h3),
      if_neg (not_not_intro h4), if_pos h5]

/-! ## Decoding an encoding (R352) -/

/-- The last byte of a big-endian string tells its value modulo 4. -/
theorem toNat_getD_mod_four {b : List Byte} {start n : Nat} (h : start + n < b.length) :
    (b.getD (start + n) 0).toNat % 4 = beNat (slice b start (n + 1)) % 4 := by
  rw [slice_succ h, beNat_append_singleton]
  omega

section
variable (H : HashFn) (u : State)

theorem getD_encodeState_exitCode : (encodeState H u).getD 80 0 = u.exitCode := by
  rw [List.getD_eq_getElem?_getD, getElem?_encodeState_exitCode]; rfl

theorem getD_encodeState_exited : (encodeState H u).getD 81 0 = if u.exited then 1 else 0 := by
  rw [List.getD_eq_getElem?_getD, getElem?_encodeState_exited]; rfl

theorem toNat_getD_encodeState_pc_mod_four : ((encodeState H u).getD 79 0).toNat % 4 = u.pc.toNat % 4 := by
  rw [← beNat_be64 u.pc, ← slice_encodeState_pc H]
  exact toNat_getD_mod_four (start := 72) (n := 7) (by rw [length_encodeState]; decide)

end

theorem decodeRegs_encodeState (H : HashFn) {u : State} (hu : u.regs[0] = 0) :
    decodeRegs (encodeState H u) = u.regs := by
  ext1 i hi
  rw [getElem_decodeRegs _ hi]
  split_ifs with h0
  · subst h0; exact hu.symm
  · have hn : (BitVec.ofNat 5 i).toNat = i := Nat.mod_eq_of_lt hi
    have hne : BitVec.ofNat 5 i ≠ 0 := fun h => h0 (hn.symm.trans (congrArg BitVec.toNat h))
    have hs := slice_encodeState_reg H u (BitVec.ofNat 5 i)
    rw [hn, State.readReg_of_ne hne] at hs
    rw [hs, beWord_be64]
    congr 1

/-- An encoding of `u` gives back all of `u` but the memory and the port, which no encoding holds. -/
theorem State.decodedFrom_encodeState (H : HashFn) {u : State} (hu : u.regs[0] = 0) (s : State) :
    s.decodedFrom (encodeState H u) =
      { u with mem := s.mem, requests := s.requests, reply := s.reply, output := s.output } := by
  rw [decodedFrom, decodeRegs_encodeState H hu, slice_encodeState_preimageKey, slice_encodeState_preimageOffset,
    slice_encodeState_pc, slice_encodeState_stepCount, slice_encodeState_heap, slice_encodeState_loadReservation,
    getD_encodeState_exitCode, getD_encodeState_exited, bytes32_toList]
  cases h : u.exited <;> simp

/-- The encoding of a valid state passes the checks of a machine with that state's memory root. -/
theorem decodeState_encodeState {H : HashFn} {s u : State} (hu : u.Valid) (hroot : root H u.mem = root H s.mem) :
    decodeState H (encodeState H u) s =
      .ok { u with mem := s.mem, requests := s.requests, reply := s.reply, output := s.output } := by
  obtain ⟨h0, hpc, hcode⟩ := hu
  rw [← State.decodedFrom_encodeState H h0]
  refine decodeState_of_checks (length_encodeState H u) ?_ ?_ (slice_encodeState_regZero H u)
    ((toNat_getD_encodeState_pc_mod_four H u).trans hpc) ((slice_encodeState_root H u).trans (by rw [hroot]))
  all_goals simp only [getD_encodeState_exited, getD_encodeState_exitCode]
  · cases u.exited <;> simp
  · cases h : u.exited <;> simp [hcode, h]

/-- Settles O37: the encoding of a valid state passes the checks, and each field is read off its slice. -/
theorem codecRoundTrip : Obligations.CodecRoundTrip := by
  refine ⟨fun s hs => exec_cmdDecodeState_ok (decodeState_encodeState hs rfl), fun H s t h => ?_⟩
  have word {start : Nat} {v w : Word} (hv : slice (encodeState H s) start 8 = be64 v)
      (hw : slice (encodeState H t) start 8 = be64 w) : w = v := be64_injective (by rw [← hv, ← hw, h])
  have key : t.preimageKey = s.preimageKey := Vector.toList_inj.1 (by
    rw [← slice_encodeState_preimageKey H, ← slice_encodeState_preimageKey H, h])
  have root_eq : root H s.mem = root H t.mem := Vector.toList_inj.1 (by
    rw [← slice_encodeState_root, ← slice_encodeState_root, h])
  have code : t.exitCode = s.exitCode := by
    rw [← getD_encodeState_exitCode H, ← getD_encodeState_exitCode H, h]
  have flag_injective : Function.Injective fun e : Bool => (if e then 1 else 0 : Byte) := by decide
  have exited : t.exited = s.exited := flag_injective (by
    change (if t.exited then 1 else 0 : Byte) = if s.exited then 1 else 0
    rw [← getD_encodeState_exited H, ← getD_encodeState_exited H, h])
  exact ⟨root_eq, fun r => word (slice_encodeState_reg H s r) (slice_encodeState_reg H t r),
    word (slice_encodeState_pc H s) (slice_encodeState_pc H t),
    ⟨key, word (slice_encodeState_preimageOffset H s) (slice_encodeState_preimageOffset H t)⟩,
    ⟨code, exited, (stepCount_eq_of_encodeState_eq h).symm,
      word (slice_encodeState_loadReservation H s) (slice_encodeState_loadReservation H t)⟩,
    word (slice_encodeState_heap H s) (slice_encodeState_heap H t)⟩

/-- Settles O35: each field by its slice of the encoding. -/
theorem encodeStateLayout : Obligations.EncodeStateLayout := fun H s =>
  ⟨length_encodeState H s, slice_encodeState_root H s, slice_encodeState_preimageKey H s,
    bigEndianAt_of_slice_eq_be64 (slice_encodeState_preimageOffset H s),
    bigEndianAt_of_slice_eq_be64 (slice_encodeState_pc H s), getElem?_encodeState_exitCode H s,
    getElem?_encodeState_exited H s, bigEndianAt_of_slice_eq_be64 (slice_encodeState_stepCount H s),
    bigEndianAt_of_slice_eq_be64 (slice_encodeState_heap H s),
    bigEndianAt_of_slice_eq_be64 (slice_encodeState_loadReservation H s),
    fun r => bigEndianAt_of_slice_eq_be64 (slice_encodeState_reg H s r), rfl⟩

/-! ## The load reservation (R292) -/

/-- A completed command other than `DECODE_STATE` carries the load reservation. -/
theorem exec_command_next_loadReservation {i : Instr} {s t : State} (hi : i.isCommand = true)
    (hd : ∀ b, i ≠ .cmdDecodeState b) (h : exec i s = .next t) : t.loadReservation = s.loadReservation := by
  cases i with
  | cmdRead | cmdWrite =>
    change ite _ _ _ = _ at h
    split at h
    · cases h
    · obtain ⟨_, _, hk⟩ := orRaise_next h
      cases hk; rfl
  | cmdDeserialize b => obtain ⟨_, _, hk⟩ := orRaise_next h; cases hk; rfl
  | cmdDecodeState b => exact absurd rfl (hd b)
  | cmdRoot | cmdProof | cmdSerialize | cmdEncodeState | cmdStateHash => cases h; rfl
  | cmdStep p =>
    rcases execCmdStep_next_cases h with ⟨r, rfl⟩ | ⟨j, u, hj, hu, rfl⟩
    · rfl
    · exact (exec_word_next_carries hj hu).2
  | _ => cases hi

/-- Settles O19: words and commands carry the reservation, its slice holds it, and no check of `DECODE_STATE` reads it. -/
theorem reservationCarried : Obligations.ReservationCarried := by
  refine ⟨fun i s t hd h => ?_, fun H s => bigEndianAt_of_slice_eq_be64 (slice_encodeState_loadReservation H s),
    fun s v hs => ?_⟩
  · cases hi : i.isCommand with
    | true => exact exec_command_next_loadReservation hi hd h
    | false => exact (exec_word_next_carries hi h).2
  · have hu : State.Valid { s with loadReservation := v } := hs
    exact ⟨_, exec_cmdDecodeState_ok (decodeState_encodeState hu rfl), rfl⟩

end Sys2Proof.Machine
end

section
/-! SUPPORT. The syscalls (spec/48_system.md R300 to R316): the call each number and descriptor selects, and what each
leaves; and the instructions that only advance `pc` (R317 to R319). -/

namespace Sys2Proof.Machine

/-! ## The call a number and a descriptor select (R301, R309) -/

section
variable (params : SyscallParams) (oracle : OracleFn) {s : State}

theorem syscall_exit (h : s.readReg a7 = 93 ∨ s.readReg a7 = 94) : syscall params oracle s = sysExit s := if_pos h

theorem syscall_brk (h : s.readReg a7 = 214) : syscall params oracle s = sysReturn s Config.brkValue 0 := by
  simp [syscall, h, sysBrk]

theorem syscall_mmap (h : s.readReg a7 = 222) : syscall params oracle s = sysMmap params s := by simp [syscall, h]

theorem syscall_read (h : s.readReg a7 = 63) : syscall params oracle s = sysRead params oracle s := by
  simp [syscall, h]

theorem syscall_write (h : s.readReg a7 = 64) : syscall params oracle s = sysWrite params s := by simp [syscall, h]

/-- A number outside the six of the table goes by the no-op set. -/
theorem syscall_other (h : (s.readReg a7).toNat ∉ [63, 64, 93, 94, 214, 222]) :
    syscall params oracle s =
      if s.readReg a7 ∈ params.noop then sysReturn s 0 0 else raise (.unsupportedSyscall (s.readReg a7)) := by
  have ne {n : Word} (hn : n.toNat ∈ [63, 64, 93, 94, 214, 222]) : s.readReg a7 ≠ n := fun e => h (e ▸ hn)
  rw [syscall, if_neg (not_or.2 ⟨ne (by decide), ne (by decide)⟩), if_neg (ne (by decide)), if_neg (ne (by decide)),
    if_neg (ne (by decide)), if_neg (ne (by decide))]

theorem sysRead_preimage (h : s.readReg a0 = 5) : sysRead params oracle s = sysPreimageRead oracle s := by
  simp [sysRead, h]

theorem sysRead_badDescriptor (h : (s.readReg a0).toNat ∉ [0, 3, 5]) :
    sysRead params oracle s = sysBadDescriptor params s := by
  have ne {n : Word} (hn : n.toNat ∈ [0, 3, 5]) : s.readReg a0 ≠ n := fun e => h (e ▸ hn)
  rw [sysRead, if_neg (ne (by decide)), if_neg (ne (by decide)), if_neg (ne (by decide))]

theorem sysWrite_emit (h : s.readReg a0 = 1 ∨ s.readReg a0 = 2 ∨ s.readReg a0 = 4) :
    sysWrite params s = sysEmit s := if_pos h

theorem sysWrite_key (h : s.readReg a0 = 6) : sysWrite params s = sysKeyWrite s := by simp [sysWrite, h]

theorem sysWrite_badDescriptor (h : (s.readReg a0).toNat ∉ [1, 2, 4, 6]) :
    sysWrite params s = sysBadDescriptor params s := by
  have ne {n : Word} (hn : n.toNat ∈ [1, 2, 4, 6]) : s.readReg a0 ≠ n := fun e => h (e ▸ hn)
  rw [sysWrite, if_neg (by simp [ne]), if_neg (ne (by decide))]

end

theorem exec_ecall (s : State) : exec .ecall s = syscall syscallDefaults Config.oracle s := rfl

/-! ## exit, brk, mmap, no-ops (R305, R307, R308, R315) -/

/-- Settles O49: an exit is one update of the state and the advance. -/
theorem ecallExit : Obligations.EcallExit := by
  intro s h
  refine ⟨_, syscall_exit _ _ h, BitVec.toNat_setWidth .., rfl, rfl, .of_eq rfl, .of_eq rfl, ⟨rfl, rfl⟩, rfl, rfl, rfl,
    ⟨rfl, rfl, rfl⟩, ?_⟩
  have hcode : (s.readReg a0).setWidth 8 = 0 ↔ (s.readReg a0).toNat % 256 = 0 := by
    rw [← BitVec.toNat_inj, BitVec.toNat_setWidth]; rfl
  exact (if_pos rfl).trans (if_congr hcode rfl rfl)

/-- Settles O50: each call is a return, of the state itself or of the one with the heap pointer moved. -/
theorem ecallBrkMmapNoop : Obligations.EcallBrkMmapNoop := by
  refine ⟨exec_ecall, by simp [syscallDefaults, noopSyscalls],
    fun p oracle s => ⟨fun h => ?_, fun h h0 => ?_, fun h h0 => ?_, fun h hn => ?_⟩⟩
  · rw [syscall_brk p oracle h]
    exact sysReturn_returns s _ 0
  · rw [syscall_mmap p oracle h, sysMmap, if_pos h0]
    obtain ⟨t, e, hr, hm, hp, hst, hh, hport⟩ :=
      sysReturn_returns { s with heap := s.heap + p.round (s.readReg a1) }
        (if p.returnsNew then s.heap + p.round (s.readReg a1) else s.heap) 0
    refine ⟨t, e, hh.trans (BitVec.add_def ..), ?_, hm, hp, hst, hport⟩
    rw [hh]; exact hr
  · rw [syscall_mmap p oracle h, sysMmap, if_neg h0]
    exact sysReturn_returns s _ 0
  · rw [syscall_other p oracle h, if_pos hn]
    exact sysReturn_returns s 0 0

/-! ## read and write (R309 to R314) -/

/-- Settles O51: each call is a return of the state itself, but for a number that is in no list. -/
theorem ecallReadAndErrors : Obligations.EcallReadAndErrors := by
  refine ⟨exec_ecall, fun p oracle s => ⟨fun h h0 => ?_, fun h h3 => ?_, fun h hbad => ?_, fun h hbad => ?_,
    fun h hn => ?_⟩⟩
  · rw [syscall_read p oracle h, sysRead, if_pos h0]
    exact sysReturn_returns s 0 0
  · rw [syscall_read p oracle h, sysRead, if_neg (by simp [h3]), if_pos h3]
    exact sysReturn_returns s _ 0
  · rw [syscall_read p oracle h, sysRead_badDescriptor p oracle hbad]
    exact sysReturn_returns s (ones 64) p.badf
  · rw [syscall_write p oracle h, sysWrite_badDescriptor p hbad]
    exact sysReturn_returns s (ones 64) p.badf
  · rw [syscall_other p oracle h, if_neg hn]; rfl

theorem toNat_lengthWord {n : Nat} (h : n < 2 ^ 64) : (lengthWord n).toNat = n := by
  rw [lengthWord, if_pos h, BitVec.toNat_ofNat, Nat.mod_eq_of_lt h]

theorem getD_take_drop (v : List Byte) (start : Nat) {n k : Nat} (hk : k < n) :
    ((v.drop start).take n).getD k 0 = v.getD (start + k) 0 := by
  simp [List.getD_eq_getElem?_getD, List.getElem?_take_of_lt hk]

/-- The bytes a preimage read delivers, as a write of the statements (R311). -/
theorem writesBytes_delivered (s : State) (v : List Byte) :
    WritesBytes s.mem
      (s.mem.setBytesAt (s.readReg a1).toNat ((v.drop s.preimageOffset.toNat).take (preimageCount s v)))
      (s.readReg a1).toNat (preimageCount s v) fun k => v.getD (s.preimageOffset.toNat + k) 0 := by
  have hl := length_take_preimageCount s v
  have hn : preimageCount s v ≤ 32 - (s.readReg a1).toNat % 32 := (Nat.min_le_left ..).trans (leafClamp_le ..)
  have hr : (s.readReg a1).toNat + ((v.drop s.preimageOffset.toNat).take (preimageCount s v)).length ≤ 2 ^ 64 := by
    have := (s.readReg a1).isLt
    omega
  have hw := writesBytes_setBytesAt s.mem (.inr hr)
  rw [hl] at hw
  exact hw.congr fun k hk => getD_take_drop v _ hk

/-- A return with a new memory and the offset moved (R311). -/
theorem sysReturn_newMemory (s : State) (m : Memory) (offset v : Word) :
    Completes (sysReturn { s with mem := m, preimageOffset := offset } v 0) fun t =>
      t.mem = m ∧ t.preimageOffset = offset ∧ SysReturns s t v 0 ∧ t.preimageKey = s.preimageKey ∧ SameStatus s t ∧
        t.heap = s.heap ∧ SamePort s t := by
  obtain ⟨t, ht, hret, -, ⟨hkey, hoff⟩, hstatus, hheap, hport⟩ :=
    sysReturn_returns { s with mem := m, preimageOffset := offset } v 0
  exact ⟨t, ht, by cases sysReturn_next ht; simp, hoff, hret, hkey, hstatus, hheap, hport⟩

/-- Settles O52: the two failures, and otherwise such a return, of the memory with the bytes delivered. -/
theorem ecallPreimageRead : Obligations.EcallPreimageRead := by
  refine ⟨exec_ecall, fun n hn => toNat_lengthWord hn, fun p oracle s h h5 => ?_⟩
  rw [syscall_read p oracle h, sysRead_preimage p oracle h5]
  rcases sysPreimageRead_cases oracle s with ⟨r, ho, e⟩ | ⟨P, ho, hcases⟩ <;> rw [ho]
  · exact ⟨fun _ hr => by cases hr; exact e, nofun⟩
  refine ⟨nofun, fun Q hQ => ?_⟩
  cases hQ
  rcases hcases with ⟨hlt, e⟩ | ⟨hle, e⟩
  · exact ⟨fun _ => e, fun hle => absurd hlt (Nat.not_lt.2 hle)⟩
  · refine ⟨fun hlt => absurd hlt (Nat.not_lt.2 hle), fun _ => ?_⟩
    rw [e]
    obtain ⟨t, ht, hmem, hrest⟩ := sysReturn_newMemory s _ _ (BitVec.ofNat 64 (preimageCount s (prefixed P)))
    exact ⟨t, ht, hmem ▸ writesBytes_delivered s (prefixed P), hrest⟩

theorem getElem_bytes32 (b : List Byte) {k : Nat} (hk : k < 32) : (bytes32 b)[k] = b.getD k 0 := by
  simp [bytes32]

/-- Byte `k` of a key after `n` bytes of memory were shifted into it (R313). -/
theorem getElem_shiftedKey (key : Bytes32) (m : Memory) (a n : Nat) {k : Nat} (hk : k < 32) :
    (bytes32 ((key.toList ++ m.bytesAt a n).drop n))[k] =
      if h : k + n < 32 then key[k + n] else m.byte (a + (k + n - 32)) := by
  have hlen : n + k < (key.toList ++ m.bytesAt a n).length := by simp; omega
  rw [getElem_bytes32 _ hk, List.getD_eq_getElem?_getD, List.getElem?_drop, List.getElem?_eq_getElem hlen,
    Option.getD_some, List.getElem_append]
  simp only [Vector.length_toList, Nat.add_comm n k, Vector.getElem_toList, Memory.getElem_bytesAt]

/-- A return with a new key and the offset reset (R313). -/
theorem sysReturn_newKey (s : State) (key : Bytes32) (v : Word) :
    Completes (sysReturn { s with preimageKey := key, preimageOffset := 0 } v 0) fun t =>
      t.preimageKey = key ∧ t.preimageOffset = 0 ∧ SysReturns s t v 0 ∧ SameMemory s t ∧ SameStatus s t ∧
        t.heap = s.heap ∧ SamePort s t := by
  obtain ⟨t, ht, hret, hmem, ⟨hkey, hoff⟩, hstatus, hheap, hport⟩ :=
    sysReturn_returns { s with preimageKey := key, preimageOffset := 0 } v 0
  exact ⟨t, ht, hkey, hoff, hret, hmem, hstatus, hheap, hport⟩

/-- Settles O53: the call is such a return, and the new key has the bytes of the shifted one. -/
theorem ecallKeyWrite : Obligations.EcallKeyWrite := by
  intro s h h6 addr n
  have e : exec .ecall s = sysKeyWrite s := by rw [exec_ecall, syscall_write _ _ h, sysWrite_key _ h6]
  rw [e, sysKeyWrite_eq]
  obtain ⟨t, ht, hkey, hrest⟩ := sysReturn_newKey s
    (bytes32 ((s.preimageKey.toList ++ s.mem.bytesAt addr.toNat n).drop n)) (BitVec.ofNat 64 n)
  refine ⟨t, ht, fun k hk => ?_, hrest⟩
  simp only [hkey]
  exact getElem_shiftedKey s.preimageKey s.mem addr.toNat n hk

/-- Settles O54: out of range the bytes are not read; in range the call is a return of the state with the event added. -/
theorem ecallEmit : Obligations.EcallEmit := by
  intro s h hfd addr count
  have e : exec .ecall s = sysEmit s := by
    rw [exec_ecall, syscall_write _ _ h, sysWrite_emit _ hfd]
  refine ⟨fun h0 hout => ?_, fun hin => ?_⟩
  · rw [e, sysEmit, memBytes_outOfRange _ h0 hout]; rfl
  · rw [e, sysEmit, memBytes_inRange _ hin, Memory.bytesAt_eq_map]
    obtain ⟨t, ht, hret, hmem, hpre, hstatus, hheap, hreq, hrep, hout⟩ := sysReturn_returns
      { s with output := s.output ++ [⟨s.readReg a0, (List.range count).map fun k => s.mem.byte (addr.toNat + k)⟩] }
      (s.readReg a2) 0
    exact ⟨t, ht, hout, hret, hmem, hpre, hstatus, hheap, hreq, hrep⟩

/-! ## EBREAK and the fences (R317 to R319) -/

/-- Settles O55: each of the three is encoded as its row of the table, and it is the advance. -/
theorem fencesAndBreak : Obligations.FencesAndBreak :=
  ⟨fun s => ⟨.of_row "EBREAK" (by decide) rfl rfl rfl, _, rfl, advance_onlyPc s⟩,
    fun s _ _ _ _ _ => ⟨.of_row "FENCE" (by decide) rfl rfl rfl, _, rfl, advance_onlyPc s⟩,
    fun s _ _ _ => ⟨.of_row "FENCE.I" (by decide) rfl rfl rfl, _, rfl, advance_onlyPc s⟩⟩

end Sys2Proof.Machine
end

section
/-! SUPPORT. The `STEP` command and the port (spec/49_step_codec_witness.md R340 to R346, spec/60_exceptions.md R414,
R420): a `STEP` runs the instruction decoded at `pc`, the fault it raises is the first one met, and neither proof mode nor
the result of the command before changes what it does. -/

namespace Sys2Proof.Machine

/-! ## A `STEP` runs the decoded instruction (R340) -/

theorem Memory.bytesAt_four (m : Memory) (a : Nat) :
    m.bytesAt a 4 = [m.byte a, m.byte (a + 1), m.byte (a + 2), m.byte (a + 3)] := rfl

/-- `head` of the first four bytes of a stream and the rest of it. -/
def onFourBytes {α : Type} (head : Byte → Byte → Byte → Byte → List Byte → α) (short : α) :
    List Byte → α
  | b0 :: b1 :: b2 :: b3 :: rest => head b0 b1 b2 b3 rest
  | _ => short

/-- The stream decoder by cases on the stream, with what it does on four bytes behind a variable: spelled out, it would
have the kernel evaluate the word decoder on the bytes. -/
theorem decodeBytes_eq_onFourBytes : ∃ head, decodeBytes = onFourBytes head (.error .tooShort) ∧
    ∀ {b0 b1 b2 b3 rest i rest'}, head b0 b1 b2 b3 rest = .ok (i, rest') →
      decodeWord (wordOfBytes b0 b1 b2 b3) = .ok i := by
  refine ⟨_, rfl, fun h => ?_⟩
  split at h
  next hd => cases h; exact hd
  next => cases h

/-- The instruction the four bytes at an aligned `pc` decode to is the one of the fetched word (R65). -/
theorem fetch_of_decodeBytes {s : State} {i : Instr} (ha : s.pc.toNat % 4 = 0)
    (h : decodeBytes (s.mem.bytesAt s.pc.toNat 4) = .ok (i, [])) : ∃ w, fetch s = .ok w ∧ decodeWord w = .ok i := by
  obtain ⟨head, hdec, hhead⟩ := decodeBytes_eq_onFourBytes
  rw [hdec, Memory.bytesAt_four] at h
  exact ⟨_, fetch_eq_wordOfBytes ha, hhead h⟩

section
variable {s t : State} {i : Instr} {w : IWord} {f : Fault} (p : Bool)

theorem execCmdStep_misaligned (he : s.exited = false) (ha : s.pc.toNat % 4 ≠ 0) :
    execCmdStep p s = .fault (.misalignedFetch s.pc) := by
  rw [execCmdStep, he, if_neg (by decide), if_neg (mt aligned4_iff.1 ha)]; rfl

theorem execCmdStep_eq_runStep (he : s.exited = false) (ha : s.pc.toNat % 4 = 0) (hf : fetch s = .ok w)
    (hd : decodeWord w = .ok i) : execCmdStep p s = runStep p i s := by
  rw [execCmdStep, he, if_neg (by decide), if_pos (aligned4_iff.2 ha), hf]
  simp only [orRaise, hd]

theorem runStep_next (hi : i.isCommand = false) (h : exec i s = .next t) :
    runStep p i s = .next (finishStep p s i t) := by
  rw [runStep, runInstr_eq_exec hi, h]

theorem runStep_fault (hi : i.isCommand = false) (h : exec i s = .fault f) : runStep p i s = .fault f := by
  rw [runStep, runInstr_eq_exec hi, h]; rfl

/-- A `STEP` raises what its instruction raises (R343). -/
theorem execCmdStep_fault (he : s.exited = false) (ha : s.pc.toNat % 4 = 0) (hf : fetch s = .ok w)
    (hd : decodeWord w = .ok i) (h : exec i s = .fault f) : execCmdStep p s = .fault f := by
  rw [execCmdStep_eq_runStep p he ha hf hd, runStep_fault p (decodeWord_not_command hd) h]

end

/-- Settles O8: a step reports the outcome of its command, and a `STEP` is the decoded instruction, finished. -/
theorem stepRunsDecodedInstruction : Obligations.StepRunsDecodedInstruction := by
  have serves (s : State) (i : Instr) (h : decodeRequest s.pendingRequest = .ok i) :
      step s = s.report (exec i s.accept) := by rw [step, h]
  refine ⟨fun s i h => ?_, fun s i hcode he ha h => ?_⟩
  · rw [serves s i h]
    cases exec i s.accept <;> rfl
  · have hstep : decodeRequest s.pendingRequest = .ok (.cmdStep s.pendingRequest.proofMode) := by
      rw [decodeRequest, hcode]; rfl
    obtain ⟨w, hf, hd⟩ := fetch_of_decodeBytes (s := s.accept) ha h
    rw [serves s _ hstep]
    change s.report (execCmdStep _ s.accept) = _
    rw [execCmdStep_eq_runStep (s := s.accept) _ he ha hf hd, runStep, runInstr_eq_exec (decodeWord_not_command hd)]
    cases exec i s.accept <;> rfl

/-! ## Instructions that cannot fault -/

theorem exec_completes_of_neverFaults {i : Instr} (h : neverFaults i = true) (s : State) : ∃ u, exec i s = .next u := by
  have byte_inRange (a : Word) : a.toNat + 1 ≤ 2 ^ 64 := a.isLt
  cases i with
  | lb | lbu => exact ⟨_, loadOp_inRange _ _ (byte_inRange _)⟩
  | sb rs2 =>
    obtain ⟨u, hu, -⟩ := storeOp_inRange rs2 (byte_inRange _)
    exact ⟨u, hu⟩
  | lh | lw | ld | lhu | lwu | sh | sw | sd | beq | bne | blt | bge | bltu | bgeu | jal | jalr | ecall | aSlot | cmdRead
  | cmdWrite | cmdRoot | cmdProof | cmdSerialize | cmdDeserialize | cmdEncodeState | cmdDecodeState | cmdStateHash
  | cmdStep => cases h
  | _ => exact ⟨_, rfl⟩

/-- Settles O9: the instruction completes, and it carries the counter that `STEP` then advances. -/
theorem stepCompletes : Obligations.StepCompletes := by
  intro s i p he ha h hn
  obtain ⟨w, hf, hd⟩ := fetch_of_decodeBytes ha h
  obtain ⟨u, hu⟩ := exec_completes_of_neverFaults hn s
  have hi := decodeWord_not_command hd
  refine ⟨_, (execCmdStep_eq_runStep p he ha hf hd).trans (runStep_next p hi hu), u, hu, ?_⟩
  rw [finishStep, (exec_word_next_carries hi hu).1]
  rfl

/-! ## The order of faults (R341, R414) -/

/-- A word with the AMO opcode decodes, and its instruction raises `UnimplementedAtomic` with the word (R290). -/
theorem exec_of_aSlot_opcode {w : IWord} (ho : bits w 6 0 = 0x2f) :
    ∃ i, decodeWord w = .ok i ∧ ∀ s, exec i s = .fault (.unimplementedAtomic w) := by
  have hd : decodeFields w = decodeASlot w := by simp [decodeFields, ho]
  exact ⟨_, decodeWord_eq_ok_iff.2 hd,
    fun _ => congrArg (Host.Outcome.fault ∘ Fault.unimplementedAtomic) (encASlot_of_bits ho)⟩

theorem execCmdStep_unimplementedAtomic {s : State} {w : IWord} (p : Bool) (he : s.exited = false)
    (ha : s.pc.toNat % 4 = 0) (hf : fetch s = .ok w) (ho : bits w 6 0 = 0x2f) :
    execCmdStep p s = .fault (.unimplementedAtomic w) := by
  obtain ⟨i, hd, hx⟩ := exec_of_aSlot_opcode ho
  exact execCmdStep_fault p he ha hf hd (hx s)

/-- Settles O56: the instruction is encoded as its row of the table, and a word of that row decodes to one that stops. -/
theorem aSlotStops : Obligations.ASlotStops :=
  ⟨fun _ _ _ _ _ _ _ _ => ⟨.of_row "A-SLOT" (by decide) rfl rfl rfl, _, rfl, rfl⟩,
    fun _ p w he ha hf hw => execCmdStep_unimplementedAtomic p he ha hf (by rw [← and_opcode, hw]; rfl)⟩

/-- The one fault each syscall can raise (R316, R311, R314). -/
theorem syscall_fault {params : SyscallParams} {oracle : OracleFn} {s : State} {f : Fault}
    (h : syscall params oracle s = .fault f) :
    f = .unsupportedSyscall (s.readReg a7) ∨
      (s.readReg a7 = 63 ∧ s.readReg a0 = 5 ∧ ∃ r, f = .oracleError s.preimageKey s.preimageOffset r) ∨
      (s.readReg a7 = 64 ∧ f = .addressRange (s.readReg a1) (s.readReg a2).toNat) := by
  cases syscall_cases params oracle s with
  | exit _ e => rw [e] at h; cases h
  | brk _ e | mmapNew _ _ e | mmapHint _ _ e | stdin _ _ e | hintRead _ _ e | badRead _ _ _ _ e | badWrite _ _ _ e
  | noop _ e => exact absurd (e.symm.trans h) sysReturn_ne_fault
  | preimageRead hn h0 e =>
    rw [e] at h
    rcases sysPreimageRead_cases oracle s with ⟨r, _, e'⟩ | ⟨_, _, ⟨_, e'⟩ | ⟨_, e'⟩⟩ <;> rw [e'] at h
    · cases h; exact .inr (.inl ⟨hn, h0, _, rfl⟩)
    · cases h; exact .inr (.inl ⟨hn, h0, _, rfl⟩)
    · exact absurd h sysReturn_ne_fault
  | emit hn _ e =>
    rcases sysEmit_cases s with ⟨_, e'⟩ | ⟨_, e'⟩ <;> rw [e, e'] at h
    · exact absurd h sysReturn_ne_fault
    · cases h; exact .inr (.inr ⟨hn, rfl⟩)
  | keyWrite _ _ e => rw [e, sysKeyWrite_eq] at h; exact absurd h sysReturn_ne_fault
  | unsupported _ e => rw [e] at h; cases h; exact .inl rfl

theorem exec_word_fault {i : Instr} {s : State} {f : Fault} (hi : i.isCommand = false) (h : exec i s = .fault f) :
    OwnFault i s f := by
  cases exec_cases hi s with
  | retires _ _ e => exact absurd (e.symm.trans h) retire_ne_fault
  | stores _ _ _ _ _ e | jumps _ _ _ e | branches _ _ e | advances e => rw [e] at h; cases h
  | calls hc e => exact .inr (.inr (.inl ⟨hc, syscall_fault (e.symm.trans h)⟩))
  | faults g hg e => rw [e] at h; cases h; exact hg

/-- Settles O10: one lemma for each check, in the order `STEP` makes them. -/
theorem faultPriority : Obligations.FaultPriority := by
  refine ⟨fun s p he ha => execCmdStep_misaligned p he ha, fun s ha => ⟨_, fetch_ok ha⟩,
    fun s p w he ha hf hd => ?_, fun s p w he ha hf ho => execCmdStep_unimplementedAtomic p he ha hf ho,
    fun s p w i f he ha hf hd hx => execCmdStep_fault p he ha hf hd hx, fun s i f hi h => exec_word_fault hi h,
    exec_ecall, fun p oracle s r h h5 ho => ?_⟩
  · have hnone : decodeFields w = none :=
      Option.eq_none_iff_forall_ne_some.2 fun i hi => hd i (decodeWord_eq_ok_iff.2 hi)
    exact execCmdStep_decodeError p he ha hf (decodeWord_eq_error hnone)
  · obtain ⟨-, -, hread⟩ := ecallPreimageRead
    obtain ⟨hfail, -⟩ := hread p oracle s h h5
    exact hfail r ho

/-! ## The reply of the command before (R420) -/

/-- The outcome with another reply at the port; a fault stays as it is. -/
def withReply (r : Reply) : Result → Result
  | .next t => .next (t.answer r)
  | o => o

section
variable (s : State) (r : Reply)

theorem writeReg_answer (rd : Reg) (v : Word) : (s.answer r).writeReg rd v = (s.writeReg rd v).answer r := by
  unfold State.writeReg
  split <;> rfl

theorem retire_answer (rd : Reg) (v : Word) : retire (s.answer r) rd v = withReply r (retire s rd v) := by
  rw [retire, writeReg_answer]; rfl

theorem sysReturn_answer (v e : Word) : sysReturn (s.answer r) v e = withReply r (sysReturn s v e) := by
  rw [sysReturn, writeReg_answer, writeReg_answer]; rfl

theorem orRaise_withReply {α : Type} {x : Except Fault α} {k k' : α → Result} (h : ∀ a, k' a = withReply r (k a)) :
    orRaise x k' = withReply r (orRaise x k) := by
  cases x with
  | ok a => exact h a
  | error f => rfl

theorem ite_withReply {c : Prop} [Decidable c] {x x' y y' : Result} (hx : x' = withReply r x)
    (hy : y' = withReply r y) :
    (if c then x' else y') = withReply r (if c then x else y) := by
  rw [hx, hy, apply_ite (withReply r)]

theorem loadOp_answer (n : Nat) (ext : Word → Word) (rd rs1 : Reg) (imm : BitVec 12) :
    loadOp n ext rd rs1 imm (s.answer r) = withReply r (loadOp n ext rd rs1 imm s) :=
  orRaise_withReply r fun _ => retire_answer s r rd _

theorem storeOp_answer (n : Nat) (rs2 rs1 : Reg) (imm : BitVec 12) :
    storeOp n rs2 rs1 imm (s.answer r) = withReply r (storeOp n rs2 rs1 imm s) :=
  orRaise_withReply r fun _ => rfl

theorem transfer_answer (t : Word) : transfer (s.answer r) t = withReply r (transfer s t) := ite_withReply r rfl rfl

theorem branchOp_answer (cond : Word → Word → Bool) (rs1 rs2 : Reg) (o : BitVec 13) :
    branchOp cond rs1 rs2 o (s.answer r) = withReply r (branchOp cond rs1 rs2 o s) :=
  ite_withReply r (transfer_answer s r _) rfl

theorem jumpOp_answer (rd : Reg) (t : Word) : jumpOp rd t (s.answer r) = withReply r (jumpOp rd t s) :=
  ite_withReply r (by rw [writeReg_answer]; rfl) rfl

section
variable (params : SyscallParams) (oracle : OracleFn)

theorem sysMmap_answer : sysMmap params (s.answer r) = withReply r (sysMmap params s) :=
  ite_withReply r (sysReturn_answer { s with heap := _ } r _ 0) (sysReturn_answer s r _ 0)

theorem preimageCount_answer (v : List Byte) : preimageCount (s.answer r) v = preimageCount s v := rfl

theorem sysPreimageRead_answer : sysPreimageRead oracle (s.answer r) = withReply r (sysPreimageRead oracle s) := by
  simp only [sysPreimageRead, State.answer_preimageKey, State.answer_preimageOffset, State.answer_mem,
    State.readReg_answer, preimageCount_answer]
  cases oracle s.preimageKey with
  | fail => rfl
  | preimage p =>
    exact ite_withReply r rfl
      (orRaise_withReply r fun m => sysReturn_answer { s with mem := m, preimageOffset := _ } r _ 0)

theorem sysKeyWrite_answer : sysKeyWrite (s.answer r) = withReply r (sysKeyWrite s) :=
  orRaise_withReply r fun _ => sysReturn_answer { s with preimageKey := _, preimageOffset := 0 } r _ 0

theorem sysEmit_answer : sysEmit (s.answer r) = withReply r (sysEmit s) :=
  orRaise_withReply r fun _ => sysReturn_answer { s with output := _ } r _ 0

theorem sysRead_answer : sysRead params oracle (s.answer r) = withReply r (sysRead params oracle s) :=
  ite_withReply r (sysReturn_answer s r 0 0) <| ite_withReply r (sysReturn_answer s r _ 0) <|
    ite_withReply r (sysPreimageRead_answer s r oracle) (sysReturn_answer s r _ _)

theorem sysWrite_answer : sysWrite params (s.answer r) = withReply r (sysWrite params s) :=
  ite_withReply r (sysEmit_answer s r) <| ite_withReply r (sysKeyWrite_answer s r) (sysReturn_answer s r _ _)

theorem syscall_answer : syscall params oracle (s.answer r) = withReply r (syscall params oracle s) :=
  ite_withReply r rfl <| ite_withReply r (sysReturn_answer s r _ 0) <| ite_withReply r (sysMmap_answer s r params) <|
    ite_withReply r (sysRead_answer s r params oracle) <| ite_withReply r (sysWrite_answer s r params) <|
      ite_withReply r (sysReturn_answer s r 0 0) rfl

end

/-- What an instruction word does never depends on the reply at the port, which it carries. -/
theorem exec_word_answer {i : Instr} (hi : i.isCommand = false) : exec i (s.answer r) = withReply r (exec i s) := by
  cases i with
  | lb | lh | lw | ld | lbu | lhu | lwu => exact loadOp_answer s r _ _ _ _ _
  | sb | sh | sw | sd => exact storeOp_answer s r _ _ _ _
  | beq | bne | blt | bge | bltu | bgeu => exact branchOp_answer s r _ _ _ _
  | jal | jalr => exact jumpOp_answer s r _ _
  | ecall => exact syscall_answer s r _ _
  | ebreak | fence | fenceI | aSlot => rfl
  | cmdRead | cmdWrite | cmdRoot | cmdProof | cmdSerialize | cmdDeserialize | cmdEncodeState | cmdDecodeState
  | cmdStateHash | cmdStep => cases hi
  | _ => exact retire_answer s r _ _

/-- `STEP` replaces the reply, so it does the same whatever stood there. -/
theorem execCmdStep_answer (p : Bool) : execCmdStep p (s.answer r) = execCmdStep p s := by
  rcases execCmdStep_cases p s with ⟨he, e⟩ | ⟨he, ha, e⟩ | ⟨he, ha, w, hf, hcases⟩
  · rw [e]; exact if_pos he
  · rw [e]; exact execCmdStep_misaligned (s := s.answer r) p he ha
  rcases hcases with ⟨hd, e⟩ | ⟨i, hd, hi, -⟩
  · rw [e]; exact execCmdStep_decodeError (s := s.answer r) p he ha hf hd
  · rw [execCmdStep_eq_runStep p he ha hf hd, execCmdStep_eq_runStep (s := s.answer r) p he ha hf hd, runStep, runStep,
      runInstr_eq_exec hi, runInstr_eq_exec hi, exec_word_answer s r hi]
    cases exec i s <;> rfl

/-- What a command does never depends on the result of the one before. -/
theorem exec_command_answer {i : Instr} (hi : i.isCommand = true) : exec i (s.answer r) = exec i s := by
  cases i with
  | cmdStep p => exact execCmdStep_answer s r p
  | cmdDecodeState b =>
    change orRaise (decodeState Config.hash b (s.answer r)) _ = orRaise (decodeState Config.hash b s) _
    rw [decodeState_eq, decodeState_eq, State.answer_mem]
    split_ifs <;> rfl
  | cmdRead | cmdWrite | cmdRoot | cmdProof | cmdSerialize | cmdDeserialize | cmdEncodeState | cmdStateHash => rfl
  | _ => cases hi

end

/-- Settles O11: the port's report of a fault, and that no command reads the reply. -/
theorem faultedCommand : Obligations.FaultedCommand := by
  refine ⟨fun s i f h hf => ?_, fun i s r hi => exec_command_answer s r hi⟩
  have hstep : step s = s.report (.fault f) := by rw [step, h, ← hf]
  rcases s.report_fault f with ⟨hr, e⟩ | ⟨hr, e⟩
  · exact ⟨fun hne => absurd hr hne, fun _ => hstep.trans e⟩
  · exact ⟨fun _ => hstep.trans e, fun h0 => absurd h0 hr⟩

/-! ## Exited states and proof mode (R340, R344) -/

/-- Settles O12: the answer changes the reply alone. -/
theorem exitedStepChangesNothing : Obligations.ExitedStepChangesNothing := fun s p he =>
  ⟨s.answer (stepReply p (idleWitness Config.hash s)), if_pos he,
    ⟨rfl, rfl, rfl, ⟨rfl, rfl⟩, ⟨rfl, rfl, rfl, rfl⟩, rfl⟩, rfl, rfl, rfl⟩

/-- In both modes a `STEP` does the same, but for the reply: one witness, or nothing. -/
theorem exists_witness_execCmdStep (s : State) :
    ∃ w, ∀ p, execCmdStep p s = withReply (stepReply p w) (execCmdStep false s) := by
  rcases execCmdStep_cases false s with ⟨he, e⟩ | ⟨he, ha, e⟩ | ⟨he, ha, w, hf, ⟨hd, e⟩ | ⟨i, hd, hi, -⟩⟩
  · exact ⟨idleWitness Config.hash s, fun p => by rw [e]; exact if_pos he⟩
  · exact ⟨idleWitness Config.hash s, fun p => by rw [e]; exact execCmdStep_misaligned p he ha⟩
  · exact ⟨idleWitness Config.hash s, fun p => by rw [e]; exact execCmdStep_decodeError p he ha hf hd⟩
  · refine ⟨witnessOf Config.hash Config.oracle s i, fun p => ?_⟩
    rw [execCmdStep_eq_runStep p he ha hf hd, execCmdStep_eq_runStep false he ha hf hd, runStep, runStep]
    cases runInstr i s <;> rfl

/-- Settles O14: in the two modes the one outcome is given two replies. -/
theorem proofModeChangesOnlyTheReply : Obligations.ProofModeChangesOnlyTheReply := by
  intro s
  obtain ⟨w, h⟩ := exists_witness_execCmdStep s
  have htrue : exec (.cmdStep true) s = withReply (.witness w) (execCmdStep false s) := h true
  have hfalse : exec (.cmdStep false) s = withReply .ok (execCmdStep false s) := h false
  rw [htrue, hfalse]
  cases execCmdStep false s with
  | next u => exact ⟨fun t e => by cases e; rfl, fun t e => ⟨w, by cases e; rfl⟩, fun f => ⟨nofun, nofun⟩⟩
  | fault g => exact ⟨nofun, nofun, fun f => .rfl⟩
  | refused => exact ⟨nofun, nofun, fun f => .rfl⟩

end Sys2Proof.Machine
end

section
/-! SUPPORT. The witness of a step (spec/49_step_codec_witness.md R342, R360 to R365): the addresses an instruction
proves, the preimage part, and the verifier's oracle call. -/

namespace Sys2Proof.Machine

/-! ## The addresses proven (R342, R361) -/

section
variable (oracle : OracleFn) {s : State} {i : Instr}

/-- A load or a store proves the leaf of its first byte, and that of its last where it is the next one. -/
theorem dataAddrs_of_access {a : Word} {n : Nat} (h : accessOf s i = some (a, n)) :
    dataAddrs oracle s i = a :: if 32 < a.toNat % 32 + n then [a + BitVec.ofNat 64 (n - 1)] else [] := by
  cases i with
  | lb | lbu | sb | lh | lhu | sh | lw | lwu | sw | ld | sd => cases h; rfl
  | _ => cases h

theorem dataAddrs_of_no_access (h : accessOf s i = none) (hc : i ≠ .ecall) : dataAddrs oracle s i = [] := by
  cases i with
  | lb | lbu | sb | lh | lhu | sh | lw | lwu | sw | ld | sd => cases h
  | ecall => exact absurd rfl hc
  | _ => rfl

theorem readsPreimage_iff : readsPreimage s = true ↔ s.readReg a7 = 63 ∧ s.readReg a0 = 5 := by simp [readsPreimage]

theorem writesKey_iff : writesKey s = true ↔ s.readReg a7 = 64 ∧ s.readReg a0 = 6 := by simp [writesKey]

theorem syscallCount_read {p : List Byte} (h : s.readReg a7 = 63 ∧ s.readReg a0 = 5)
    (ho : oracle s.preimageKey = .preimage p) : syscallCount oracle s = preimageCount s (prefixed p) := by
  rw [syscallCount, if_pos (readsPreimage_iff.2 h), ho]

theorem syscallCount_write (h : s.readReg a7 = 64 ∧ s.readReg a0 = 6) :
    syscallCount oracle s = leafClamp (s.readReg a1) (s.readReg a2) := by
  have hr : ¬readsPreimage s = true := by simp [readsPreimage, h]
  rw [syscallCount, if_neg hr, if_pos (writesKey_iff.2 h)]

theorem syscallCount_other (hr : ¬(s.readReg a7 = 63 ∧ s.readReg a0 = 5))
    (hw : ¬(s.readReg a7 = 64 ∧ s.readReg a0 = 6)) : syscallCount oracle s = 0 := by
  rw [syscallCount, if_neg (mt readsPreimage_iff.1 hr), if_neg (mt writesKey_iff.1 hw)]

/-! ## The witness (R360 to R362) -/

variable (H : HashFn)

/-- The fetch leaf first, then those of the data, all on the memory before the step. -/
theorem witnessOf_proof : (witnessOf H oracle s i).proof =
    proofBytes H s.mem s.pc ++ (dataAddrs oracle s i).flatMap (proofBytes H s.mem) := rfl

theorem witnessOf_access_proof {a : Word} {n : Nat} (h : accessOf s i = some (a, n)) :
    (witnessOf H oracle s i).proof = proofBytes H s.mem s.pc ++ proofBytes H s.mem a ++
      if 32 < a.toNat % 32 + n then proofBytes H s.mem (a + BitVec.ofNat 64 (n - 1)) else [] := by
  rw [witnessOf_proof, dataAddrs_of_access oracle h, List.flatMap_cons, List.append_assoc]
  split_ifs <;> simp

theorem witnessOf_no_access_proof (h : accessOf s i = none) (hc : i ≠ .ecall) :
    (witnessOf H oracle s i).proof = proofBytes H s.mem s.pc := by
  rw [witnessOf_proof, dataAddrs_of_no_access oracle h hc]
  exact List.append_nil _

/-- ECALL proves the leaf of `a1` when it moves bytes through it. -/
theorem witnessOf_ecall_proof : (witnessOf H oracle s .ecall).proof =
    proofBytes H s.mem s.pc ++ if syscallCount oracle s = 0 then [] else proofBytes H s.mem (s.readReg a1) := by
  rw [witnessOf_proof, dataAddrs, syscallAddrs]
  split_ifs <;> simp

theorem witnessOf_preimage {p : List Byte} (h : s.readReg a7 = 63 ∧ s.readReg a0 = 5)
    (ho : oracle s.preimageKey = .preimage p) :
    (witnessOf H oracle s .ecall).preimage = some ⟨s.preimageKey, prefixed p, s.preimageOffset⟩ := by
  rw [witnessOf, preimagePart, if_pos ⟨rfl, readsPreimage_iff.2 h⟩, ho]

theorem witnessOf_no_preimage (h : ¬(i = .ecall ∧ s.readReg a7 = 63 ∧ s.readReg a0 = 5)) :
    (witnessOf H oracle s i).preimage = none :=
  if_neg fun hr => h ⟨hr.1, readsPreimage_iff.1 hr.2⟩

end

/-- A completed `STEP` in proof mode answers with the witness of the decoded instruction. -/
theorem execCmdStep_next_reply {s t : State} {i : Instr} (he : s.exited = false)
    (hi : decodeBytes (s.mem.bytesAt s.pc.toNat 4) = .ok (i, [])) (h : execCmdStep true s = .next t) :
    t.reply = .witness (witnessOf Config.hash Config.oracle s i) := by
  have ha : s.pc.toNat % 4 = 0 := by
    by_contra ha
    rw [execCmdStep_misaligned true he ha] at h
    cases h
  obtain ⟨w, hf, hd⟩ := fetch_of_decodeBytes ha hi
  obtain ⟨v, j, u, hf', hd', -, -, rfl⟩ := execCmdStep_next he h
  obtain rfl : w = v := Except.ok.inj (hf.symm.trans hf')
  obtain rfl : i = j := Except.ok.inj (hd.symm.trans hd')
  rfl

/-! ## The verifier's oracle call (R365) -/

theorem drop_prefixed (p : List Byte) : (prefixed p).drop 8 = p := List.drop_left' (length_be64 _)

section
variable (c key : Bytes32) (p : List Byte) (o : Word)

theorem oracleCall_keccak (h : key[0] = 2) : oracleCall c ⟨key, prefixed p, o⟩ = .ok (.keccak o p) := by
  rw [oracleCall, if_pos h, drop_prefixed]

theorem oracleCall_local (h : key[0] = 1) :
    oracleCall c ⟨key, prefixed p, o⟩ = .ok (.localData (key.toList.drop 1) c p p.length o) := by
  have h2 : ¬key[0] = 2 := by rw [h]; decide
  rw [oracleCall, if_neg h2, if_pos h, drop_prefixed]

theorem oracleCall_otherType (h1 : key[0] ≠ 1) (h2 : key[0] ≠ 2) :
    oracleCall c ⟨key, prefixed p, o⟩ = .error (.codecError .unsupportedKeyType) := by
  rw [oracleCall, if_neg h2, if_neg h1]

end

/-- Settles O60: the reply by the decoded instruction, the proofs by the addresses its class proves, and the oracle call
by the type tag. -/
theorem witnessContents : Obligations.WitnessContents := by
  refine ⟨fun s t i he hi h => execCmdStep_next_reply he hi h, fun H oracle s i => ?_, fun c key p o =>
    ⟨oracleCall_keccak c key p o, oracleCall_local c key p o, oracleCall_otherType c key p o⟩⟩
  intro w P reads writes fits
  refine ⟨rfl, length_proofBytes H s.mem, fun a n ha => witnessOf_access_proof oracle H ha, fun ha hr hw => ?_,
    fun hw => ?_, fun p hr ho => ?_, witnessOf_no_preimage oracle H⟩
  · by_cases hc : i = .ecall
    · subst hc
      rw [witnessOf_ecall_proof, if_pos (syscallCount_other oracle (fun h => hr ⟨rfl, h⟩) fun h => hw ⟨rfl, h⟩)]
      exact List.append_nil _
    · exact witnessOf_no_access_proof oracle H ha hc
  · obtain ⟨rfl, hw⟩ := hw
    rw [witnessOf_ecall_proof, syscallCount_write oracle hw]; rfl
  · obtain ⟨rfl, hr⟩ := hr
    refine ⟨?_, witnessOf_preimage oracle H hr ho⟩
    rw [witnessOf_ecall_proof, syscallCount_read oracle hr ho, preimageCount, length_prefixed]; rfl

end Sys2Proof.Machine
end
